-- ==== Sys2Proof/Word.lean ====
section
/-!
DEFINITION. The words of the VIC block: 32-bit data words, addresses and register values (00_scope R5, decision D4),
bytes of the byte view of memory (20_memory R85), the 72-bit command word (30_encoding R110), and the two index types
of the block, 32 interrupt lines and 16 vector slots (00_scope R5).
-/
namespace Sys2Proof

/-- A 32-bit word: `XLEN = 32` (00_scope R5). -/
abbrev Word := BitVec 32

/-- One byte of the byte view of system memory (20_memory R85). -/
abbrev Byte := BitVec 8

/-- A command word `CW` of the one format `CMD72` (30_encoding R110). -/
abbrev CommandWord := BitVec 72

/-- An interrupt line, "an integer identifier in [0, 32)" (00_scope R5, R6). -/
abbrev Line := Fin 32

/-- A vector slot, 0 to 15 (00_scope R5). -/
abbrev Slot := Fin 16

end Sys2Proof
end

