-- ==== Sys2Proof/Syntax.lean ====
section
/-!
DEFINITION. The 22 commands of the VIC block (30_encoding R112), one constructor per row of spec/opcode_table.json, each
with the operands the command uses, whole unsigned 32-bit words (R113). A field a command does not use is no part of it
(R111).
-/
namespace Sys2Proof

/-- A command. The operand names are those of 30_encoding R112. -/
inductive Instr where
  | relocate
  | setMode (mode : Word)
  | init
  | registerNv (line routine : Word)
  | enable (line : Word)
  | disable (line : Word)
  | disableAll
  | isEnabled (line : Word)
  | getType (line : Word)
  | setType (line kind : Word)
  | registerVec (line routine : Word)
  | unregisterVec (line : Word)
  | enableVec (line : Word)
  | disableVec (line : Word)
  | disableAllVec
  | unregisterAllVec
  | setDefaultVec (routine : Word)
  | swiTrigger
  | swiClear
  | dispatch
  | regRead (offset : Word)
  | regWrite (offset value : Word)
  deriving DecidableEq, Repr

end Sys2Proof
end

