-- ==== Sys2Proof/Decode.lean ====
section
/-!
DEFINITION. The decoder of `CMD72` command words, total on all 72-bit words and rejecting the reserved opcodes by name
(30_encoding R110 to R117), and the encoder written from the same table (R110, R112, R118).
-/
namespace Sys2Proof

/-- Why a command word spells no command: `OP` in `0x16` to `0xFF` (30_encoding R117). -/
inductive DecodeError where
  | illegalOpcode (op : BitVec 8)
  deriving DecidableEq, Repr

/-- `OP`, bits [71:64] (30_encoding R110). -/
def opField (cw : CommandWord) : BitVec 8 := cw.extractLsb' 64 8

/-- `A`, bits [63:32] (30_encoding R110). -/
def aField (cw : CommandWord) : Word := cw.extractLsb' 32 32

/-- `B`, bits [31:0] (30_encoding R110). -/
def bField (cw : CommandWord) : Word := cw.extractLsb' 0 32

/-- The command of an opcode with operands `a` and `b` (30_encoding R112); unused operands are dropped (R111). -/
def decodeFields (op : BitVec 8) (a b : Word) : Except DecodeError Instr :=
  match op.toNat with
  | 0x00 => .ok .relocate
  | 0x01 => .ok (.setMode a)
  | 0x02 => .ok .init
  | 0x03 => .ok (.registerNv a b)
  | 0x04 => .ok (.enable a)
  | 0x05 => .ok (.disable a)
  | 0x06 => .ok .disableAll
  | 0x07 => .ok (.isEnabled a)
  | 0x08 => .ok (.getType a)
  | 0x09 => .ok (.setType a b)
  | 0x0A => .ok (.registerVec a b)
  | 0x0B => .ok (.unregisterVec a)
  | 0x0C => .ok (.enableVec a)
  | 0x0D => .ok (.disableVec a)
  | 0x0E => .ok .disableAllVec
  | 0x0F => .ok .unregisterAllVec
  | 0x10 => .ok (.setDefaultVec b)
  | 0x11 => .ok .swiTrigger
  | 0x12 => .ok .swiClear
  | 0x13 => .ok .dispatch
  | 0x14 => .ok (.regRead a)
  | 0x15 => .ok (.regWrite a b)
  | _    => .error (.illegalOpcode op)

/-- The command a word spells, "selected by `OP` alone" (30_encoding R110, R111), or why it spells none (R117). -/
def decode (cw : CommandWord) : Except DecodeError Instr :=
  decodeFields (opField cw) (aField cw) (bField cw)

/-- The opcode of a command (30_encoding R112). -/
def Instr.opcode : Instr → BitVec 8
  | .relocate         => 0x00#8
  | .setMode _        => 0x01#8
  | .init             => 0x02#8
  | .registerNv _ _   => 0x03#8
  | .enable _         => 0x04#8
  | .disable _        => 0x05#8
  | .disableAll       => 0x06#8
  | .isEnabled _      => 0x07#8
  | .getType _        => 0x08#8
  | .setType _ _      => 0x09#8
  | .registerVec _ _  => 0x0A#8
  | .unregisterVec _  => 0x0B#8
  | .enableVec _      => 0x0C#8
  | .disableVec _     => 0x0D#8
  | .disableAllVec    => 0x0E#8
  | .unregisterAllVec => 0x0F#8
  | .setDefaultVec _  => 0x10#8
  | .swiTrigger       => 0x11#8
  | .swiClear         => 0x12#8
  | .dispatch         => 0x13#8
  | .regRead _        => 0x14#8
  | .regWrite _ _     => 0x15#8

/-- The `A` field of a command; 0 where the command does not use it (30_encoding R112, R118). -/
def Instr.operandA : Instr → Word
  | .relocate         => 0#32
  | .setMode a        => a
  | .init             => 0#32
  | .registerNv l _   => l
  | .enable l         => l
  | .disable l        => l
  | .disableAll       => 0#32
  | .isEnabled l      => l
  | .getType l        => l
  | .setType l _      => l
  | .registerVec l _  => l
  | .unregisterVec l  => l
  | .enableVec l      => l
  | .disableVec l     => l
  | .disableAllVec    => 0#32
  | .unregisterAllVec => 0#32
  | .setDefaultVec _  => 0#32
  | .swiTrigger       => 0#32
  | .swiClear         => 0#32
  | .dispatch         => 0#32
  | .regRead off      => off
  | .regWrite off _   => off

/-- The `B` field of a command; 0 where the command does not use it (30_encoding R112, R118). -/
def Instr.operandB : Instr → Word
  | .relocate         => 0#32
  | .setMode _        => 0#32
  | .init             => 0#32
  | .registerNv _ r   => r
  | .enable _         => 0#32
  | .disable _        => 0#32
  | .disableAll       => 0#32
  | .isEnabled _      => 0#32
  | .getType _        => 0#32
  | .setType _ t      => t
  | .registerVec _ r  => r
  | .unregisterVec _  => 0#32
  | .enableVec _      => 0#32
  | .disableVec _     => 0#32
  | .disableAllVec    => 0#32
  | .unregisterAllVec => 0#32
  | .setDefaultVec r  => r
  | .swiTrigger       => 0#32
  | .swiClear         => 0#32
  | .dispatch         => 0#32
  | .regRead _        => 0#32
  | .regWrite _ v     => v

/-- The command uses its `A` field (30_encoding R112). -/
def Instr.usesA : Instr → Bool
  | .relocate         => false
  | .setMode _        => true
  | .init             => false
  | .registerNv _ _   => true
  | .enable _         => true
  | .disable _        => true
  | .disableAll       => false
  | .isEnabled _      => true
  | .getType _        => true
  | .setType _ _      => true
  | .registerVec _ _  => true
  | .unregisterVec _  => true
  | .enableVec _      => true
  | .disableVec _     => true
  | .disableAllVec    => false
  | .unregisterAllVec => false
  | .setDefaultVec _  => false
  | .swiTrigger       => false
  | .swiClear         => false
  | .dispatch         => false
  | .regRead _        => true
  | .regWrite _ _     => true

/-- The command uses its `B` field (30_encoding R112). -/
def Instr.usesB : Instr → Bool
  | .relocate         => false
  | .setMode _        => false
  | .init             => false
  | .registerNv _ _   => true
  | .enable _         => false
  | .disable _        => false
  | .disableAll       => false
  | .isEnabled _      => false
  | .getType _        => false
  | .setType _ _      => true
  | .registerVec _ _  => true
  | .unregisterVec _  => false
  | .enableVec _      => false
  | .disableVec _     => false
  | .disableAllVec    => false
  | .unregisterAllVec => false
  | .setDefaultVec _  => true
  | .swiTrigger       => false
  | .swiClear         => false
  | .dispatch         => false
  | .regRead _        => false
  | .regWrite _ _     => true

/-- `CW = OP << 64 | A << 32 | B` (30_encoding R110). -/
def packFields (op : BitVec 8) (a b : Word) : CommandWord := op ++ a ++ b

/-- The command word of a command, its unused fields 0 (30_encoding R110, R118). -/
def encode (i : Instr) : CommandWord := packFields i.opcode i.operandA i.operandB

/-- A command word numbered as spec/opcode_table.json numbers it: bit 0 of `w` is bit 0 of `CW`; the bits at `nbits` and
above are 0. -/
def tableWord (nbits w : Nat) : CommandWord := BitVec.ofNat 72 (w % 2 ^ nbits)

/-- The command the decoder reads from such a word; none where it refuses. -/
def decodeTableWord (nbits w : Nat) : Option Instr :=
  match decode (tableWord nbits w) with
  | .ok i    => some i
  | .error _ => none

end Sys2Proof
end

