-- ==== Sys2Proof/Config.lean ====
section
/-!
DEFINITION. What an implementation of the VIC block fixes (the parameters of 00_scope R5, the register offsets of
10_state R24), and the free values: opaque constants without a body, of which nothing can be proved but their type.
-/
namespace Sys2Proof

/-- The registers of the register file, by the names of 10_state R24. -/
inductive Reg where
  | irqStatus
  | fiqStatus
  | rawIntr
  | intSelect
  | intEnable
  | intEnClear
  | softInt
  | softIntClear
  | protection
  /-- `VECTADDR`, the current-vector-address register (R34). -/
  | vectAddr
  | defVectAddr
  /-- `VECTADDRn[s]`, the service-routine address of slot `s` (R36). -/
  | vectAddrN (s : Slot)
  /-- `VECTCNTLn[s]`, the vector-control register of slot `s` (R37). -/
  | vectCntlN (s : Slot)
  deriving DecidableEq, Repr

/-- The table of byte offsets `OFF_<NAME>` from `VIC_BASE`, every one an OPEN parameter (10_state R24). -/
structure RegMap where
  irqStatus    : Word
  fiqStatus    : Word
  rawIntr      : Word
  intSelect    : Word
  intEnable    : Word
  intEnClear   : Word
  softInt      : Word
  softIntClear : Word
  protection   : Word
  vectAddr     : Word
  defVectAddr  : Word
  vectAddrN    : Vector Word 16
  vectCntlN    : Vector Word 16
  deriving DecidableEq, Repr, Inhabited

/-- The OPEN parameters of the block (00_scope R5). They are configuration, not state: "Lifetime: read once at boot; no
further mutation" (10_state R20, R43). -/
structure Params where
  /-- `DUMMY_ADDR`, the address of the dummy routine; any non-zero word. -/
  dummyAddr   : Word
  /-- `VIC_BASE`, the byte address of the register block. -/
  vicBase     : Word
  /-- `OFF_*`, the register offsets. -/
  offsets     : RegMap
  /-- `SWI_LINE`, the one reserved software-triggerable line. -/
  swiLine     : Line
  /-- `EOI_SENTINEL`, written to `VECTADDR` at the end of a vectored `DISPATCH`. -/
  eoiSentinel : Word
  /-- `DST_START`, the relocator's fixed destination base. -/
  dstStart    : Word
  /-- `SRC_A`, one boundary of the source block, in either order. -/
  srcA        : Word
  /-- `SRC_B`, the other boundary. -/
  srcB        : Word
  deriving DecidableEq, Repr, Inhabited

/-- The state that is "any value, drawn once at reset, then held" (10_state R48, R49; 93 U8), with the request inputs,
which are "whatever the sources drive". -/
structure ResetDraw where
  rawsrc      : Word
  intSelect   : Word
  intEnable   : Word
  softInt     : Word
  protection  : BitVec 1
  defVectAddr : Word
  vectAddr    : Vector Word 16
  vectCntl    : Vector (BitVec 6) 16
  slotLine    : Vector (Option Line) 16
  deriving DecidableEq, Repr, Inhabited

namespace Config

/-- Free value: what reset leaves in the state 10_state R48 calls unspecified. DESIGN CHOICE (log 6): one unnamed value
for every run. R49: "any claim must hold for every value. It must not choose zero." -/
opaque resetDraw : ResetDraw

/-- Free value: the `n`-th unspecified word drawn by a read of a write-only register (10_state R30, R32; 93 U3; log 10). -/
opaque unspecifiedRead : Nat → Word

/-- Free value behind `DUMMY_ADDR` of the reset state's configuration, which 00_scope R5 leaves without a default. -/
opaque dummyDraw : Word

/-- Free value: the word number of `SRC_A` in the reset state's configuration; `SRC_A` is "OPEN, word-aligned, no default"
(00_scope R5; log 5). -/
opaque srcAWord : BitVec 30

/-- Free value: the word number of `SRC_B` in the reset state's configuration (00_scope R5; log 5). -/
opaque srcBWord : BitVec 30

end Config
end Sys2Proof
end

