-- ==== Sys2Proof/Machine/Params.lean ====
section
/-!
DEFINITION. The fixed numbers of 00_scope R5, the default register map of 10_state R24, the lookup of a register by its
byte offset (45_regfile_access R231, R233), and the configuration the reset state carries.
-/
namespace Sys2Proof.Machine

/-- `FAIL`, the sentinel failure value of a response (00_scope R5, 30_encoding R116). -/
def failWord : Word := 0xFFFFFFFF#32

/-- `MAX_ADDRESS`, the top of the addressable range (00_scope R5). -/
def maxAddress : Word := 0xFFFFFFFF#32

/-- `ENABLE_BIT`, bit 5 of a vector-control register (00_scope R5, 10_state R37). -/
def enableBit : Word := 0x20#32

/-- The VIC register block is the byte range `[VIC_BASE, VIC_BASE + 0x240)` (20_memory R82, 40_relocator R151 (b)). -/
def vicBlockBytes : Nat := 0x240

/-- All 16 slots in ascending order, the order of every scan (43_vector_slots R190). -/
def allSlots : List Slot := List.finRange 16

/-- All 32 lines in ascending order (44_dispatch R212). -/
def allLines : List Line := List.finRange 32

/-- The registers of the register file, in the order of the table of 10_state R24. -/
def allRegs : List Reg :=
  [.irqStatus, .fiqStatus, .rawIntr, .intSelect, .intEnable, .intEnClear, .softInt, .softIntClear, .protection,
    .vectAddr, .defVectAddr] ++ allSlots.map .vectAddrN ++ allSlots.map .vectCntlN

/-- The byte offset an offset table gives a register. -/
def offsetOf (m : RegMap) : Reg → Word
  | .irqStatus    => m.irqStatus
  | .fiqStatus    => m.fiqStatus
  | .rawIntr      => m.rawIntr
  | .intSelect    => m.intSelect
  | .intEnable    => m.intEnable
  | .intEnClear   => m.intEnClear
  | .softInt      => m.softInt
  | .softIntClear => m.softIntClear
  | .protection   => m.protection
  | .vectAddr     => m.vectAddr
  | .defVectAddr  => m.defVectAddr
  | .vectAddrN s  => m.vectAddrN[s]
  | .vectCntlN s  => m.vectCntlN[s]

/-- The register at a byte offset, if one is mapped there (45_regfile_access R231). Were a table to give two registers
one offset, the one earlier in R24's order answers: DESIGN CHOICE (log 15). -/
def registerAt (m : RegMap) (off : Word) : Option Reg :=
  allRegs.find? (fun r => offsetOf m r == off)

/-- An offset table as 10_state R24 has them: word-aligned offsets, no two registers at one offset. -/
def properMap (m : RegMap) : Bool :=
  allRegs.all (fun r => (offsetOf m r).extractLsb' 0 2 == 0#2) &&
    allRegs.all (fun r => registerAt m (offsetOf m r) == some r)

/-- The default offsets of 10_state R24, the spec's own choice of defaults. -/
def defaultRegMap : RegMap where
  irqStatus    := 0x000#32
  fiqStatus    := 0x004#32
  rawIntr      := 0x008#32
  intSelect    := 0x00C#32
  intEnable    := 0x010#32
  intEnClear   := 0x014#32
  softInt      := 0x018#32
  softIntClear := 0x01C#32
  protection   := 0x020#32
  vectAddr     := 0x030#32
  defVectAddr  := 0x034#32
  vectAddrN    := Vector.ofFn (fun s : Slot => BitVec.ofNat 32 (0x100 + 4 * s.val))
  vectCntlN    := Vector.ofFn (fun s : Slot => BitVec.ofNat 32 (0x200 + 4 * s.val))

/-- `DUMMY_ADDR` of the reset state's configuration: "any non-zero 32-bit value; no default" (00_scope R5), so a free
value that ranges over the non-zero words (log 5). -/
def resetDummyAddr : Word :=
  if Config.dummyDraw = 0#32 then 1#32 else Config.dummyDraw

/-- The configuration of the reset state: the defaults of 00_scope R5 where it gives one, free values where it says "no
default" (`DUMMY_ADDR`, `SRC_A`, `SRC_B`). DESIGN CHOICE (log 5): one configuration for `State.reset`; every meaning reads
the configuration from the state, so claims about a state hold for every configuration. -/
def resetParams : Params where
  dummyAddr   := resetDummyAddr
  vicBase     := 0x10140000#32
  offsets     := defaultRegMap
  swiLine     := 1
  eoiSentinel := 0xFFFFFFFF#32
  dstStart    := 0x00000000#32
  srcA        := Config.srcAWord ++ 0#2
  srcB        := Config.srcBWord ++ 0#2

end Sys2Proof.Machine
end

