-- ==== Sys2Proof/Machine/State.lean ====
section
/-!
DEFINITION. The state of the VIC block as plain data (10_state R20 to R44), the reasons a step can stop (60_exceptions R242),
and the state after reset (10_state R48).
-/
namespace Sys2Proof.Machine

/-- The dispatch mode, two states and no other (10_state R42, 41_mode_and_init R160). -/
inductive Mode where
  | nonVectored
  | vectored
  deriving DecidableEq, Repr

/-- `reloc_state` with the word index `k` of the copying states (10_state R43); transient, `idle` outside `RELOCATE`: it shows in
the states between two accesses of a `RELOCATE` that is run access by access (log 13). -/
inductive RelocState where
  | idle
  | check
  | copyFwd (k : Nat)
  | copyBwd (k : Nat)
  deriving DecidableEq, Repr

/-- Where a `DISPATCH` in progress stands (10_state R44): none, at the `Invoke` for line `i` of the snapshot `snap`, or at
the one `Invoke` of a vectored `DISPATCH`. -/
inductive DispatchState where
  | idle
  | nonVectored (snap : Word) (i : Line)
  | vectored
  deriving DecidableEq, Repr

/-- What is observed of the block (00_scope R14): register accesses (R9), memory accesses (R10), the call and the return of
an `Invoke` (R12), responses (R11). The outputs `irq_out` and `fiq_out` are functions of the state (10_state R39). -/
inductive Event where
  | regRead (r : Reg) (v : Word)
  | regWrite (r : Reg) (v : Word)
  | memRead (a v : Word)
  | memWrite (a v : Word)
  | call (a : Word)
  | ret
  | response (v : Word)
  deriving DecidableEq, Repr

/-- A move of the environment (00_scope R15): the commander presents a command word, to be run whole (`present`) or access
by access (`start`, then one `proceed` for each further access, with changes of `RAWSRC` where the environment puts them,
20_memory R90; log 3); the sources drive `RAWSRC`; or a service routine returns (44_dispatch R216). -/
inductive Move where
  | present (cw : CommandWord)
  | start (cw : CommandWord)
  | proceed
  | sources (v : Word)
  | routineReturn
  deriving DecidableEq, Repr

/-- A command in progress that is run access by access (00_scope R15, 20_memory R90): the accesses still to come, its response
the last of them, and what it leaves where no access and no output can see it before it is over: the two tables, the
mode and the relocator's bits (log 3). -/
structure CommandJob where
  /-- The accesses still to come, in the order of the command's pseudocode, then the response. -/
  todo       : List Event
  /-- `nv_table` at the end of the command. -/
  nvTable    : Vector Word 32
  /-- `slot_line` at the end of the command. -/
  slotLine   : Vector (Option Line) 16
  /-- `mode` at the end of the command. -/
  mode       : Mode
  /-- `reloc_state` at the end of the command. -/
  relocState : RelocState
  /-- `reloc_done` at the end of the command. -/
  relocDone  : Bool
  deriving DecidableEq, Repr

/-- The whole state of the block, with the configuration it runs under, the observations made so far and the
environment's pending moves (INVENTORY.md, "State"). -/
structure State where
  /-- The OPEN parameters (00_scope R5); configuration, changed by no step (log 5). -/
  params      : Params
  /-- `RAWSRC`, the 32 request inputs (10_state R21). -/
  rawsrc      : Word
  /-- `INTSELECT` (R28). -/
  intSelect   : Word
  /-- `INTENABLE` (R29). -/
  intEnable   : Word
  /-- `SOFTINT` (R31). -/
  softInt     : Word
  /-- `PROTECTION[0]` (R33). -/
  protection  : BitVec 1
  /-- `DEFVECTADDR` (R35). -/
  defVectAddr : Word
  /-- `VECTADDRn[0..15]` (R36). -/
  vectAddr    : Vector Word 16
  /-- `VECTCNTLn[0..15]`, the six stored bits (R37). -/
  vectCntl    : Vector (BitVec 6) 16
  /-- `in_service`, the hidden bit of the priority hardware (R38). -/
  inService   : Bool
  /-- `nv_table[0..31]` (R40). -/
  nvTable     : Vector Word 32
  /-- `slot_line[0..15]`: `NONE` or a line (R41). -/
  slotLine    : Vector (Option Line) 16
  /-- `mode` (R42). -/
  mode        : Mode
  /-- `reloc_done` (R43). -/
  relocDone   : Bool
  /-- `reloc_state` and `k` (R43). -/
  relocState  : RelocState
  /-- `snap`, `i` and the position in a vectored `DISPATCH` (R44). -/
  dispatch    : DispatchState
  /-- The command in progress that is run access by access, if there is one (20_memory R90; log 3). -/
  job         : Option CommandJob
  /-- System memory, byte by byte (20_memory R81), in the canonical form of `Memory.wf`. -/
  mem         : List Host.Cell
  /-- `RESP`, the response word last returned (00_scope R11). -/
  resp        : Word
  /-- The observations so far, oldest first (00_scope R14; log 20). -/
  trace       : List Event
  /-- The environment's pending moves, oldest first (log 1). -/
  moves       : List Move
  /-- How many unspecified values have been drawn (log 10). -/
  draws       : Nat
  deriving DecidableEq, Repr

/-- The model-level faults, one for one those of 60_exceptions R242. Each stops the machine where the source forbids the
use or gives no behaviour, so each is SAFE: nothing is claimed of a run that meets one (70_reset_and_hazards R289). -/
inductive Fault where
  /-- `fault(relocate_twice)`: raised by `RELOCATE` when `reloc_done = 1` (R150). Safe. -/
  | relocateTwice
  /-- `fault(relocate_in_handler)`: raised by `RELOCATE` when `disp_busy = 1` (R217). Safe. -/
  | relocateInHandler
  /-- `fault(reloc_misaligned)`: raised by `RELOCATE` when a boundary address is no multiple of 4 (R151). Safe. -/
  | relocMisaligned
  /-- `fault(reloc_hits_vic)`: raised by `RELOCATE` when a copied range meets the register block (R151). Safe. -/
  | relocHitsVic
  /-- `fault(dispatch_reentered)`: raised by `DISPATCH` when `disp_busy = 1` (R217). Safe. -/
  | dispatchReentered
  /-- `fault(vectaddr_read_twice)`: raised by any read of `VECTADDR` when `in_service = 1` (R34, R38). Safe. -/
  | vectaddrReadTwice
  /-- `fault(reg_misaligned)`: raised by `REG_READ` and `REG_WRITE` on an offset that is no multiple of 4 (R233). Safe. -/
  | regMisaligned
  /-- `fault(reg_reserved)`: raised by `REG_READ` and `REG_WRITE` on an offset not in the register map (R233). Safe. -/
  | regReserved
  deriving DecidableEq, Repr

/-- The refusals. -/
inductive Refusal where
  /-- Raised by `exec` for an instruction without a meaning; in this model no arm raises it. Safe. -/
  | notModelled (mnemonic : String)
  /-- `refuse(illegal_opcode)`: raised by `step` for a command word with `OP >= 0x16` (30_encoding R117). Safe. -/
  | illegalOpcode (op : BitVec 8)
  /-- Raised by `step` for a return presented with no `Invoke` outstanding, a move the environment of 44_dispatch R216
  does not have (log 11). Safe. -/
  | returnWithoutInvoke
  /-- Raised by `step` for a command or a return presented while a command is between two of its accesses: the block
  executes one command at a time (00_scope R15; log 1). Safe. -/
  | commandInProgress
  /-- Raised by `step` for the next access of a command when none is in progress, which is no move of the environment
  (log 1). Safe. -/
  | nothingInProgress
  deriving DecidableEq, Repr

/-- The three outcomes of a step or a meaning. -/
abbrev Result := Host.Outcome State Fault Refusal

/-- The state right after reset (10_state R48), under a configuration `p` and with `d` in the state that R48 leaves
unspecified. -/
def State.resetWith (p : Params) (d : ResetDraw) : State where
  params      := p
  rawsrc      := d.rawsrc
  intSelect   := d.intSelect
  intEnable   := d.intEnable
  softInt     := d.softInt
  protection  := d.protection
  defVectAddr := d.defVectAddr
  vectAddr    := d.vectAddr
  vectCntl    := d.vectCntl
  inService   := false
  nvTable     := Vector.replicate 32 p.dummyAddr
  slotLine    := d.slotLine
  mode        := .nonVectored
  relocDone   := false
  relocState  := .idle
  dispatch    := .idle
  job         := none
  mem         := []
  resp        := 0#32
  trace       := []
  moves       := []
  draws       := 0

/-- The machine right after reset: 10_state R48 with the configuration `resetParams` (log 5) and the free values
`Config.resetDraw` (log 6); nothing observed, no move pending (log 7). -/
def State.reset : State := State.resetWith resetParams Config.resetDraw

end Sys2Proof.Machine
end

