-- ==== Sys2Proof/Machine/Operands.lean ====
section
/-!
DEFINITION. The operand forms of the commands (30_encoding R113 to R116): the line operand, the null routine, the mode and
type operands, the offset, and how results are put into a response word.
-/
namespace Sys2Proof.Machine

/-- The line an operand names: the unsigned 32-bit number is tested with `A >= 32` before any use and "never truncated to
5 bits first" (30_encoding R114). -/
def lineOf (a : Word) : Option Line :=
  if h : a.toNat < 32 then some ⟨a.toNat, h⟩ else none

/-- `bit(i) = 1 << i` (00_scope R6). -/
def lineBit (l : Line) : Word := 1#32 <<< l.val

/-- The line as a word, `zext_32(line)` (00_scope R7). -/
def lineWord (l : Line) : Word := BitVec.ofNat 32 l.val

/-- A slot index as a response word, `zext_32(t)` (30_encoding R116). -/
def slotWord (t : Slot) : Word := BitVec.ofNat 32 t.val

/-- A boolean or a type as a response word: 0 or 1 (30_encoding R116). -/
def bitWord (b : Bool) : Word := if b then 1#32 else 0#32

/-- A null or absent routine: the operand 0 (30_encoding R115). -/
def isNull (b : Word) : Bool := decide (b = 0#32)

/-- The mode an operand names: 0 `NonVectored`, 1 `Vectored`, none for anything else (41_mode_and_init R161). -/
def modeOf (a : Word) : Option Mode :=
  if a = 0#32 then some .nonVectored
  else if a = 1#32 then some .vectored
  else none

/-- The type an operand names: 0 IRQ (`false`), 1 FIQ (`true`), none for anything else (42_line_control R177). -/
def kindOf (b : Word) : Option Bool :=
  if b = 0#32 then some false
  else if b = 1#32 then some true
  else none

/-- The two low bits of an address or offset are not both 0: it is no multiple of 4 (20_memory R86). -/
def misaligned (a : Word) : Bool := decide (a.extractLsb' 0 2 ≠ 0#2)

end Sys2Proof.Machine
end

