-- ==== Sys2Proof/Machine/Flags.lean ====
section
/-!
DEFINITION. The flags of the block. It has no condition codes (10_state R45): its flags are the bits of the status words, computed
from the requests, the enables and the type selection (R25 to R27), the two request outputs (R39), the enable flag and
line field of a vector-control register (R37), and the multiplexer `CurVect` that reads them (R34).
-/
namespace Sys2Proof.Machine

/-- `RAWINTR = RAWSRC | SOFTINT` (10_state R27). -/
def State.rawIntr (s : State) : Word := s.rawsrc ||| s.softInt

/-- `IRQSTATUS = (RAWSRC | SOFTINT) & INTENABLE & ~INTSELECT` (10_state R25). -/
def State.irqStatus (s : State) : Word := s.rawIntr &&& s.intEnable &&& ~~~s.intSelect

/-- `FIQSTATUS = (RAWSRC | SOFTINT) & INTENABLE & INTSELECT` (10_state R26). -/
def State.fiqStatus (s : State) : Word := s.rawIntr &&& s.intEnable &&& s.intSelect

/-- `irq_out = 1` exactly when `IRQSTATUS` is non-zero (10_state R39). -/
def State.irqOut (s : State) : Bool := decide (s.irqStatus ≠ 0#32)

/-- `fiq_out = 1` exactly when `FIQSTATUS` is non-zero (10_state R39). -/
def State.fiqOut (s : State) : Bool := decide (s.fiqStatus ≠ 0#32)

/-- `disp_busy`: 1 from the start of a `DISPATCH` to its end (10_state R44). -/
def State.dispBusy (s : State) : Bool := decide (s.dispatch ≠ .idle)

/-- The `E` flag of a vector-control register, bit 5 (10_state R37). -/
def cntlEnabled (c : BitVec 6) : Bool := c.getLsbD 5

/-- The `SRC` field of a vector-control register, bits [4:0] (10_state R37). -/
def cntlSource (c : BitVec 6) : Line := (c.extractLsb' 0 5).toFin

/-- Slot `k` takes part in the multiplexer and its line is pending: `VECTCNTLn[k][5] = 1` and `irq[VECTCNTLn[k][4:0]] = 1`
(10_state R34). -/
def State.slotMatches (s : State) (k : Slot) : Bool :=
  cntlEnabled s.vectCntl[k] && s.irqStatus.getLsbD (cntlSource s.vectCntl[k]).val

/-- `CurVect()`, the output of the dispatch multiplexer: the address of the lowest-numbered matching slot, else the default
vector address (10_state R34). -/
def State.curVect (s : State) : Word :=
  match allSlots.find? s.slotMatches with
  | some k => s.vectAddr[k]
  | none   => s.defVectAddr

/-- The lowest line at or above `start` whose bit is 1 in a status snapshot: the next one a non-vectored `DISPATCH` services
(44_dispatch R212). -/
def nextLine (snap : Word) (start : Nat) : Option Line :=
  allLines.find? (fun i => decide (start ≤ i.val) && snap.getLsbD i.val)

end Sys2Proof.Machine
end

