-- ==== Sys2Proof/Machine/Memory.lean ====
section
/-!
DEFINITION. System memory (20_memory R80, R81, R85): a total map from the 2^32 byte addresses to bytes, held as a sorted list
of the cells that differ from what an unlisted address reads as, and its aligned little-endian words.
-/
namespace Sys2Proof.Machine

/-- What an address that is not listed reads as. DESIGN CHOICE (log 8): the spec gives memory no reset contents; memory is
total (20_memory R81), so an unlisted byte has a value, and that value is 0. -/
def Memory.blank : Byte := 0#8

/-- The number of byte addresses (20_memory R81). -/
def Memory.size : Nat := 2 ^ 32

/-- The canonical form of a memory: addresses strictly rising and inside the address space, no cell equal to what an
unlisted address reads as. Equal memories are then equal lists. -/
abbrev Memory.wf (m : List Host.Cell) : Prop :=
  m.Pairwise (fun c d => c.1 < d.1) ∧ ∀ c ∈ m, c.2 ≠ Memory.blank ∧ c.1 < Memory.size

/-- The byte at an address. -/
def Memory.read : List Host.Cell → Nat → Byte
  | [], _ => Memory.blank
  | (x, y) :: rest, a => if x = a then y else Memory.read rest a

/-- Store a byte, keeping the canonical form: storing what an unlisted address reads as removes the entry. -/
def Memory.write : List Host.Cell → Nat → Byte → List Host.Cell
  | [], a, b => if b = Memory.blank then [] else [(a, b)]
  | (x, y) :: rest, a, b =>
    if x < a then (x, y) :: Memory.write rest a b
    else if x = a then (if b = Memory.blank then rest else (a, b) :: rest)
    else if b = Memory.blank then (x, y) :: rest
    else (a, b) :: (x, y) :: rest

/-- The word at a byte address: `byte[a] | byte[a+1] << 8 | byte[a+2] << 16 | byte[a+3] << 24` (20_memory R85). -/
def Memory.readWord (m : List Host.Cell) (a : Nat) : Word :=
  Memory.read m (a + 3) ++ Memory.read m (a + 2) ++ Memory.read m (a + 1) ++ Memory.read m a

/-- Store a word at a byte address, little-endian (20_memory R85). -/
def Memory.writeWord (m : List Host.Cell) (a : Nat) (v : Word) : List Host.Cell :=
  Memory.write
    (Memory.write
      (Memory.write
        (Memory.write m a (v.extractLsb' 0 8))
        (a + 1) (v.extractLsb' 8 8))
      (a + 2) (v.extractLsb' 16 8))
    (a + 3) (v.extractLsb' 24 8)

/-- The byte of system memory at an address of a state. -/
def State.byteAt (s : State) (a : Nat) : Byte := Memory.read s.mem a

/-- The word of system memory at an address of a state. -/
def State.wordAt (s : State) (a : Nat) : Word := Memory.readWord s.mem a

end Sys2Proof.Machine
end

