-- ==== Sys2Proof/Machine/Ops.lean ====
section
/-!
DEFINITION. The named operations of the block over its registers, its memory port and its call port: `RegRead` and `RegWrite`
(00_scope R9, 10_state R23 to R38), `MemRead` and `MemWrite` (R10), `RESP` (R11), and what stands in this block for taking an
exception and returning from one: the entry to a service routine by `Invoke` and the completion of a `DISPATCH` (R12,
44_dispatch R216, 60_exceptions R240, R250, R251).
-/
namespace Sys2Proof.Machine

/-- Append one observation (00_scope R14). -/
def State.observe (s : State) (e : Event) : State := { s with trace := s.trace ++ [e] }

/-- `RESP <- v`: the command is over and its response is returned (00_scope R11, 30_encoding R116). -/
def State.respond (s : State) (v : Word) : State := { s.observe (.response v) with resp := v }

/-- The value a read of a register returns, its rule by rule: 10_state R25 to R37. A read of a write-only register returns
an unspecified word, the free value numbered by `draws` (R30, R32; log 10). -/
def State.readValue (s : State) : Reg → Word
  | .irqStatus    => s.irqStatus
  | .fiqStatus    => s.fiqStatus
  | .rawIntr      => s.rawIntr
  | .intSelect    => s.intSelect
  | .intEnable    => s.intEnable
  | .intEnClear   => Config.unspecifiedRead s.draws
  | .softInt      => s.softInt
  | .softIntClear => Config.unspecifiedRead s.draws
  | .protection   => s.protection.setWidth 32
  | .vectAddr     => s.curVect
  | .defVectAddr  => s.defVectAddr
  | .vectAddrN k  => s.vectAddr[k]
  | .vectCntlN k  => (s.vectCntl[k]).setWidth 32

/-- What a read of a register changes in the block: a read of `VECTADDR` sets `in_service` (10_state R34); no other read has
a side effect (20_memory R87). The model counts the unspecified values it hands out (log 10). -/
def State.readEffect (s : State) : Reg → State
  | .vectAddr     => { s with inService := true }
  | .intEnClear   => { s with draws := s.draws + 1 }
  | .softIntClear => { s with draws := s.draws + 1 }
  | .irqStatus    => s
  | .fiqStatus    => s
  | .rawIntr      => s
  | .intSelect    => s
  | .intEnable    => s
  | .softInt      => s
  | .protection   => s
  | .defVectAddr  => s
  | .vectAddrN _  => s
  | .vectCntlN _  => s

/-- The state after a read of a register: its side effect, and the access on the register trace (00_scope R9). -/
def State.afterRead (s : State) (r : Reg) : State := (s.readEffect r).observe (.regRead r (s.readValue r))

/-- `RegRead`: the value and the state after it; a read of `VECTADDR` while `in_service = 1` is
`fault(vectaddr_read_twice)` (10_state R34, R38). -/
def State.regRead (s : State) (r : Reg) : Except Fault (Word × State) :=
  if r = .vectAddr ∧ s.inService = true then .error .vectaddrReadTwice
  else .ok (s.readValue r, s.afterRead r)

/-- What a write of a register changes, by access kind (10_state R23): the read-only registers ignore it, `INTENABLE` and
`SOFTINT` are write-one-to-set, the clear registers write-one-to-clear in their partner, `VECTADDR` ends the handshake and
drops the word, the others store their implemented bits (45_regfile_access R232). -/
def State.writeEffect (s : State) (r : Reg) (v : Word) : State :=
  match r with
  | .irqStatus    => s
  | .fiqStatus    => s
  | .rawIntr      => s
  | .intSelect    => { s with intSelect := v }
  | .intEnable    => { s with intEnable := s.intEnable ||| v }
  | .intEnClear   => { s with intEnable := s.intEnable &&& ~~~v }
  | .softInt      => { s with softInt := s.softInt ||| v }
  | .softIntClear => { s with softInt := s.softInt &&& ~~~v }
  | .protection   => { s with protection := v.extractLsb' 0 1 }
  | .vectAddr     => { s with inService := false }
  | .defVectAddr  => { s with defVectAddr := v }
  | .vectAddrN k  => { s with vectAddr := s.vectAddr.set k v }
  | .vectCntlN k  => { s with vectCntl := s.vectCntl.set k (v.extractLsb' 0 6) }

/-- `RegWrite`: the effect, and the access on the register trace (00_scope R9). -/
def State.regWrite (s : State) (r : Reg) (v : Word) : State := (s.writeEffect r v).observe (.regWrite r v)

/-- The state after `MemRead(a, 4)`, whose value is `wordAt` (00_scope R10). -/
def State.afterMemRead (s : State) (a : Word) : State := s.observe (.memRead a (s.wordAt a.toNat))

/-- `MemWrite(a, 4, v)` (00_scope R10). -/
def State.memWrite (s : State) (a v : Word) : State :=
  { s with mem := Memory.writeWord s.mem a.toNat v }.observe (.memWrite a v)

/-- Entry to a service routine: `Invoke(a)` emits the call and the block waits at `d` for the return (00_scope R12,
44_dispatch R216 (1)). "The block saves nothing and changes no mode on entry" but `disp_busy` (60_exceptions R250). -/
def State.invoke (s : State) (a : Word) (d : DispatchState) : State := { s.observe (.call a) with dispatch := d }

/-- The end of a `DISPATCH`: `disp_busy <- 0`, `RESP <- 0` (44_dispatch R211, 60_exceptions R251). "The block restores
nothing, since it saved nothing." -/
def State.finishDispatch (s : State) : State := { s with dispatch := .idle }.respond 0#32

end Sys2Proof.Machine
end

