-- ==== Sys2Proof/Machine/Irq.lean ====
section
/-!
DEFINITION. `DISPATCH` and the return of a service routine (44_dispatch R210 to R221). A `DISPATCH` runs up to its first `Invoke`
as one step; each return runs it on, up to the next `Invoke` or to its end (R216; log 4).
-/
namespace Sys2Proof.Machine

/-- The scan of a non-vectored `DISPATCH` from line `start` on: the next line of the snapshot has its table entry, "read
now, not at the snapshot", invoked; with no line left the command is over (44_dispatch R212). -/
def scanFrom (snap : Word) (start : Nat) (s : State) : State :=
  match nextLine snap start with
  | some i => s.invoke s.nvTable[i] (.nonVectored snap i)
  | none   => s.finishDispatch

/-- `DispatchNV()`: exactly one read of `IRQSTATUS`, then the scan of its bits (44_dispatch R212). -/
def dispatchNonVectored (s : State) : State := scanFrom (s.readValue .irqStatus) 0 (s.afterRead .irqStatus)

/-- `DispatchVec()` up to its `Invoke`: the read of `VECTADDR` is the acknowledgment and gives the address
(44_dispatch R213). -/
def dispatchVectored (s : State) : Result :=
  match s.regRead .vectAddr with
  | .error f    => .fault f
  | .ok (a, s1) => .next (s1.invoke a .vectored)

/-- `DISPATCH` (44_dispatch R211): the mode is sampled once, at the start. -/
def execDispatch (s : State) : Result :=
  if s.dispBusy then .fault .dispatchReentered
  else match s.mode with
    | .nonVectored => .next (dispatchNonVectored s)
    | .vectored    => dispatchVectored s

/-- The environment signals `return` (44_dispatch R216 (3)) and the block continues: a non-vectored `DISPATCH` scans on
above the line just serviced (R212), a vectored one writes `EOI_SENTINEL` to `VECTADDR` and is over (R213). -/
def routineReturn (s : State) : Result :=
  match s.dispatch with
  | .idle               => .refused .returnWithoutInvoke
  | .nonVectored snap i => .next (scanFrom snap (i.val + 1) (s.observe .ret))
  | .vectored           => .next (((s.observe .ret).regWrite .vectAddr s.params.eoiSentinel).finishDispatch)

end Sys2Proof.Machine
end

