-- ==== Sys2Proof/Machine/LineControl.lean ====
section
/-!
DEFINITION. Per-line control: `REGISTER_NV`, `ENABLE`, `DISABLE`, `DISABLE_ALL`, `IS_ENABLED`, `GET_TYPE`, `SET_TYPE`,
`SWI_TRIGGER`, `SWI_CLEAR` (42_line_control R170 to R180). An out-of-range line performs no register access (R170).
-/
namespace Sys2Proof.Machine

/-- `REGISTER_NV line, routine` (42_line_control R171). -/
def execRegisterNv (line routine : Word) (s : State) : Result :=
  .next (match lineOf line with
    | some l =>
      if isNull routine then s.respond 0#32
      else { s with nvTable := s.nvTable.set l routine }.respond 0#32
    | none => s.respond 0#32)

/-- `ENABLE line` (42_line_control R172): one write of `bit(line)` to `INTENABLE`. -/
def execEnable (line : Word) (s : State) : Result :=
  .next (match lineOf line with
    | some l => (s.regWrite .intEnable (lineBit l)).respond 0#32
    | none   => s.respond 0#32)

/-- `DISABLE line` (42_line_control R173): one write of `bit(line)` to `INTENCLEAR`. -/
def execDisable (line : Word) (s : State) : Result :=
  .next (match lineOf line with
    | some l => (s.regWrite .intEnClear (lineBit l)).respond 0#32
    | none   => s.respond 0#32)

/-- `DISABLE_ALL` (42_line_control R174). -/
def execDisableAll (s : State) : Result :=
  .next ((s.regWrite .intEnClear 0xFFFFFFFF#32).respond 0#32)

/-- `IS_ENABLED line` (42_line_control R175): one read of `INTENABLE`. -/
def execIsEnabled (line : Word) (s : State) : Result :=
  .next (match lineOf line with
    | some l => (s.afterRead .intEnable).respond (bitWord ((s.readValue .intEnable).getLsbD l.val))
    | none   => s.respond 0#32)

/-- `GET_TYPE line` (42_line_control R176): one read of `INTSELECT`; out of range answers the default, IRQ. -/
def execGetType (line : Word) (s : State) : Result :=
  .next (match lineOf line with
    | some l => (s.afterRead .intSelect).respond (bitWord ((s.readValue .intSelect).getLsbD l.val))
    | none   => s.respond 0#32)

/-- The selection word with the type of one line set: FIQ sets its bit, IRQ clears it (42_line_control R177). -/
def withType (v : Word) (l : Line) (fiq : Bool) : Word :=
  if fiq then v ||| lineBit l else v &&& ~~~(lineBit l)

/-- `SET_TYPE line, t` (42_line_control R177): a read of `INTSELECT`, then a write, also when it changes nothing. -/
def execSetType (line kind : Word) (s : State) : Result :=
  .next (match lineOf line, kindOf kind with
    | some l, some fiq =>
      ((s.afterRead .intSelect).regWrite .intSelect (withType (s.readValue .intSelect) l fiq)).respond 0#32
    | some _, none => s.respond 0#32
    | none, _      => s.respond 0#32)

/-- `SWI_TRIGGER` (42_line_control R178): one write of `bit(SWI_LINE)` to `SOFTINT`. -/
def execSwiTrigger (s : State) : Result :=
  .next ((s.regWrite .softInt (lineBit s.params.swiLine)).respond 0#32)

/-- `SWI_CLEAR` (42_line_control R179): one write of `bit(SWI_LINE)` to `SOFTINTCLEAR`. -/
def execSwiClear (s : State) : Result :=
  .next ((s.regWrite .softIntClear (lineBit s.params.swiLine)).respond 0#32)

end Sys2Proof.Machine
end

