-- ==== Sys2Proof/Machine/ModeInit.lean ====
section
/-!
DEFINITION. The mode state machine and initialisation: `SET_MODE`, `INIT` (41_mode_and_init R160 to R164).
-/
namespace Sys2Proof.Machine

/-- `SET_MODE a` (41_mode_and_init R161): 0 and 1 set the mode, any other operand is a silent no-op. -/
def execSetMode (a : Word) (s : State) : Result :=
  .next (match modeOf a with
    | some m => { s with mode := m }.respond 0#32
    | none   => s.respond 0#32)

/-- One turn of `INIT`'s slot loop: `slot_line[k] <- NONE`, then the control register to 0, then the address register to
`DUMMY_ADDR` (R163). -/
def initSlot (s : State) (k : Slot) : State :=
  ({ s with slotLine := s.slotLine.set k none }.regWrite (.vectCntlN k) 0#32).regWrite (.vectAddrN k) s.params.dummyAddr

/-- One turn of `INIT`'s table loop: `nv_table[i] <- DUMMY_ADDR` (R163). -/
def initLine (s : State) (i : Line) : State := { s with nvTable := s.nvTable.set i s.params.dummyAddr }

/-- `INIT`'s four single writes, the enables and the software requests through the write-only clear registers (R163). -/
def initRegisters (s : State) : State :=
  (((s.regWrite .intSelect 0#32).regWrite .intEnClear 0xFFFFFFFF#32).regWrite .softIntClear 0xFFFFFFFF#32).regWrite
    .defVectAddr s.params.dummyAddr

/-- `INIT` (41_mode_and_init R163), in the order of its pseudocode. -/
def execInit (s : State) : Result :=
  let s1 := initRegisters s
  let s2 := allSlots.foldl initSlot s1
  let s3 := allLines.foldl initLine s2
  .next ({ s3 with mode := .nonVectored }.respond 0#32)

end Sys2Proof.Machine
end

