-- ==== Sys2Proof/Machine/RegFile.lean ====
section
/-!
DEFINITION. Direct register-file access: `REG_READ`, `REG_WRITE` (45_regfile_access R230 to R234).
-/
namespace Sys2Proof.Machine

/-- `REG_READ off` (45_regfile_access R231, R233). -/
def execRegRead (off : Word) (s : State) : Result :=
  if misaligned off then .fault .regMisaligned
  else match registerAt s.params.offsets off with
    | none   => .fault .regReserved
    | some r => match s.regRead r with
      | .error f    => .fault f
      | .ok (v, s1) => .next (s1.respond v)

/-- `REG_WRITE off, v` (45_regfile_access R232, R233). -/
def execRegWrite (off v : Word) (s : State) : Result :=
  if misaligned off then .fault .regMisaligned
  else match registerAt s.params.offsets off with
    | none   => .fault .regReserved
    | some r => .next ((s.regWrite r v).respond 0#32)

end Sys2Proof.Machine
end

