-- ==== Sys2Proof/Machine/Relocator.lean ====
section
/-!
DEFINITION. The exception-vector relocator: `RELOCATE` (40_relocator R140 to R154). The whole copy is one step (R152); inside it
the state passes through the phases of R43 and is `idle` again at the end (log 13).
-/
namespace Sys2Proof.Machine

/-- `src_begin = min(SRC_A, SRC_B)` (40_relocator R142). -/
def srcBegin (p : Params) : Word := if p.srcA.toNat ≤ p.srcB.toNat then p.srcA else p.srcB

/-- `src_end = max(SRC_A, SRC_B)` (R142). -/
def srcEnd (p : Params) : Word := if p.srcA.toNat ≤ p.srcB.toNat then p.srcB else p.srcA

/-- `len_bytes = src_end - src_begin`, which never borrows (R143). -/
def lenBytes (p : Params) : Word := srcEnd p - srcBegin p

/-- `N = len_bytes >> 2`, the number of words (R143). -/
def wordCount (p : Params) : Nat := (lenBytes p >>> 2).toNat

/-- A boundary address is no multiple of 4 (R151 (a)). -/
def relocMisaligned (p : Params) : Bool := misaligned p.srcA || misaligned p.srcB || misaligned p.dstStart

/-- The two no-op cases: (a) `dst_start = src_begin`, (b) `len_bytes > MAX_ADDRESS - dst_start` (R144). -/
def copySkipped (p : Params) : Bool :=
  decide (p.dstStart = srcBegin p) || decide ((lenBytes p).toNat > (maxAddress - p.dstStart).toNat)

/-- The byte range of `len` bytes from `lo` contains a byte of the register block `[VIC_BASE, VIC_BASE + 0x240)` (R151 (b));
mathematical integers, no wrap (log 14). -/
def meetsVic (p : Params) (lo len : Nat) : Bool :=
  decide (0 < len ∧ lo < p.vicBase.toNat + vicBlockBytes ∧ p.vicBase.toNat < lo + len)

/-- A range of the copy meets the register block (R151 (b)). -/
def copyHitsVic (p : Params) : Bool :=
  meetsVic p (srcBegin p).toNat (lenBytes p).toNat || meetsVic p p.dstStart.toNat (lenBytes p).toNat

/-- Direction selection: forward when `dst_start < src_begin` or `dst_start >= src_end` (R145). -/
def copiesForward (p : Params) : Bool :=
  decide (p.dstStart.toNat < (srcBegin p).toNat) || decide ((srcEnd p).toNat ≤ p.dstStart.toNat)

/-- The address of word `k` of a block: `base + 4*k` (R146, R154). -/
def wordAddr (base : Word) (k : Nat) : Word := base + BitVec.ofNat 32 (4 * k)

/-- One step of a copy: read word `k` of the source, then write it to word `k` of the destination (R146, R147). -/
def copyWord (phase : RelocState) (s : State) (k : Nat) : State :=
  let src := wordAddr (srcBegin s.params) k
  let v := s.wordAt src.toNat
  { (s.afterMemRead src).memWrite (wordAddr s.params.dstStart k) v with relocState := phase }

/-- Forward copy: `k = 0, 1, ..., N-1` (R146). -/
def copyForward (n : Nat) (s : State) : State :=
  (List.range n).foldl (fun t k => copyWord (.copyFwd k) t k) s

/-- Backward copy: `k = N-1, N-2, ..., 0` (R147). -/
def copyBackward (n : Nat) (s : State) : State :=
  (List.range n).reverse.foldl (fun t k => copyWord (.copyBwd k) t k) s

/-- The end of the command: `reloc_done <- 1`, `RESP <- 0`, the FSM idle again (R141, 10_state R43). -/
def finishRelocate (s : State) : State := { s with relocState := .idle, relocDone := true }.respond 0#32

/-- The copy in the direction R145 selects. -/
def runCopy (s : State) : State :=
  if copiesForward s.params then copyForward (wordCount s.params) s else copyBackward (wordCount s.params) s

/-- `RELOCATE` (40_relocator R141): the verdicts in the order of its pseudocode, the two no-ops, the copy. -/
def execRelocate (s : State) : Result :=
  if s.dispBusy then .fault .relocateInHandler
  else if s.relocDone then .fault .relocateTwice
  else if relocMisaligned s.params then .fault .relocMisaligned
  else if copySkipped s.params then .next (finishRelocate s)
  else if copyHitsVic s.params then .fault .relocHitsVic
  else .next (finishRelocate (runCopy { s with relocState := .check }))

end Sys2Proof.Machine
end

