-- ==== Sys2Proof/Machine/VectorSlots.lean ====
section
/-!
DEFINITION. The vector-slot allocator: `REGISTER_VEC`, `UNREGISTER_VEC`, `ENABLE_VEC`, `DISABLE_VEC`, `DISABLE_ALL_VEC`,
`UNREGISTER_ALL_VEC`, `SET_DEFAULT_VEC` (43_vector_slots R190 to R204). Whether a slot is assigned is decided from
`slot_line` alone; scans are in ascending slot order (R190).
-/
namespace Sys2Proof.Machine

/-- The lowest slot assigned to a line (43_vector_slots R190, R191). -/
def State.findSlot (s : State) (l : Line) : Option Slot := allSlots.find? (fun k => s.slotLine[k] == some l)

/-- The lowest free slot (43_vector_slots R190, R191). -/
def State.freeSlot (s : State) : Option Slot := allSlots.find? (fun k => s.slotLine[k] == none)

/-- First-fit: "reuse the slot already assigned to the requested line if found, else the lowest-indexed free slot, else
the registration fails" (43_vector_slots R191). -/
def State.allocate (s : State) (l : Line) : Option Slot :=
  match s.findSlot l with
  | some k => some k
  | none   => s.freeSlot

/-- Bind slot `t` to line `l`: the table, then the address register, then `line | ENABLE_BIT` into the control register
(43_vector_slots R191). -/
def State.bindSlot (s : State) (t : Slot) (l : Line) (routine : Word) : State :=
  ({ s with slotLine := s.slotLine.set t (some l) }.regWrite (.vectAddrN t) routine).regWrite (.vectCntlN t)
    (lineWord l ||| enableBit)

/-- Release slot `k`: control register to 0, address register to `DUMMY_ADDR`, unassigned (43_vector_slots R193, R201). -/
def State.releaseSlot (s : State) (k : Slot) : State :=
  let t := (s.regWrite (.vectCntlN k) 0#32).regWrite (.vectAddrN k) s.params.dummyAddr
  { t with slotLine := t.slotLine.set k none }

/-- Set only the enable bit of slot `k`: a read of its control register, then a write (43_vector_slots R195). -/
def State.enableSlot (s : State) (k : Slot) : State :=
  (s.afterRead (.vectCntlN k)).regWrite (.vectCntlN k) (s.readValue (.vectCntlN k) ||| enableBit)

/-- Clear only the enable bit of slot `k`: a read of its control register, then a write (43_vector_slots R197, R199). -/
def State.disableSlot (s : State) (k : Slot) : State :=
  (s.afterRead (.vectCntlN k)).regWrite (.vectCntlN k) (s.readValue (.vectCntlN k) &&& ~~~enableBit)

/-- Apply `f` to every slot assigned to line `l`, in ascending order (43_vector_slots R193, R195, R197). -/
def State.forAssigned (s : State) (l : Line) (f : State → Slot → State) : State :=
  allSlots.foldl (fun t k => if t.slotLine[k] = some l then f t k else t) s

/-- Apply `f` to every slot in ascending order (43_vector_slots R199, R201). -/
def State.forEverySlot (s : State) (f : State → Slot → State) : State := allSlots.foldl f s

/-- `REGISTER_VEC line, routine` (43_vector_slots R191): the slot index, or `FAIL` with no state change and no access. -/
def execRegisterVec (line routine : Word) (s : State) : Result :=
  .next (match lineOf line with
    | some l =>
      if isNull routine then s.respond failWord
      else match s.allocate l with
        | some t => (s.bindSlot t l routine).respond (slotWord t)
        | none   => s.respond failWord
    | none => s.respond failWord)

/-- `UNREGISTER_VEC line` (43_vector_slots R193): every slot assigned to the line is released. -/
def execUnregisterVec (line : Word) (s : State) : Result :=
  .next (match lineOf line with
    | some l => (s.forAssigned l State.releaseSlot).respond 0#32
    | none   => s.respond 0#32)

/-- `ENABLE_VEC line` (43_vector_slots R195): every slot assigned to the line is enabled; the lowest index is returned. -/
def execEnableVec (line : Word) (s : State) : Result :=
  .next (match lineOf line with
    | some l => (s.forAssigned l State.enableSlot).respond (match s.findSlot l with
      | some k => slotWord k
      | none   => failWord)
    | none => s.respond failWord)

/-- `DISABLE_VEC line` (43_vector_slots R197): every slot assigned to the line is disabled and stays assigned. -/
def execDisableVec (line : Word) (s : State) : Result :=
  .next (match lineOf line with
    | some l => (s.forAssigned l State.disableSlot).respond 0#32
    | none   => s.respond 0#32)

/-- `DISABLE_ALL_VEC` (43_vector_slots R199): the enable bit of all 16 control registers, assigned or not. -/
def execDisableAllVec (s : State) : Result :=
  .next ((s.forEverySlot State.disableSlot).respond 0#32)

/-- `UNREGISTER_ALL_VEC` (43_vector_slots R201): all 16 slots are released; `DEFVECTADDR` is left alone. -/
def execUnregisterAllVec (s : State) : Result :=
  .next ((s.forEverySlot State.releaseSlot).respond 0#32)

/-- `SET_DEFAULT_VEC routine` (43_vector_slots R203). -/
def execSetDefaultVec (routine : Word) (s : State) : Result :=
  .next (if isNull routine then s.respond 0#32 else (s.regWrite .defVectAddr routine).respond 0#32)

end Sys2Proof.Machine
end

