-- ==== Sys2Proof/Machine/Dispatch.lean ====
section
/-!
DEFINITION. The meaning of every command, one arm each (30_encoding R112).
-/
namespace Sys2Proof.Machine

def exec (i : Instr) (s : State) : Host.Outcome State Fault Refusal :=
  match i with
  | .relocate => Sys2Proof.Machine.execRelocate s
  | .setMode a => Sys2Proof.Machine.execSetMode a s
  | .init => Sys2Proof.Machine.execInit s
  | .registerNv line routine => Sys2Proof.Machine.execRegisterNv line routine s
  | .enable line => Sys2Proof.Machine.execEnable line s
  | .disable line => Sys2Proof.Machine.execDisable line s
  | .disableAll => Sys2Proof.Machine.execDisableAll s
  | .isEnabled line => Sys2Proof.Machine.execIsEnabled line s
  | .getType line => Sys2Proof.Machine.execGetType line s
  | .setType line kind => Sys2Proof.Machine.execSetType line kind s
  | .registerVec line routine => Sys2Proof.Machine.execRegisterVec line routine s
  | .unregisterVec line => Sys2Proof.Machine.execUnregisterVec line s
  | .enableVec line => Sys2Proof.Machine.execEnableVec line s
  | .disableVec line => Sys2Proof.Machine.execDisableVec line s
  | .disableAllVec => Sys2Proof.Machine.execDisableAllVec s
  | .unregisterAllVec => Sys2Proof.Machine.execUnregisterAllVec s
  | .setDefaultVec routine => Sys2Proof.Machine.execSetDefaultVec routine s
  | .swiTrigger => Sys2Proof.Machine.execSwiTrigger s
  | .swiClear => Sys2Proof.Machine.execSwiClear s
  | .dispatch => Sys2Proof.Machine.execDispatch s
  | .regRead offset => Sys2Proof.Machine.execRegRead offset s
  | .regWrite offset value => Sys2Proof.Machine.execRegWrite offset value s

end Sys2Proof.Machine
end

