-- ==== Sys2Proof/Machine/Command.lean ====
section
/-!
DEFINITION. What the block does with a command word (00_scope R2, R15, 30_encoding R117), run whole or access by access
(20_memory R90; log 3), and with the return of a routine.
-/
namespace Sys2Proof.Machine

/-- A command word presented on the command port: decoded, then executed; a word that spells no command is refused
(30_encoding R117). -/
def acceptCommand (cw : CommandWord) (s : State) : Host.Outcome State Fault Refusal :=
  match decode cw with
  | .ok i                      => exec i s
  | .error (.illegalOpcode op) => .refused (.illegalOpcode op)

/-- `reloc_state` at the read of address `a`: word `(a - src_begin) / 4` of the copy, in its direction (10_state R43,
40_relocator R145 to R147). -/
def copyPhase (p : Params) (a : Word) : RelocState :=
  let k := (a - srcBegin p).toNat / 4
  if copiesForward p then .copyFwd k else .copyBwd k

/-- The end of a command run access by access: its tables are in place, its response is returned and the block is free
for the next one (00_scope R11, R15). `reloc_done` is never cleared (10_state R43). -/
def endJob (j : CommandJob) (v : Word) (s : State) : State :=
  { s with
    nvTable := j.nvTable, slotLine := j.slotLine, mode := j.mode, relocState := j.relocState,
    relocDone := s.relocDone || j.relocDone, job := none }.respond v

/-- One access of a command in progress, performed on the state of that moment: a read reads it, a write changes it, each
atomically (20_memory R89, R90); the response ends the command. A command in progress performs no call (log 4). -/
def performEvent (j : CommandJob) (s : State) : Event → State
  | .regRead r _  => s.afterRead r
  | .regWrite r v => s.regWrite r v
  | .memRead a _  => { s.afterMemRead a with relocState := copyPhase s.params a }
  | .memWrite a v => s.memWrite a v
  | .response v   => endJob j v s
  | .call _       => s
  | .ret          => s

/-- The next access of the command in progress `j`. -/
def nextAccess (j : CommandJob) (s : State) : State :=
  match j.todo with
  | []        => { s with job := none }
  | e :: rest => performEvent j { s with job := some { j with todo := rest } } e

/-- The job of a command that takes `s` to `t`: the accesses `t` observed, and what `t` holds beside them. -/
def jobOf (s t : State) : CommandJob where
  todo       := t.trace.drop s.trace.length
  nvTable    := t.nvTable
  slotLine   := t.slotLine
  mode       := t.mode
  relocState := t.relocState
  relocDone  := t.relocDone

/-- A command run access by access: the verdict is the one of the whole command; its first access is performed at once, so
it sees the state at which the command was presented, and the rest wait for `proceed`. A `DISPATCH` has sub-steps of its
own (44_dispatch R216; log 4) and no job. -/
def startInstr (i : Instr) (s : State) : Host.Outcome State Fault Refusal :=
  if i = .dispatch then exec .dispatch s
  else match exec i s with
    | .next t    => .next (nextAccess (jobOf s t) s)
    | .fault f   => .fault f
    | .refused r => .refused r

/-- A command word presented on the command port to be run access by access. -/
def startCommand (cw : CommandWord) (s : State) : Host.Outcome State Fault Refusal :=
  match decode cw with
  | .ok i                      => startInstr i s
  | .error (.illegalOpcode op) => .refused (.illegalOpcode op)

/-- The next access of the command in progress; there is none when no command is in progress (log 1). -/
def proceedCommand (s : State) : Host.Outcome State Fault Refusal :=
  match s.job with
  | some j => .next (nextAccess j s)
  | none   => .refused .nothingInProgress

/-- The commander's moves need the block free: one command at a time, one thread of control (00_scope R15; log 1). -/
def whenFree (s : State) (r : Host.Outcome State Fault Refusal) : Host.Outcome State Fault Refusal :=
  match s.job with
  | some _ => .refused .commandInProgress
  | none   => r

end Sys2Proof.Machine
end

