-- ==== Sys2Proof/Machine/Port.lean ====
section
/-!
DEFINITION. The ports through which the environment reaches the block: taking the next pending move, and the moves that are not
commands (00_scope R12, R15; log 1).
-/
namespace Sys2Proof.Machine

/-- The environment's next move and the state without it; none when nothing is pending. -/
def takeMove (s : State) : Option (Move × State) :=
  match s.moves with
  | []        => none
  | m :: rest => some (m, { s with moves := rest })

/-- The sources drive the 32 request inputs (10_state R21); atomic, between two accesses of the block (20_memory R90). -/
def driveSources (v : Word) (s : State) : State := { s with rawsrc := v }

/-- A command word placed as the environment's next move, with no other command in progress (00_scope R15). -/
def placeCommand (cw : CommandWord) (s : State) : State := { s with moves := .present cw :: s.moves, job := none }

end Sys2Proof.Machine
end

