-- ==== Sys2Proof/Machine/Step.lean ====
section
/-!
DEFINITION. One step of the machine: the environment's next pending move is taken (log 1). A command word is decoded and
executed to completion, or up to an `Invoke` (00_scope R15), or up to its first access, when it is presented to be run
access by access with changes of `RAWSRC` between (20_memory R90; log 3); with nothing pending the block does nothing
(70_reset_and_hazards R270; log 2).
-/
namespace Sys2Proof.Machine

/-- One step: the next move of the environment, and what the block does at it. -/
def step (s : State) : Host.Outcome State Fault Refusal :=
  match takeMove s with
  | none                      => .next s
  | some (.present cw, s1)    => whenFree s1 (acceptCommand cw s1)
  | some (.start cw, s1)      => whenFree s1 (startCommand cw s1)
  | some (.proceed, s1)       => proceedCommand s1
  | some (.sources v, s1)     => .next (driveSources v s1)
  | some (.routineReturn, s1) => whenFree s1 (routineReturn s1)

/-- The state with the command word `w` (numbered as spec/opcode_table.json numbers it) presented as the environment's
next move, so that the very next step runs exactly it (log 1). -/
def State.withFetchWord (s : State) (nbits w : Nat) : State := placeCommand (tableWord nbits w) s

end Sys2Proof.Machine
end

