-- ==== Sys2Proof/Safety.lean ====
section
/-!
DEFINITION. What counts as a safe state or run, in the terms the claims use: the engine's invariants (10_state R46, R47), the
dummy fallback (44_dispatch R215), the legal configurations (00_scope R5), the end of a run and quiescence
(70_reset_and_hazards R289).
-/
namespace Sys2Proof.Machine

/-- A configuration as 00_scope R5 has it: `DUMMY_ADDR` is non-zero and the offsets are a proper table. -/
abbrev legalParams (p : Params) : Prop := p.dummyAddr ≠ 0#32 ∧ properMap p.offsets = true

/-- 10_state R46: a free slot is cleared to the dummy routine, an assigned one answers to its line with a routine that is
not null, and the default address is not null. -/
abbrev State.slotsConsistent (s : State) : Prop :=
  (∀ k : Slot, s.slotLine[k] = none → s.vectCntl[k] = 0#6 ∧ s.vectAddr[k] = s.params.dummyAddr) ∧
  (∀ (k : Slot) (l : Line), s.slotLine[k] = some l → cntlSource s.vectCntl[k] = l ∧ s.vectAddr[k] ≠ 0#32) ∧
  s.defVectAddr ≠ 0#32

/-- 10_state R47: no two slots are assigned the same line. -/
abbrev State.slotsDistinct (s : State) : Prop :=
  ∀ (j k : Slot) (l : Line), s.slotLine[j] = some l → s.slotLine[k] = some l → j = k

/-- No entry of the non-vectored table is a null routine (44_dispatch R215). -/
abbrev State.tableNonNull (s : State) : Prop := ∀ i : Line, s.nvTable[i] ≠ 0#32

/-- A `REG_WRITE` that targets `VECTADDRn`, `VECTCNTLn` or `DEFVECTADDR`, the registers of R46's premise. -/
def rawSlotWrite (p : Params) : Instr → Bool
  | .regWrite off _ =>
    match registerAt p.offsets off with
    | some (.vectAddrN _) => true
    | some (.vectCntlN _) => true
    | some .defVectAddr   => true
    | _                   => false
  | _ => false

/-- The command the next move presents, whole or access by access, if it presents one. -/
def State.nextCommand (s : State) : Option Instr :=
  match s.moves with
  | .present cw :: _ | .start cw :: _ =>
    match decode cw with
    | .ok i    => some i
    | .error _ => none
  | _ => none

/-- The block with its command in progress taken one access further; the state itself when there is none. -/
def State.advance (s : State) : State :=
  match s.job with
  | some j => nextAccess j s
  | none   => s

/-- `advance`, `n` times. -/
def State.advanceBy : Nat → State → State
  | 0, s     => s
  | n + 1, s => State.advanceBy n s.advance

/-- The state at the end of the command in progress, were nothing else to happen; the state itself when no command is in
progress. What holds between commands (10_state R46, R47) is said of it. -/
def State.settled (s : State) : State :=
  match s.job with
  | some j => s.advanceBy (j.todo.length + 1)
  | none   => s

/-- The moves of one gap between two accesses: any number of changes of `RAWSRC`, then the next access (20_memory R90). -/
def gapMoves (vs : List Word) : List Move := vs.map .sources ++ [.proceed]

/-- The last presented command is over: its response is returned, `disp_busy = 0` and `reloc_state = IDLE`
(70_reset_and_hazards R289). -/
abbrev State.commandOver (s : State) : Prop := s.job = none ∧ s.dispatch = .idle ∧ s.relocState = .idle

/-- A run that is over is quiescent when also `in_service = 0` (70_reset_and_hazards R289). -/
abbrev State.quiescent (s : State) : Prop := s.commandOver ∧ s.inService = false

/-- A `DISPATCH` in progress stands at a line of its snapshot (44_dispatch R212, R218 (d)). -/
def State.positionSound (s : State) : Bool :=
  match s.dispatch with
  | .idle               => true
  | .nonVectored snap i => snap.getLsbD i.val
  | .vectored           => true

/-- An event is a response. -/
def Event.isResponse : Event → Bool
  | .response _ => true
  | _ => false

/-- A write of the memory port is aligned (20_memory R86); other events are no such write. -/
def Event.storesAligned : Event → Bool
  | .memWrite a _ => decide (a.toNat % 4 = 0)
  | _ => true

/-- A command in progress writes memory only at aligned addresses, ends with its response, and leaves the relocator idle
(40_relocator R151, R152). -/
def State.jobSound (s : State) : Bool :=
  match s.job with
  | some j => j.todo.all Event.storesAligned && j.todo.getLast?.any Event.isResponse && decide (j.relocState = .idle)
  | none   => true

/-- What holds between any two steps of every run: memory in canonical form, the relocator idle outside a command in
progress (40_relocator R152), a `DISPATCH` in progress at a line of its snapshot, a command in progress sound. -/
abbrev State.Inv (s : State) : Prop :=
  Memory.wf s.mem ∧ (s.job = none → s.relocState = .idle) ∧ s.positionSound = true ∧ s.jobSound = true

/-- `n` steps from `s` with no fault and no refusal, ending in `t`: a completed stretch of a run (R289). -/
abbrev runsTo (n : Nat) (s t : State) : Prop := Host.Core.run core n s = .next t

/-- Commands one after another, each run to its response; the state after them and their responses. -/
def execAll : List Instr → State → Option (State × List Word)
  | [], s => some (s, [])
  | i :: rest, s =>
    match exec i s with
    | .next t =>
      match execAll rest t with
      | some (u, rs) => some (u, t.resp :: rs)
      | none         => none
    | .fault _   => none
    | .refused _ => none

/-- The mask `0xFF0000000000000000` of the opcode field (30_encoding R111). -/
def opMask : CommandWord := 0xFF0000000000000000#72

/-- The two writes that clear a slot, control register first (43_vector_slots R193, R201, 41_mode_and_init R163). -/
def clearSlotTrace (p : Params) (k : Slot) : List Event :=
  [.regWrite (.vectCntlN k) 0#32, .regWrite (.vectAddrN k) p.dummyAddr]

/-- The 36 writes of `INIT`, in order (41_mode_and_init R163). -/
def initTrace (p : Params) : List Event :=
  [.regWrite .intSelect 0#32, .regWrite .intEnClear 0xFFFFFFFF#32, .regWrite .softIntClear 0xFFFFFFFF#32,
    .regWrite .defVectAddr p.dummyAddr] ++ allSlots.flatMap (clearSlotTrace p)

/-- The lines of a snapshot in ascending order (44_dispatch R212). -/
def linesOf (snap : Word) : List Line := allLines.filter (fun i => snap.getLsbD i.val)

/-- The commands of 42_line_control. -/
def lineControlCommand : Instr → Bool
  | .registerNv _ _ | .enable _ | .disable _ | .disableAll | .isEnabled _ | .getType _ | .setType _ _ | .swiTrigger
  | .swiClear => true
  | _ => false

/-- The commands of 43_vector_slots. -/
def vectorSlotCommand : Instr → Bool
  | .registerVec _ _ | .unregisterVec _ | .enableVec _ | .disableVec _ | .disableAllVec | .unregisterAllVec
  | .setDefaultVec _ => true
  | _ => false

/-- A read of a write-only register (10_state R23). -/
def Event.readsWriteOnly : Event → Bool
  | .regRead .intEnClear _ | .regRead .softIntClear _ => true
  | _ => false

/-- A write of a read-only register (10_state R23). -/
def Event.writesReadOnly : Event → Bool
  | .regWrite .irqStatus _ | .regWrite .fiqStatus _ | .regWrite .rawIntr _ => true
  | _ => false

/-- A read of the memory port or a write of it (00_scope R10). -/
def Event.isMemAccess : Event → Bool
  | .memRead _ _ | .memWrite _ _ => true
  | _ => false

/-! The relocator's quantities as mathematical integers (40_relocator R142, R143, R154). -/

/-- `src_begin = min(SRC_A, SRC_B)` (R142). -/
def sourceLo (p : Params) : Nat := min p.srcA.toNat p.srcB.toNat

/-- `src_end = max(SRC_A, SRC_B)` (R142). -/
def sourceHi (p : Params) : Nat := max p.srcA.toNat p.srcB.toNat

/-- `len_bytes = src_end - src_begin` (R143). -/
def blockLen (p : Params) : Nat := sourceHi p - sourceLo p

/-- All three boundary addresses are multiples of 4 (R151 (a)). -/
abbrev relocAligned (p : Params) : Prop :=
  p.srcA.toNat % 4 = 0 ∧ p.srcB.toNat % 4 = 0 ∧ p.dstStart.toNat % 4 = 0

/-- One of the two no-op cases (R144). -/
abbrev relocNoOp (p : Params) : Prop :=
  p.dstStart.toNat = sourceLo p ∨ blockLen p > 0xFFFFFFFF - p.dstStart.toNat

/-- A byte of the source or destination range is a byte of the register block (R151 (b)). -/
def relocMeetsVic (p : Params) : Prop :=
  ∃ x : Nat, ((sourceLo p ≤ x ∧ x < sourceHi p) ∨ (p.dstStart.toNat ≤ x ∧ x < p.dstStart.toNat + blockLen p)) ∧
    p.vicBase.toNat ≤ x ∧ x < p.vicBase.toNat + 0x240

/-- A first `RELOCATE`, aligned, outside any service routine: none of the verdicts but `reloc_hits_vic` can arise. -/
abbrev State.relocReady (s : State) : Prop :=
  s.dispatch = .idle ∧ s.relocDone = false ∧ relocAligned s.params

/-- The two accesses of step `k` of a copy, with the word the source held before the command (R146, R147). -/
def copyStepTrace (s : State) (k : Nat) : List Event :=
  let v := s.wordAt (sourceLo s.params + 4 * k)
  [.memRead (BitVec.ofNat 32 (sourceLo s.params + 4 * k)) v,
    .memWrite (BitVec.ofNat 32 (s.params.dstStart.toNat + 4 * k)) v]

end Sys2Proof.Machine
end

