-- ==== Sys2Proof/Certificates/Slice0/Obligations.lean ====
section
/-!
DEFINITION. The statements about the VIC block, from the numbered rules of spec/. Each docstring names the rule it formalises.
-/
open Sys2Proof Sys2Proof.Machine

/-! ## Encoding -/

/-- 30_encoding R110, R112: command words written out from the encoding table, at least one of each family and a reserved
one, as in 95_test_vectors P1 to P4 and V91. -/
def Obligations.WrittenOutWordsDecode : Prop :=
  decode 0x000000000000000000#72 = .ok .relocate ∧
  decode 0x010000000100000000#72 = .ok (.setMode 1#32) ∧
  decode 0x020000000000000000#72 = .ok .init ∧
  decode 0x030000000400008000#72 = .ok (.registerNv 4#32 0x8000#32) ∧
  decode 0x090000000100000001#72 = .ok (.setType 1#32 1#32) ∧
  decode 0x0A0000000500010500#72 = .ok (.registerVec 5#32 0x10500#32) ∧
  decode 0x130000000000000000#72 = .ok .dispatch ∧
  decode 0x140000000400000000#72 = .ok (.regRead 4#32) ∧
  decode 0x160000000000000000#72 = .error (.illegalOpcode 0x16#8)

/-- 30_encoding R110, R112, R118: decoding the encoding of a command gives the command back, every operand whole. -/
def Obligations.DecodeOfEncodeIsTheCommand : Prop :=
  ∀ i : Instr, decode (encode i) = .ok i

/-- 30_encoding R111: a command is matched by its opcode field alone, and fields it does not use are ignored. -/
def Obligations.OpcodeAloneSelectsTheCommand : Prop :=
  ∀ (cw : CommandWord) (i : Instr), decode cw = .ok i →
    cw &&& opMask = packFields i.opcode 0#32 0#32 ∧
    ∀ cw' : CommandWord, cw' &&& opMask = packFields i.opcode 0#32 0#32 →
      (i.usesA = true → aField cw' = aField cw) → (i.usesB = true → bField cw' = bField cw) → decode cw' = .ok i

/-- 30_encoding R117: `OP` 0x16 to 0xFF spell no command: the decoder rejects exactly these, and the machine refuses them,
presented to be run whole or access by access, when no command is in progress (logs 1, 3). -/
def Obligations.ReservedOpcodesAreRefused : Prop :=
  ∀ cw : CommandWord,
    (0x16 ≤ (opField cw).toNat ↔ decode cw = .error (.illegalOpcode (opField cw))) ∧
    ((opField cw).toNat < 0x16 → ∃ i, decode cw = .ok i) ∧
    ∀ (s : State) (rest : List Move), s.job = none → s.moves = .present cw :: rest ∨ s.moves = .start cw :: rest →
      0x16 ≤ (opField cw).toNat → step s = .refused (.illegalOpcode (opField cw))

/-! ## The step and reset -/

/-- 00_scope R2, R15: a presented word that decodes to a command runs exactly that command, the move consumed, when no
command is in progress (log 1). -/
def Obligations.StepRunsThePresentedCommand : Prop :=
  ∀ (s : State) (cw : CommandWord) (rest : List Move) (i : Instr),
    s.job = none → s.moves = .present cw :: rest → decode cw = .ok i → step s = exec i { s with moves := rest }

/-- 10_state R21, 00_scope R15, 20_memory R90, 44_dispatch R216, 70_reset_and_hazards R270: the other moves (the move list is
the model's, logs 1, 3): with nothing pending the block does nothing, the sources drive `RAWSRC` and nothing else at any
time, also between two accesses of a command; a return continues the `DISPATCH`, and one with no `Invoke` outstanding is
refused (log 11); while a command is in progress no command and no return is taken, and a next access needs one. -/
def Obligations.StepTakesTheOtherMoves : Prop :=
  ∀ (s : State) (rest : List Move) (cw : CommandWord) (v : Word),
    (s.moves = [] → step s = .next s) ∧
    (s.moves = .sources v :: rest → step s = .next { s with moves := rest, rawsrc := v }) ∧
    (s.moves = .routineReturn :: rest → s.job = none → step s = routineReturn { s with moves := rest }) ∧
    (s.moves = .routineReturn :: rest → s.job = none → s.dispatch = .idle → step s = .refused .returnWithoutInvoke) ∧
    (s.moves = .present cw :: rest ∨ s.moves = .start cw :: rest ∨ s.moves = .routineReturn :: rest → s.job ≠ none →
      step s = .refused .commandInProgress) ∧
    (s.moves = .proceed :: rest → s.job = none → step s = .refused .nothingInProgress)

/-- 70_reset_and_hazards R270 (the table of 10_state R48): the defined reset values, and the unspecified registers at any
value `d` whatever; then the block is idle and waits. `State.reset` is one such state (logs 5, 6). -/
def Obligations.ResetLeavesTheDefinedValues : Prop :=
  (∀ (p : Params) (d : ResetDraw) (s : State), s = State.resetWith p d →
    s.mode = .nonVectored ∧ (∀ i : Line, s.nvTable[i] = p.dummyAddr) ∧ s.inService = false ∧ s.relocDone = false ∧
    s.dispBusy = false ∧ s.relocState = .idle ∧ s.job = none ∧
    s.intSelect = d.intSelect ∧ s.intEnable = d.intEnable ∧ s.softInt = d.softInt ∧ s.protection = d.protection ∧
    s.defVectAddr = d.defVectAddr ∧ s.vectAddr = d.vectAddr ∧ s.vectCntl = d.vectCntl ∧ s.slotLine = d.slotLine ∧
    s.rawsrc = d.rawsrc ∧ step s = .next s) ∧
  ∃ (p : Params) (d : ResetDraw), State.reset = State.resetWith p d

/-- The invariant of `StepKeepsTheInvariant`, and the non-null table, hold at reset, under every configuration with a
non-zero `DUMMY_ADDR` and every draw. -/
def Obligations.ResetMeetsTheInvariant : Prop :=
  (∀ (p : Params) (d : ResetDraw), (State.resetWith p d).Inv) ∧ State.reset.Inv ∧
  (∀ (p : Params) (d : ResetDraw), p.dummyAddr ≠ 0#32 → (State.resetWith p d).tableNonNull) ∧
  State.reset.tableNonNull

/-! ## Mode and INIT -/

/-- 41_mode_and_init R161: `SET_MODE`: its encoding, `B` ignored, the mode it selects, nothing else changed. -/
def Obligations.SetModeSelectsTheMode : Prop :=
  ∀ (a : Word) (s : State),
    (∀ b : Word, decode (packFields 0x01#8 a b) = .ok (.setMode a)) ∧
    (a = 0#32 → exec (.setMode a) s =
      .next { s with mode := .nonVectored, resp := 0#32, trace := s.trace ++ [.response 0#32] }) ∧
    (a = 1#32 → exec (.setMode a) s =
      .next { s with mode := .vectored, resp := 0#32, trace := s.trace ++ [.response 0#32] }) ∧
    (2 ≤ a.toNat → exec (.setMode a) s = .next { s with resp := 0#32, trace := s.trace ++ [.response 0#32] })

/-- 41_mode_and_init R163: the state after `INIT`, whatever it was before, what it does not touch, and its 36 writes. -/
def Obligations.InitSetsTheDefaults : Prop :=
  (∀ a b : Word, decode (packFields 0x02#8 a b) = .ok .init) ∧
  ∀ s : State, ∃ t : State, exec .init s = .next t ∧
    t.intSelect = 0#32 ∧ t.intEnable = 0#32 ∧ t.softInt = 0#32 ∧ t.defVectAddr = s.params.dummyAddr ∧
    (∀ k : Slot, t.vectCntl[k] = 0#6 ∧ t.vectAddr[k] = s.params.dummyAddr ∧ t.slotLine[k] = none) ∧
    (∀ i : Line, t.nvTable[i] = s.params.dummyAddr) ∧ t.mode = .nonVectored ∧
    t.irqStatus = 0#32 ∧ t.fiqStatus = 0#32 ∧ t.irqOut = false ∧ t.fiqOut = false ∧ t.rawIntr = s.rawsrc ∧
    t.curVect = s.params.dummyAddr ∧ (initTrace s.params).length = 36 ∧
    t = { s with
      intSelect := t.intSelect, intEnable := t.intEnable, softInt := t.softInt, defVectAddr := t.defVectAddr,
      vectCntl := t.vectCntl, vectAddr := t.vectAddr, slotLine := t.slotLine, nvTable := t.nvTable, mode := t.mode,
      resp := 0#32, trace := s.trace ++ initTrace s.params ++ [.response 0#32] }

/-- 41_mode_and_init R164: a second `INIT` leaves the same state and performs the same 36 writes; `INIT` completes at any
time and leaves `in_service` as it is. -/
def Obligations.InitIsIdempotent : Prop :=
  ∀ s : State, ∃ t u : State, exec .init s = .next t ∧ exec .init t = .next u ∧ t.inService = s.inService ∧
    u = { t with trace := t.trace ++ initTrace s.params ++ [.response 0#32] }

/-! ## Per-line control -/

/-- 42_line_control R171: `REGISTER_NV`. -/
def Obligations.RegisterNvStoresTheRoutine : Prop :=
  ∀ (line routine : Word) (s : State),
    decode (packFields 0x03#8 line routine) = .ok (.registerNv line routine) ∧
    (∀ l : Line, line.toNat = l.val → routine ≠ 0#32 → exec (.registerNv line routine) s =
      .next { s with nvTable := s.nvTable.set l routine, resp := 0#32, trace := s.trace ++ [.response 0#32] }) ∧
    (32 ≤ line.toNat ∨ routine = 0#32 → exec (.registerNv line routine) s =
      .next { s with resp := 0#32, trace := s.trace ++ [.response 0#32] })

/-- 42_line_control R172: `ENABLE`; a request already there becomes pending at once. -/
def Obligations.EnableSetsTheLinesBit : Prop :=
  ∀ (line : Word) (s : State),
    (∀ b : Word, decode (packFields 0x04#8 line b) = .ok (.enable line)) ∧
    (∀ l : Line, line.toNat = l.val → exec (.enable line) s =
      .next { s with
        intEnable := s.intEnable ||| (1#32 <<< l.val), resp := 0#32,
        trace := s.trace ++ [.regWrite .intEnable (1#32 <<< l.val), .response 0#32] }) ∧
    (∀ (l : Line) (t : State), line.toNat = l.val → exec (.enable line) s = .next t → s.rawIntr.getLsbD l.val = true →
      t.irqStatus.getLsbD l.val = !s.intSelect.getLsbD l.val ∧ t.fiqStatus.getLsbD l.val = s.intSelect.getLsbD l.val) ∧
    (32 ≤ line.toNat → exec (.enable line) s =
      .next { s with resp := 0#32, trace := s.trace ++ [.response 0#32] })

/-- 42_line_control R173: `DISABLE`, one write to the write-only clear register; a request stays in `RAWINTR` and leaves
`IRQSTATUS`. -/
def Obligations.DisableClearsTheLinesBit : Prop :=
  ∀ (line : Word) (s : State),
    (∀ b : Word, decode (packFields 0x05#8 line b) = .ok (.disable line)) ∧
    (∀ l : Line, line.toNat = l.val → exec (.disable line) s =
      .next { s with
        intEnable := s.intEnable &&& ~~~(1#32 <<< l.val), resp := 0#32,
        trace := s.trace ++ [.regWrite .intEnClear (1#32 <<< l.val), .response 0#32] }) ∧
    (∀ (l : Line) (t : State), line.toNat = l.val → exec (.disable line) s = .next t →
      t.rawIntr = s.rawIntr ∧ t.irqStatus.getLsbD l.val = false ∧ t.fiqStatus.getLsbD l.val = false) ∧
    (32 ≤ line.toNat → exec (.disable line) s =
      .next { s with resp := 0#32, trace := s.trace ++ [.response 0#32] })

/-- 42_line_control R174: `DISABLE_ALL`. -/
def Obligations.DisableAllClearsEveryEnable : Prop :=
  (∀ a b : Word, decode (packFields 0x06#8 a b) = .ok .disableAll) ∧
  ∀ s : State, exec .disableAll s =
    .next { s with
      intEnable := 0#32, resp := 0#32,
      trace := s.trace ++ [.regWrite .intEnClear 0xFFFFFFFF#32, .response 0#32] }

/-- 42_line_control R175: `IS_ENABLED`. -/
def Obligations.IsEnabledReportsTheEnableBit : Prop :=
  ∀ (line : Word) (s : State),
    (∀ b : Word, decode (packFields 0x07#8 line b) = .ok (.isEnabled line)) ∧
    (∀ (l : Line) (r : Word), line.toNat = l.val → r = (if s.intEnable.getLsbD l.val then 1#32 else 0#32) →
      exec (.isEnabled line) s =
        .next { s with resp := r, trace := s.trace ++ [.regRead .intEnable s.intEnable, .response r] }) ∧
    (32 ≤ line.toNat → exec (.isEnabled line) s =
      .next { s with resp := 0#32, trace := s.trace ++ [.response 0#32] })

/-- 42_line_control R176: `GET_TYPE`. -/
def Obligations.GetTypeReportsTheSelectBit : Prop :=
  ∀ (line : Word) (s : State),
    (∀ b : Word, decode (packFields 0x08#8 line b) = .ok (.getType line)) ∧
    (∀ (l : Line) (r : Word), line.toNat = l.val → r = (if s.intSelect.getLsbD l.val then 1#32 else 0#32) →
      exec (.getType line) s =
        .next { s with resp := r, trace := s.trace ++ [.regRead .intSelect s.intSelect, .response r] }) ∧
    (32 ≤ line.toNat → exec (.getType line) s =
      .next { s with resp := 0#32, trace := s.trace ++ [.response 0#32] })

/-- 42_line_control R177: `SET_TYPE`, a read then a write of `INTSELECT`; a pending line moves to the status word of its new
type. -/
def Obligations.SetTypeWritesTheSelectBit : Prop :=
  ∀ (line kind : Word) (s : State),
    decode (packFields 0x09#8 line kind) = .ok (.setType line kind) ∧
    (∀ (l : Line) (w : Word), line.toNat = l.val → kind.toNat < 2 →
      w = (if kind = 1#32 then s.intSelect ||| (1#32 <<< l.val) else s.intSelect &&& ~~~(1#32 <<< l.val)) →
      exec (.setType line kind) s =
        .next { s with
          intSelect := w, resp := 0#32,
          trace := s.trace ++ [.regRead .intSelect s.intSelect, .regWrite .intSelect w, .response 0#32] }) ∧
    (∀ (l j : Line) (t : State), line.toNat = l.val → kind.toNat < 2 → exec (.setType line kind) s = .next t →
      t.intSelect.getLsbD j.val = (if j = l then decide (kind = 1#32) else s.intSelect.getLsbD j.val) ∧
      (s.rawIntr.getLsbD l.val = true → s.intEnable.getLsbD l.val = true →
        t.irqStatus.getLsbD l.val = decide (kind = 0#32) ∧ t.fiqStatus.getLsbD l.val = decide (kind = 1#32))) ∧
    (32 ≤ line.toNat ∨ 2 ≤ kind.toNat → exec (.setType line kind) s =
      .next { s with resp := 0#32, trace := s.trace ++ [.response 0#32] })

/-- 42_line_control R178, R179: `SWI_TRIGGER` and `SWI_CLEAR` set and clear the software line's request; nothing but
`SWI_CLEAR`, `INIT` and a `REG_WRITE` to `SOFTINTCLEAR` takes a software request back. -/
def Obligations.SoftwareLineIsSetAndCleared : Prop :=
  (∀ a b : Word, decode (packFields 0x11#8 a b) = .ok .swiTrigger ∧ decode (packFields 0x12#8 a b) = .ok .swiClear) ∧
  ∀ s : State,
    exec .swiTrigger s =
      .next { s with
        softInt := s.softInt ||| (1#32 <<< s.params.swiLine.val), resp := 0#32,
        trace := s.trace ++ [.regWrite .softInt (1#32 <<< s.params.swiLine.val), .response 0#32] } ∧
    exec .swiClear s =
      .next { s with
        softInt := s.softInt &&& ~~~(1#32 <<< s.params.swiLine.val), resp := 0#32,
        trace := s.trace ++ [.regWrite .softIntClear (1#32 <<< s.params.swiLine.val), .response 0#32] } ∧
    (∀ t : State, exec .swiTrigger s = .next t → t.rawIntr.getLsbD s.params.swiLine.val = true ∧
      t.irqStatus.getLsbD s.params.swiLine.val =
        (s.intEnable.getLsbD s.params.swiLine.val && !s.intSelect.getLsbD s.params.swiLine.val)) ∧
    (∀ t : State, exec .swiClear s = .next t →
      t.rawIntr.getLsbD s.params.swiLine.val = s.rawsrc.getLsbD s.params.swiLine.val) ∧
    ∀ (i : Instr) (t : State) (j : Line), exec i s = .next t ∨ routineReturn s = .next t →
      s.softInt.getLsbD j.val = true → t.softInt.getLsbD j.val = false →
      i = .swiClear ∨ i = .init ∨ ∃ off v, i = .regWrite off v ∧ registerAt s.params.offsets off = some .softIntClear

/-- 42_line_control R172, R173, R177, 20_memory R92: `ENABLE`, `DISABLE` and `SET_TYPE` change their own line's bit and
leave the other 31 untouched. -/
def Obligations.OneLineCommandsTouchOneBit : Prop :=
  ∀ (l j : Line) (line kind : Word) (s t : State), line.toNat = l.val →
    (exec (.enable line) s = .next t →
      t.intEnable.getLsbD j.val = (decide (j = l) || s.intEnable.getLsbD j.val)) ∧
    (exec (.disable line) s = .next t →
      t.intEnable.getLsbD j.val = (decide (j ≠ l) && s.intEnable.getLsbD j.val)) ∧
    (kind.toNat < 2 → exec (.setType line kind) s = .next t →
      t.intSelect.getLsbD j.val = if j = l then decide (kind = 1#32) else s.intSelect.getLsbD j.val)

/-- 42_line_control R170: every command of the family completes, and changes none of `mode`, `slot_line`, `VECTADDRn`,
`VECTCNTLn`, `DEFVECTADDR`, `in_service` (nor the relocator, the protection bit, the sequencer or any byte of memory). -/
def Obligations.LineControlLeavesTheSlotsAlone : Prop :=
  ∀ (i : Instr) (s : State), lineControlCommand i = true → ∃ t : State, exec i s = .next t ∧
    t.mode = s.mode ∧ t.slotLine = s.slotLine ∧ t.vectAddr = s.vectAddr ∧ t.vectCntl = s.vectCntl ∧
    t.defVectAddr = s.defVectAddr ∧ t.inService = s.inService ∧ t.protection = s.protection ∧
    t.relocDone = s.relocDone ∧ t.relocState = s.relocState ∧ t.dispatch = s.dispatch ∧
    ∀ a : Nat, t.byteAt a = s.byteAt a

/-! ## Vector slots -/

/-- 43_vector_slots R191: `REGISTER_VEC`: the lowest slot assigned to the line, else the lowest free slot, else `FAIL`. -/
def Obligations.RegisterVecIsFirstFitWithReuse : Prop :=
  ∀ (line routine : Word) (s : State),
    decode (packFields 0x0A#8 line routine) = .ok (.registerVec line routine) ∧
    (∀ (l : Line) (t : Slot), line.toNat = l.val → routine ≠ 0#32 →
      ((s.slotLine[t] = some l ∧ ∀ j : Slot, j < t → s.slotLine[j] ≠ some l) ∨
        ((∀ j : Slot, s.slotLine[j] ≠ some l) ∧ s.slotLine[t] = none ∧ ∀ j : Slot, j < t → s.slotLine[j] ≠ none)) →
      exec (.registerVec line routine) s =
        .next { s with
          slotLine := s.slotLine.set t (some l), vectAddr := s.vectAddr.set t routine,
          vectCntl := s.vectCntl.set t (BitVec.ofNat 6 l.val ||| 0x20#6), resp := BitVec.ofNat 32 t.val,
          trace := s.trace ++ [.regWrite (.vectAddrN t) routine,
            .regWrite (.vectCntlN t) (BitVec.ofNat 32 l.val ||| 0x20#32), .response (BitVec.ofNat 32 t.val)] }) ∧
    (32 ≤ line.toNat ∨ routine = 0#32 ∨
        (∀ j : Slot, s.slotLine[j] ≠ none ∧ ∀ l : Line, line.toNat = l.val → s.slotLine[j] ≠ some l) →
      exec (.registerVec line routine) s =
        .next { s with resp := 0xFFFFFFFF#32, trace := s.trace ++ [.response 0xFFFFFFFF#32] })

/-- 43_vector_slots R193: `UNREGISTER_VEC` clears every slot assigned to the line, and no other. -/
def Obligations.UnregisterVecClearsEverySlotOfTheLine : Prop :=
  ∀ (line : Word) (s : State),
    (∀ b : Word, decode (packFields 0x0B#8 line b) = .ok (.unregisterVec line)) ∧
    (∀ l : Line, line.toNat = l.val → ∃ t : State, exec (.unregisterVec line) s = .next t ∧
      (∀ k : Slot, s.slotLine[k] = some l →
        t.slotLine[k] = none ∧ t.vectCntl[k] = 0#6 ∧ t.vectAddr[k] = s.params.dummyAddr) ∧
      (∀ k : Slot, s.slotLine[k] ≠ some l →
        t.slotLine[k] = s.slotLine[k] ∧ t.vectCntl[k] = s.vectCntl[k] ∧ t.vectAddr[k] = s.vectAddr[k]) ∧
      t = { s with
        slotLine := t.slotLine, vectCntl := t.vectCntl, vectAddr := t.vectAddr, resp := 0#32,
        trace := s.trace ++
          (allSlots.filter fun k => s.slotLine[k] == some l).flatMap (clearSlotTrace s.params) ++ [.response 0#32] }) ∧
    (32 ≤ line.toNat → exec (.unregisterVec line) s =
      .next { s with resp := 0#32, trace := s.trace ++ [.response 0#32] })

/-- 43_vector_slots R195: `ENABLE_VEC` sets only the enable bit of every slot assigned to the line and returns the lowest
such slot, or `FAIL`. -/
def Obligations.EnableVecSetsOnlyTheEnableBit : Prop :=
  ∀ (line : Word) (s : State),
    (∀ b : Word, decode (packFields 0x0C#8 line b) = .ok (.enableVec line)) ∧
    (∀ l : Line, line.toNat = l.val → ∃ t : State, exec (.enableVec line) s = .next t ∧
      (∀ k : Slot, s.slotLine[k] = some l → t.vectCntl[k] = s.vectCntl[k] ||| 0x20#6) ∧
      (∀ k : Slot, s.slotLine[k] ≠ some l → t.vectCntl[k] = s.vectCntl[k]) ∧
      (∀ k : Slot, s.slotLine[k] = some l → (∀ j : Slot, j < k → s.slotLine[j] ≠ some l) →
        t.resp = BitVec.ofNat 32 k.val) ∧
      ((∀ k : Slot, s.slotLine[k] ≠ some l) → t.resp = 0xFFFFFFFF#32) ∧
      t = { s with
        vectCntl := t.vectCntl, resp := t.resp,
        trace := s.trace ++
          (allSlots.filter fun k => s.slotLine[k] == some l).flatMap (fun k =>
            [.regRead (.vectCntlN k) ((s.vectCntl[k]).setWidth 32),
              .regWrite (.vectCntlN k) ((s.vectCntl[k]).setWidth 32 ||| 0x20#32)]) ++ [.response t.resp] }) ∧
    (32 ≤ line.toNat → exec (.enableVec line) s =
      .next { s with resp := 0xFFFFFFFF#32, trace := s.trace ++ [.response 0xFFFFFFFF#32] })

/-- 43_vector_slots R197: `DISABLE_VEC` clears only the enable bit of every slot assigned to the line. -/
def Obligations.DisableVecClearsOnlyTheEnableBit : Prop :=
  ∀ (line : Word) (s : State),
    (∀ b : Word, decode (packFields 0x0D#8 line b) = .ok (.disableVec line)) ∧
    (∀ l : Line, line.toNat = l.val → ∃ t : State, exec (.disableVec line) s = .next t ∧
      (∀ k : Slot, s.slotLine[k] = some l → t.vectCntl[k] = s.vectCntl[k] &&& 0x1F#6) ∧
      (∀ k : Slot, s.slotLine[k] ≠ some l → t.vectCntl[k] = s.vectCntl[k]) ∧
      t = { s with
        vectCntl := t.vectCntl, resp := 0#32,
        trace := s.trace ++
          (allSlots.filter fun k => s.slotLine[k] == some l).flatMap (fun k =>
            [.regRead (.vectCntlN k) ((s.vectCntl[k]).setWidth 32),
              .regWrite (.vectCntlN k) ((s.vectCntl[k]).setWidth 32 &&& ~~~0x20#32)]) ++ [.response 0#32] }) ∧
    (32 ≤ line.toNat → exec (.disableVec line) s =
      .next { s with resp := 0#32, trace := s.trace ++ [.response 0#32] })

/-- 43_vector_slots R199: `DISABLE_ALL_VEC` clears the enable bit of all 16 control registers and nothing else. -/
def Obligations.DisableAllVecClearsEveryEnableBit : Prop :=
  (∀ a b : Word, decode (packFields 0x0E#8 a b) = .ok .disableAllVec) ∧
  ∀ s : State, ∃ t : State, exec .disableAllVec s = .next t ∧
    (∀ k : Slot, t.vectCntl[k] = s.vectCntl[k] &&& 0x1F#6) ∧
    t = { s with
      vectCntl := t.vectCntl, resp := 0#32,
      trace := s.trace ++
        allSlots.flatMap (fun k =>
          [.regRead (.vectCntlN k) ((s.vectCntl[k]).setWidth 32),
            .regWrite (.vectCntlN k) ((s.vectCntl[k]).setWidth 32 &&& ~~~0x20#32)]) ++ [.response 0#32] }

/-- 43_vector_slots R201: `UNREGISTER_ALL_VEC` frees all 16 slots and leaves `DEFVECTADDR` alone. -/
def Obligations.UnregisterAllVecFreesEverySlot : Prop :=
  (∀ a b : Word, decode (packFields 0x0F#8 a b) = .ok .unregisterAllVec) ∧
  ∀ s : State, ∃ t : State, exec .unregisterAllVec s = .next t ∧
    (∀ k : Slot, t.slotLine[k] = none ∧ t.vectCntl[k] = 0#6 ∧ t.vectAddr[k] = s.params.dummyAddr) ∧
    t = { s with
      slotLine := t.slotLine, vectCntl := t.vectCntl, vectAddr := t.vectAddr, resp := 0#32,
      trace := s.trace ++ allSlots.flatMap (clearSlotTrace s.params) ++ [.response 0#32] }

/-- 43_vector_slots R203: `SET_DEFAULT_VEC`; only it, `INIT` and a raw `REG_WRITE` change `DEFVECTADDR`. -/
def Obligations.SetDefaultVecStoresTheAddress : Prop :=
  ∀ (routine : Word) (s : State),
    (∀ a : Word, decode (packFields 0x10#8 a routine) = .ok (.setDefaultVec routine)) ∧
    (∀ (i : Instr) (t : State), exec i s = .next t → t.defVectAddr ≠ s.defVectAddr → i = .init ∨ (∃ r, i = .setDefaultVec r) ∨
      ∃ off v, i = .regWrite off v ∧ registerAt s.params.offsets off = some .defVectAddr) ∧
    (routine ≠ 0#32 → exec (.setDefaultVec routine) s =
      .next { s with
        defVectAddr := routine, resp := 0#32,
        trace := s.trace ++ [.regWrite .defVectAddr routine, .response 0#32] }) ∧
    (routine = 0#32 → exec (.setDefaultVec routine) s =
      .next { s with resp := 0#32, trace := s.trace ++ [.response 0#32] })

/-- 43_vector_slots R190: every command of the family completes and touches none of `nv_table`, `mode`, `INTENABLE`,
`INTSELECT`, `SOFTINT`, `in_service` (nor any byte of memory), in both modes alike. -/
def Obligations.SlotCommandsLeaveTheLinesAlone : Prop :=
  ∀ (i : Instr) (s : State), vectorSlotCommand i = true →
    (∃ t : State, exec i s = .next t ∧
      t.nvTable = s.nvTable ∧ t.mode = s.mode ∧ t.intEnable = s.intEnable ∧ t.intSelect = s.intSelect ∧
      t.softInt = s.softInt ∧ t.inService = s.inService ∧ t.protection = s.protection ∧ t.relocDone = s.relocDone ∧
      t.dispatch = s.dispatch ∧ ∀ a : Nat, t.byteAt a = s.byteAt a) ∧
    ∀ (m : Mode) (t : State), exec i s = .next t → exec i { s with mode := m } = .next { t with mode := m }

/-- 43_vector_slots R192 (a), (d): registering a line again, whatever the routine, succeeds in the same slot. -/
def Obligations.ReRegistrationReusesTheSlot : Prop :=
  ∀ (line r r' : Word) (s t : State), exec (.registerVec line r) s = .next t → t.resp ≠ 0xFFFFFFFF#32 → r' ≠ 0#32 →
    ∃ u : State, exec (.registerVec line r') t = .next u ∧ u.resp = t.resp

/-- 43_vector_slots R192 (b): with every slot free, 16 distinct lines get slots 0 to 15 in order, and a 17th fails and
leaves them unchanged. -/
def Obligations.SixteenLinesThenExhaustion : Prop :=
  ∀ (s : State) (regs : List (Word × Word)), (∀ k : Slot, s.slotLine[k] = none) → regs.length = 16 →
    (regs.map Prod.fst).Nodup → (∀ p ∈ regs, p.1.toNat < 32 ∧ p.2 ≠ 0#32) →
    ∃ t : State,
      execAll (regs.map fun p => .registerVec p.1 p.2) s = some (t, (List.range 16).map (BitVec.ofNat 32)) ∧
      ∀ line r : Word, line.toNat < 32 → r ≠ 0#32 → line ∉ regs.map Prod.fst →
        exec (.registerVec line r) t =
          .next { t with resp := 0xFFFFFFFF#32, trace := t.trace ++ [.response 0xFFFFFFFF#32] }

/-- 43_vector_slots R192 (c): after `UNREGISTER_VEC`, a line without a slot gets the freed slot exactly when that slot is
the lowest free one. -/
def Obligations.FreedSlotIsReusedWhenLowest : Prop :=
  ∀ (line line' r : Word) (l l' : Line) (s t : State) (k : Slot), line.toNat = l.val → line'.toNat = l'.val →
    r ≠ 0#32 → s.slotLine[k] = some l → exec (.unregisterVec line) s = .next t →
    (∀ j : Slot, t.slotLine[j] ≠ some l') →
    ∃ u : State, exec (.registerVec line' r) t = .next u ∧
      (u.resp = BitVec.ofNat 32 k.val ↔ ∀ j : Slot, j < k → t.slotLine[j] ≠ none)

/-! ## DISPATCH -/

/-- 44_dispatch R212: a non-vectored `DISPATCH` reads `IRQSTATUS` once, and services the lines of that snapshot in
ascending order, reading each table entry at the line's turn. -/
def Obligations.NonVectoredDispatchScansTheSnapshot : Prop :=
  (∀ (s : State) (snap : Word), s.dispatch = .idle → s.mode = .nonVectored →
    snap = (s.rawsrc ||| s.softInt) &&& s.intEnable &&& ~~~s.intSelect →
    (snap = 0#32 → exec .dispatch s =
      .next { s with resp := 0#32, trace := s.trace ++ [.regRead .irqStatus snap, .response 0#32] }) ∧
    (∀ i : Line, snap.getLsbD i.val = true → (∀ j : Line, j < i → snap.getLsbD j.val = false) → exec .dispatch s =
      .next { s with
        dispatch := .nonVectored snap i,
        trace := s.trace ++ [.regRead .irqStatus snap, .call s.nvTable[i]] })) ∧
  (∀ (s : State) (snap : Word) (i : Line), s.dispatch = .nonVectored snap i →
    ((∀ j : Line, i < j → snap.getLsbD j.val = false) → routineReturn s =
      .next { s with dispatch := .idle, resp := 0#32, trace := s.trace ++ [.ret, .response 0#32] }) ∧
    (∀ j : Line, i < j → snap.getLsbD j.val = true → (∀ h : Line, i < h → h < j → snap.getLsbD h.val = false) →
      routineReturn s =
        .next { s with dispatch := .nonVectored snap j, trace := s.trace ++ [.ret, .call s.nvTable[j]] }))

/-- 44_dispatch R212, R218: a whole non-vectored `DISPATCH` whose routines return without a move of their own: one call
per pending line, in ascending order, of its table entry, and nothing else changed. -/
def Obligations.WholeNonVectoredDispatch : Prop :=
  ∀ (s : State) (rest : List Move), s.job = none → s.dispatch = .idle → s.mode = .nonVectored →
    s.moves = .present (encode .dispatch) :: (List.replicate (linesOf s.irqStatus).length .routineReturn ++ rest) →
    runsTo (1 + (linesOf s.irqStatus).length) s { s with
      moves := rest, resp := 0#32,
      trace := s.trace ++ [.regRead .irqStatus s.irqStatus] ++
        (linesOf s.irqStatus).flatMap (fun i => [.call s.nvTable[i], .ret]) ++ [.response 0#32] }

/-- 44_dispatch R213: a vectored `DISPATCH`: one read of `VECTADDR`, one call of the address read, one write of
`EOI_SENTINEL`; a read while `in_service = 1` is `fault(vectaddr_read_twice)`. -/
def Obligations.VectoredDispatchReadsCallsWrites : Prop :=
  (∀ a b : Word, decode (packFields 0x13#8 a b) = .ok .dispatch) ∧
  (∀ s : State, s.dispatch = .idle → s.mode = .vectored →
    (s.inService = false → exec .dispatch s =
      .next { s with
        inService := true, dispatch := .vectored,
        trace := s.trace ++ [.regRead .vectAddr s.curVect, .call s.curVect] }) ∧
    (s.inService = true → exec .dispatch s = .fault .vectaddrReadTwice)) ∧
  (∀ s : State, s.dispatch = .vectored → routineReturn s =
    .next { s with
      inService := false, dispatch := .idle, resp := 0#32,
      trace := s.trace ++ [.ret, .regWrite .vectAddr s.params.eoiSentinel, .response 0#32] })

/-- 10_state R34: the multiplexer returns the address of the lowest-numbered enabled slot whose line is in `IRQSTATUS`,
else `DEFVECTADDR`; a read of `VECTADDR` returns it and sets `in_service`, or faults if that is set; a write clears
`in_service` and stores nothing. -/
def Obligations.MultiplexerPicksTheLowestMatchingSlot : Prop :=
  ∀ (s : State) (live : Slot → Prop),
    (∀ k : Slot, live k ↔ s.vectCntl[k].getLsbD 5 = true ∧
      ((s.rawsrc ||| s.softInt) &&& s.intEnable &&& ~~~s.intSelect).getLsbD
        (s.vectCntl[k].extractLsb' 0 5).toNat = true) →
    (∀ k : Slot, live k → (∀ j : Slot, j < k → ¬ live j) → s.curVect = s.vectAddr[k]) ∧
    ((∀ k : Slot, ¬ live k) → s.curVect = s.defVectAddr) ∧
    (s.inService = true → s.regRead .vectAddr = .error .vectaddrReadTwice) ∧
    (s.inService = false → s.regRead .vectAddr =
      .ok (s.curVect, { s with inService := true, trace := s.trace ++ [.regRead .vectAddr s.curVect] })) ∧
    ∀ v : Word, s.regWrite .vectAddr v =
      { s with inService := false, trace := s.trace ++ [.regWrite .vectAddr v] }

/-- 44_dispatch R217: `DISPATCH` and `RELOCATE` inside a service routine are model faults. -/
def Obligations.ReentryFaults : Prop :=
  ∀ s : State, s.dispBusy = true →
    exec .dispatch s = .fault .dispatchReentered ∧ exec .relocate s = .fault .relocateInHandler

/-- 44_dispatch R211, R216: while a `DISPATCH` is in progress, nothing but a return moves it: any other move leaves its
snapshot, its position and `disp_busy` as they are. -/
def Obligations.OnlyAReturnMovesADispatch : Prop :=
  ∀ s t : State, s.dispBusy = true → step s = .next t → s.moves.head? ≠ some .routineReturn → t.dispatch = s.dispatch

/-- 44_dispatch R219 (d), (e): after `REGISTER_VEC L, r` and `ENABLE L`, with `L` the only pending IRQ line, a vectored
`DISPATCH` invokes `r`; after `UNREGISTER_VEC L` the same situation invokes `DEFVECTADDR`. The slots are as the engine
keeps them (10_state R46, R47). -/
def Obligations.RegisteredLineIsServedByItsRoutine : Prop :=
  ∀ (s t1 t2 : State) (l : Line) (line r : Word), s.slotsConsistent → s.slotsDistinct → s.mode = .vectored →
    s.dispatch = .idle → s.inService = false → line.toNat = l.val → r ≠ 0#32 →
    exec (.registerVec line r) s = .next t1 → t1.resp ≠ 0xFFFFFFFF#32 → exec (.enable line) t1 = .next t2 →
    t2.irqStatus = 1#32 <<< l.val →
    (∃ t3 : State, exec .dispatch t2 = .next t3 ∧ t3.trace = t2.trace ++ [.regRead .vectAddr r, .call r]) ∧
    ∃ t4 t5 : State, exec (.unregisterVec line) t2 = .next t4 ∧ exec .dispatch t4 = .next t5 ∧
      t5.trace = t4.trace ++ [.regRead .vectAddr s.defVectAddr, .call s.defVectAddr]

/-- 44_dispatch R221: neither a `DISPATCH` nor its continuation clears a request, an enable or a table, or writes
`INTENCLEAR` or `SOFTINTCLEAR`. -/
def Obligations.DispatchClearsNothing : Prop :=
  ∀ s t : State, exec .dispatch s = .next t ∨ routineReturn s = .next t →
    t.rawIntr = s.rawIntr ∧ t.intEnable = s.intEnable ∧ t.softInt = s.softInt ∧ t.intSelect = s.intSelect ∧
    t.nvTable = s.nvTable ∧ t.slotLine = s.slotLine ∧ t.vectAddr = s.vectAddr ∧ t.vectCntl = s.vectCntl ∧
    t.defVectAddr = s.defVectAddr ∧ t.mode = s.mode ∧ t.protection = s.protection ∧ (∀ a : Nat, t.byteAt a = s.byteAt a) ∧
    ∃ es : List Event, t.trace = s.trace ++ es ∧
      ∀ v : Word, Event.regWrite .intEnClear v ∉ es ∧ Event.regWrite .softIntClear v ∉ es

/-! ## Register-file access -/

/-- 45_regfile_access R231: `REG_READ` returns the register's value (nothing said of a write-only register's) with the
register's side effect, and faults on a misaligned or unmapped offset and on a second read of `VECTADDR`. That inside a
vectored `DISPATCH` a read of `VECTADDR` completes when a raw write has cleared `in_service` is the model's reading of
44_dispatch R216 (log 18). -/
def Obligations.RegReadReturnsTheRegister : Prop :=
  ∀ (off : Word) (s : State),
    (∀ b : Word, decode (packFields 0x14#8 off b) = .ok (.regRead off)) ∧
    (off.toNat % 4 ≠ 0 → exec (.regRead off) s = .fault .regMisaligned) ∧
    (off.toNat % 4 = 0 → registerAt s.params.offsets off = none → exec (.regRead off) s = .fault .regReserved) ∧
    ∀ r : Reg, off.toNat % 4 = 0 → registerAt s.params.offsets off = some r →
      (r = .vectAddr → s.inService = true → exec (.regRead off) s = .fault .vectaddrReadTwice) ∧
      ((r = .vectAddr → s.inService = false) → ∃ t : State, exec (.regRead off) s = .next t ∧
        (r = .irqStatus → t.resp = (s.rawsrc ||| s.softInt) &&& s.intEnable &&& ~~~s.intSelect) ∧
        (r = .fiqStatus → t.resp = (s.rawsrc ||| s.softInt) &&& s.intEnable &&& s.intSelect) ∧
        (r = .rawIntr → t.resp = s.rawsrc ||| s.softInt) ∧
        (r = .intSelect → t.resp = s.intSelect) ∧
        (r = .intEnable → t.resp = s.intEnable) ∧
        (r = .softInt → t.resp = s.softInt) ∧
        (r = .protection → t.resp = s.protection.setWidth 32) ∧
        (r = .vectAddr → t.resp = s.curVect) ∧
        (r = .defVectAddr → t.resp = s.defVectAddr) ∧
        (∀ k : Slot, r = .vectAddrN k → t.resp = s.vectAddr[k]) ∧
        (∀ k : Slot, r = .vectCntlN k → t.resp = (s.vectCntl[k]).setWidth 32) ∧
        t = { s with
          resp := t.resp, inService := s.inService || decide (r = .vectAddr), draws := t.draws,
          trace := s.trace ++ [.regRead r t.resp, .response t.resp] } ∧
        (r ≠ .intEnClear → r ≠ .softIntClear → t.draws = s.draws))

/-- 45_regfile_access R232: `REG_WRITE`, register by register. -/
def Obligations.RegWriteStoresByAccessKind : Prop :=
  ∀ (off v : Word) (s : State),
    decode (packFields 0x15#8 off v) = .ok (.regWrite off v) ∧
    (off.toNat % 4 ≠ 0 → exec (.regWrite off v) s = .fault .regMisaligned) ∧
    (off.toNat % 4 = 0 → registerAt s.params.offsets off = none → exec (.regWrite off v) s = .fault .regReserved) ∧
    ∀ (r : Reg) (u : State), off.toNat % 4 = 0 → registerAt s.params.offsets off = some r →
      u = { s with resp := 0#32, trace := s.trace ++ [.regWrite r v, .response 0#32] } →
      (r = .irqStatus ∨ r = .fiqStatus ∨ r = .rawIntr → exec (.regWrite off v) s = .next u) ∧
      (r = .intSelect → exec (.regWrite off v) s = .next { u with intSelect := v }) ∧
      (r = .intEnable → exec (.regWrite off v) s = .next { u with intEnable := s.intEnable ||| v }) ∧
      (r = .intEnClear → exec (.regWrite off v) s = .next { u with intEnable := s.intEnable &&& ~~~v }) ∧
      (r = .softInt → exec (.regWrite off v) s = .next { u with softInt := s.softInt ||| v }) ∧
      (r = .softIntClear → exec (.regWrite off v) s = .next { u with softInt := s.softInt &&& ~~~v }) ∧
      (r = .protection → exec (.regWrite off v) s = .next { u with protection := v.extractLsb' 0 1 }) ∧
      (r = .vectAddr → exec (.regWrite off v) s = .next { u with inService := false }) ∧
      (r = .defVectAddr → exec (.regWrite off v) s = .next { u with defVectAddr := v }) ∧
      (∀ k : Slot, r = .vectAddrN k → exec (.regWrite off v) s = .next { u with vectAddr := s.vectAddr.set k v }) ∧
      (∀ k : Slot, r = .vectCntlN k →
        exec (.regWrite off v) s = .next { u with vectCntl := s.vectCntl.set k (v.extractLsb' 0 6) })

/-- 45_regfile_access R233: a misaligned offset faults and an offset that is no register's faults, under any table; no
other command meets either fault. With the default offsets of 10_state R24 (a premise, as R24 asks) the aligned offsets
outside the map are exactly 0x024 to 0x02C, 0x038 to 0x0FC, 0x140 to 0x1FC and 0x240 and above. -/
def Obligations.OffsetsThatAreNotRegistersFault : Prop :=
  ∀ (off v : Word) (s : State),
    (off.toNat % 4 ≠ 0 →
      exec (.regRead off) s = .fault .regMisaligned ∧ exec (.regWrite off v) s = .fault .regMisaligned) ∧
    (off.toNat % 4 = 0 → (∀ r : Reg, offsetOf s.params.offsets r ≠ off) →
      exec (.regRead off) s = .fault .regReserved ∧ exec (.regWrite off v) s = .fault .regReserved) ∧
    (∀ i : Instr, exec i s = .fault .regMisaligned ∨ exec i s = .fault .regReserved →
      (∃ o, i = .regRead o) ∨ ∃ o w, i = .regWrite o w) ∧
    (s.params.offsets = defaultRegMap → off.toNat % 4 = 0 →
      ((0x024 ≤ off.toNat ∧ off.toNat ≤ 0x02C) ∨ (0x038 ≤ off.toNat ∧ off.toNat ≤ 0x0FC) ∨
        (0x140 ≤ off.toNat ∧ off.toNat ≤ 0x1FC) ∨ 0x240 ≤ off.toNat →
        exec (.regRead off) s = .fault .regReserved ∧ exec (.regWrite off v) s = .fault .regReserved) ∧
      (¬ ((0x024 ≤ off.toNat ∧ off.toNat ≤ 0x02C) ∨ (0x038 ≤ off.toNat ∧ off.toNat ≤ 0x0FC) ∨
        (0x140 ≤ off.toNat ∧ off.toNat ≤ 0x1FC) ∨ 0x240 ≤ off.toNat) →
        ∃ r : Reg, registerAt s.params.offsets off = some r ∧ offsetOf s.params.offsets r = off))

/-! ## RELOCATE -/

/-- 40_relocator R141, R150, R151, R153: the verdicts of `RELOCATE`, in the order of its tests; in every other case it
completes. -/
def Obligations.RelocateVerdictsInOrder : Prop :=
  (∀ a b : Word, decode (packFields 0x00#8 a b) = .ok .relocate) ∧
  ∀ s : State,
    (s.dispBusy = true → exec .relocate s = .fault .relocateInHandler) ∧
    (s.dispBusy = false → s.relocDone = true → exec .relocate s = .fault .relocateTwice) ∧
    (s.dispBusy = false → s.relocDone = false → ¬ relocAligned s.params → exec .relocate s = .fault .relocMisaligned) ∧
    (s.relocReady → ¬ relocNoOp s.params → relocMeetsVic s.params → exec .relocate s = .fault .relocHitsVic) ∧
    (s.relocReady → relocNoOp s.params ∨ ¬ relocMeetsVic s.params → ∃ t : State, exec .relocate s = .next t ∧
      t = { s with mem := t.mem, relocState := .idle, relocDone := true, resp := 0#32, trace := t.trace })

/-- 40_relocator R144: the two no-op cases: no memory access, `reloc_done` set, `RESP = 0`; case (b) is exactly a
destination range that would reach the top of the address space, and an accepted copy writes no word above 0xFFFFFFF8. -/
def Obligations.RelocateNoOpCases : Prop :=
  ∀ s : State, s.relocReady →
    (relocNoOp s.params → exec .relocate s =
      .next { s with relocState := .idle, relocDone := true, resp := 0#32, trace := s.trace ++ [.response 0#32] }) ∧
    (blockLen s.params > 0xFFFFFFFF - s.params.dstStart.toNat ↔ s.params.dstStart.toNat + blockLen s.params ≥ 2 ^ 32) ∧
    (¬ relocNoOp s.params → s.params.dstStart.toNat + blockLen s.params ≤ 0xFFFFFFF8 + 4)

/-- 40_relocator R148: after a copy every word of the destination holds the word its source word held before, in every
overlap, and every byte outside the destination range is unchanged. -/
def Obligations.RelocateCopiesTheBlock : Prop :=
  ∀ s : State, Memory.wf s.mem → s.relocReady → ¬ relocNoOp s.params → ¬ relocMeetsVic s.params →
    ∃ t : State, exec .relocate s = .next t ∧ Memory.wf t.mem ∧
      (∀ k : Nat, 4 * k < blockLen s.params →
        t.wordAt (s.params.dstStart.toNat + 4 * k) = s.wordAt (sourceLo s.params + 4 * k)) ∧
      (∀ a : Nat, a < s.params.dstStart.toNat ∨ s.params.dstStart.toNat + blockLen s.params ≤ a →
        t.byteAt a = s.byteAt a) ∧
      t = { s with mem := t.mem, relocState := .idle, relocDone := true, resp := 0#32, trace := t.trace }

/-- 40_relocator R145, R146, R147: the accesses of a copy in order: forward, word 0 to word N-1, when the destination
starts below the source or at or past its end; backward, word N-1 to word 0, otherwise; each word read as it was before
the command. -/
def Obligations.RelocateAccessesInOrder : Prop :=
  ∀ s : State, Memory.wf s.mem → s.relocReady → ¬ relocNoOp s.params → ¬ relocMeetsVic s.params →
    (s.params.dstStart.toNat < sourceLo s.params ∨ sourceHi s.params ≤ s.params.dstStart.toNat →
      ∃ t : State, exec .relocate s = .next t ∧
        t.trace = s.trace ++ (List.range (blockLen s.params / 4)).flatMap (copyStepTrace s) ++ [.response 0#32]) ∧
    (sourceLo s.params < s.params.dstStart.toNat ∧ s.params.dstStart.toNat < sourceHi s.params →
      ∃ t : State, exec .relocate s = .next t ∧
        t.trace = s.trace ++ (List.range (blockLen s.params / 4)).reverse.flatMap (copyStepTrace s) ++ [.response 0#32])

/-- 40_relocator R150, 10_state R43: `reloc_done` is set by a `RELOCATE` that completes, no step clears it, and a
`RELOCATE` after it is `fault(relocate_twice)`. -/
def Obligations.RelocateOnlyOnce : Prop :=
  (∀ s t : State, exec .relocate s = .next t → t.relocDone = true ∧ exec .relocate t = .fault .relocateTwice) ∧
  (∀ s : State, s.relocDone = true → s.dispBusy = false → exec .relocate s = .fault .relocateTwice) ∧
  (∀ s t : State, s.relocDone = true → step s = .next t → t.relocDone = true)

/-! ## Whole-machine rules -/

/-- 41_mode_and_init R160: the complete transition table of the mode; and the mode changes nothing but which branch a
`DISPATCH` starts: every other command, the return of a routine and the multiplexer do not see it. A step that presents
no command leaves the mode, but for the last access of a command run access by access, which sets the command's (log 3). -/
def Obligations.ModeTransitionTable : Prop :=
  State.reset.mode = .nonVectored ∧
  ∀ s t : State,
    (exec .init s = .next t → t.mode = .nonVectored) ∧
    (exec (.setMode 0#32) s = .next t → t.mode = .nonVectored) ∧
    (exec (.setMode 1#32) s = .next t → t.mode = .vectored) ∧
    (∀ i : Instr, i ≠ .init → i ≠ .setMode 0#32 → i ≠ .setMode 1#32 → exec i s = .next t → t.mode = s.mode) ∧
    (∀ a : Word, 2 ≤ a.toNat → exec (.setMode a) s = .next t → t.mode = s.mode) ∧
    (step s = .next t → s.nextCommand = none → t.mode = s.mode ∨ ∃ j, s.job = some j ∧ t.job = none ∧ t.mode = j.mode) ∧
    (∀ i : Instr, step s = .next t → s.nextCommand = some i → ∃ u : State, exec i { s with moves := s.moves.tail } = .next u ∧
      (t.mode = u.mode ∨ (t.mode = s.mode ∧ ∃ j, t.job = some j ∧ j.mode = u.mode))) ∧
    ∀ m : Mode, { s with mode := m }.curVect = s.curVect ∧
      (routineReturn s = .next t → routineReturn { s with mode := m } = .next { t with mode := m }) ∧
      ∀ i : Instr, i ≠ .init → (∀ a, i ≠ .setMode a) → i ≠ .dispatch → exec i s = .next t →
        exec i { s with mode := m } = .next { t with mode := m }

/-- 10_state R38: `in_service` becomes 1 only by a read of `VECTADDR` and 0 only by a write of it; it has no effect on
`irq_out`, `fiq_out` or `CurVect()`, and every command and every return that does not access `VECTADDR` does the same
whatever it is; a return that writes `VECTADDR` clears it whatever it was. -/
def Obligations.InServiceIsTheHandshake : Prop :=
  (∀ (i : Instr) (s t : State), exec i s = .next t →
    ((∃ v, Event.regRead .vectAddr v ∈ t.trace.drop s.trace.length) → t.inService = true) ∧
    ((∃ v, Event.regWrite .vectAddr v ∈ t.trace.drop s.trace.length) → t.inService = false) ∧
    ((∀ v, Event.regRead .vectAddr v ∉ t.trace.drop s.trace.length ∧
      Event.regWrite .vectAddr v ∉ t.trace.drop s.trace.length) →
      t.inService = s.inService ∧ ∀ b : Bool, exec i { s with inService := b } = .next { t with inService := b })) ∧
  (∀ s t : State, routineReturn s = .next t →
    (s.dispatch = .vectored → t.inService = false ∧ ∀ b : Bool, routineReturn { s with inService := b } = .next t) ∧
    (s.dispatch ≠ .vectored → t.inService = s.inService ∧
      ∀ b : Bool, routineReturn { s with inService := b } = .next { t with inService := b })) ∧
  ∀ (s : State) (b : Bool), { s with inService := b }.irqOut = s.irqOut ∧ { s with inService := b }.fiqOut = s.fiqOut ∧
    { s with inService := b }.curVect = s.curVect ∧
    (s.inService = true → s.regRead .vectAddr = .error .vectaddrReadTwice)

/-- 10_state R21, R28, R29, R31, R33, R35 to R38, R40 to R43: each piece of state changes only by the commands the spec names
for it, in each register a raw `REG_WRITE` to it included; the inputs, the configuration and the pending moves by none;
and the return of a routine changes `in_service`, the position of the `DISPATCH` and the response alone. -/
def Obligations.EachStateHasItsWriters : Prop :=
  (∀ (i : Instr) (s t : State) (wrote : Reg → Prop), exec i s = .next t →
    (∀ r, wrote r ↔ ∃ off v, i = .regWrite off v ∧ registerAt s.params.offsets off = some r) →
    t.rawsrc = s.rawsrc ∧ t.params = s.params ∧ t.moves = s.moves ∧ t.job = s.job ∧
    (t.intSelect ≠ s.intSelect → i = .init ∨ (∃ l k, i = .setType l k) ∨ wrote .intSelect) ∧
    (t.intEnable ≠ s.intEnable →
      i = .init ∨ (∃ l, i = .enable l) ∨ (∃ l, i = .disable l) ∨ i = .disableAll ∨ wrote .intEnable ∨ wrote .intEnClear) ∧
    (t.softInt ≠ s.softInt →
      i = .init ∨ i = .swiTrigger ∨ i = .swiClear ∨ wrote .softInt ∨ wrote .softIntClear) ∧
    (t.protection ≠ s.protection → wrote .protection) ∧
    (t.defVectAddr ≠ s.defVectAddr → i = .init ∨ (∃ r, i = .setDefaultVec r) ∨ wrote .defVectAddr) ∧
    (∀ k : Slot, t.vectAddr[k] ≠ s.vectAddr[k] →
      i = .init ∨ (∃ l r, i = .registerVec l r) ∨ (∃ l, i = .unregisterVec l) ∨ i = .unregisterAllVec ∨
      wrote (.vectAddrN k)) ∧
    (∀ k : Slot, t.vectCntl[k] ≠ s.vectCntl[k] →
      i = .init ∨ (∃ l r, i = .registerVec l r) ∨ (∃ l, i = .unregisterVec l) ∨ i = .unregisterAllVec ∨
      (∃ l, i = .enableVec l) ∨ (∃ l, i = .disableVec l) ∨ i = .disableAllVec ∨ wrote (.vectCntlN k)) ∧
    (t.inService ≠ s.inService → i = .dispatch ∨ wrote .vectAddr ∨
      ∃ off, i = .regRead off ∧ registerAt s.params.offsets off = some .vectAddr) ∧
    (t.nvTable ≠ s.nvTable → i = .init ∨ ∃ l r, i = .registerNv l r) ∧
    (t.slotLine ≠ s.slotLine →
      i = .init ∨ (∃ l r, i = .registerVec l r) ∨ (∃ l, i = .unregisterVec l) ∨ i = .unregisterAllVec) ∧
    (t.mode ≠ s.mode → i = .init ∨ ∃ a, i = .setMode a) ∧
    (t.relocDone ≠ s.relocDone → i = .relocate) ∧ (t.relocState ≠ s.relocState → i = .relocate) ∧
    (t.mem ≠ s.mem → i = .relocate) ∧ (t.dispatch ≠ s.dispatch → i = .dispatch)) ∧
  ∀ s t : State, routineReturn s = .next t →
    t = { s with inService := t.inService, dispatch := t.dispatch, resp := t.resp, trace := t.trace }

/-- 20_memory R80, R81: only `RELOCATE` reaches system memory: every other command, and the return of a routine, leaves
every byte as it was and performs no read or write of the memory port. -/
def Obligations.OnlyRelocateStores : Prop :=
  ∀ s t : State, (∃ i : Instr, i ≠ .relocate ∧ exec i s = .next t) ∨ routineReturn s = .next t →
    (∀ a : Nat, t.byteAt a = s.byteAt a) ∧
    ∃ es : List Event, t.trace = s.trace ++ es ∧ ∀ e ∈ es, e.isMemAccess = false

/-- 70_reset_and_hazards R282: no command but a raw `REG_READ` reads a write-only register, and none but a raw
`REG_WRITE` writes a read-only one; observations are only ever appended. -/
def Obligations.AccessKindsAreRespected : Prop :=
  (∀ (i : Instr) (s t : State), exec i s = .next t → ∃ es : List Event, t.trace = s.trace ++ es ∧
    ((∀ off, i ≠ .regRead off) → ∀ e ∈ es, e.readsWriteOnly = false) ∧
    ((∀ off v, i ≠ .regWrite off v) → ∀ e ∈ es, e.writesReadOnly = false)) ∧
  ∀ s t : State, routineReturn s = .next t → ∃ es : List Event, t.trace = s.trace ++ es ∧
    ∀ e ∈ es, e.readsWriteOnly = false ∧ e.writesReadOnly = false

/-- 30_encoding R116: a command that completes returns exactly one response, last; only a `DISPATCH` that waits for a
routine has returned none yet. -/
def Obligations.OneResponsePerCommand : Prop :=
  ∀ (i : Instr) (s t : State), exec i s = .next t →
    (i ≠ .dispatch ∨ t.dispBusy = false → ∃ es : List Event, t.trace = s.trace ++ es ++ [.response t.resp] ∧
      ∀ e ∈ es, e.isResponse = false) ∧
    (i = .dispatch → t.dispBusy = true → ∃ es : List Event, t.trace = s.trace ++ es ∧ t.resp = s.resp ∧
      ∀ e ∈ es, e.isResponse = false)

/-- 10_state R25, R26, R39: a read of a status register has no side effect and gives its formula; a line raises `irq_out`
exactly when it is requested, enabled and of type IRQ, and `fiq_out` exactly when it is requested, enabled and of type
FIQ; no line is in both status words. -/
def Obligations.OutputsFollowThePendingLines : Prop :=
  ∀ s : State,
    (s.irqOut = true ↔ ∃ i : Line, (s.rawsrc.getLsbD i.val = true ∨ s.softInt.getLsbD i.val = true) ∧
      s.intEnable.getLsbD i.val = true ∧ s.intSelect.getLsbD i.val = false) ∧
    (s.fiqOut = true ↔ ∃ i : Line, (s.rawsrc.getLsbD i.val = true ∨ s.softInt.getLsbD i.val = true) ∧
      s.intEnable.getLsbD i.val = true ∧ s.intSelect.getLsbD i.val = true) ∧
    s.irqStatus &&& s.fiqStatus = 0#32 ∧
    (∀ v : Word, v = (s.rawsrc ||| s.softInt) &&& s.intEnable &&& ~~~s.intSelect →
      s.regRead .irqStatus = .ok (v, { s with trace := s.trace ++ [.regRead .irqStatus v] }) ∧
      (s.irqOut = true ↔ v ≠ 0#32)) ∧
    ∀ v : Word, v = (s.rawsrc ||| s.softInt) &&& s.intEnable &&& s.intSelect →
      s.regRead .fiqStatus = .ok (v, { s with trace := s.trace ++ [.regRead .fiqStatus v] }) ∧
      (s.fiqOut = true ↔ v ≠ 0#32)

/-- 60_exceptions R241: every rejected operand is a silent no-op with the response the table gives; the commands without an
operand reject nothing, and complete, `DISPATCH` and `RELOCATE` outside the verdicts of R242; `RELOCATE`'s two no-op
cases change nothing but `reloc_done` and the response. -/
def Obligations.RejectedOperandsDoNothing : Prop :=
  ∀ (l x : Word) (s : State) (zero fail : State),
    zero = { s with resp := 0#32, trace := s.trace ++ [.response 0#32] } →
    fail = { s with resp := 0xFFFFFFFF#32, trace := s.trace ++ [.response 0xFFFFFFFF#32] } →
    (2 ≤ x.toNat → exec (.setMode x) s = .next zero) ∧
    (32 ≤ l.toNat ∨ x = 0#32 → exec (.registerNv l x) s = .next zero) ∧
    (32 ≤ l.toNat → exec (.enable l) s = .next zero ∧ exec (.disable l) s = .next zero ∧
      exec (.isEnabled l) s = .next zero ∧ exec (.getType l) s = .next zero) ∧
    (32 ≤ l.toNat ∨ 2 ≤ x.toNat → exec (.setType l x) s = .next zero) ∧
    (32 ≤ l.toNat ∨ x = 0#32 → exec (.registerVec l x) s = .next fail) ∧
    ((∀ j : Slot, ∃ m : Line, s.slotLine[j] = some m ∧ m.val ≠ l.toNat) → exec (.registerVec l x) s = .next fail) ∧
    ((∀ (j : Slot) (m : Line), s.slotLine[j] = some m → m.val ≠ l.toNat) →
      exec (.unregisterVec l) s = .next zero ∧ exec (.disableVec l) s = .next zero ∧
      exec (.enableVec l) s = .next fail) ∧
    (x = 0#32 → exec (.setDefaultVec x) s = .next zero) ∧
    (∀ i : Instr, i = .init ∨ i = .disableAll ∨ i = .disableAllVec ∨ i = .unregisterAllVec ∨ i = .swiTrigger ∨
        i = .swiClear → ∃ t : State, exec i s = .next t) ∧
    (s.dispatch = .idle → s.mode = .nonVectored ∨ s.inService = false → ∃ t : State, exec .dispatch s = .next t) ∧
    (s.relocReady → ¬ relocMeetsVic s.params → ∃ t : State, exec .relocate s = .next t) ∧
    (s.relocReady → relocNoOp s.params → exec .relocate s = .next { zero with relocState := .idle, relocDone := true })

/-! ## Invariants -/

/-- 20_memory R81, 40_relocator R152, 44_dispatch R212: memory stays in canonical form, the relocator is idle outside a
command in progress, a `DISPATCH` in progress stands at a line of its snapshot, and a command in progress is sound (log
3): every step keeps it, from every state that has it. -/
def Obligations.StepKeepsTheInvariant : Prop :=
  ∀ s t : State, s.Inv → step s = .next t → t.Inv

/-- 10_state R46, R47: with a non-zero `DUMMY_ADDR`, every step whose command is no `REG_WRITE` to `VECTADDRn`,
`VECTCNTLn` or `DEFVECTADDR` keeps the slots consistent and the assignments distinct, and `INIT` establishes both from
any state. Where a command is between two of its accesses, this is said of the state it will leave (`settled`, log 3). -/
def Obligations.EngineKeepsTheSlotInvariants : Prop :=
  (∀ s t : State, s.params.dummyAddr ≠ 0#32 → exec .init s = .next t → t.slotsConsistent ∧ t.slotsDistinct) ∧
  ∀ s t : State, s.params.dummyAddr ≠ 0#32 → s.settled.slotsConsistent → s.settled.slotsDistinct → step s = .next t →
    (∀ i, s.nextCommand = some i → rawSlotWrite s.params i = false) → t.settled.slotsConsistent ∧ t.settled.slotsDistinct

/-- 44_dispatch R215: no step puts a null routine into the non-vectored table, and every address a step invokes is, for a
non-vectored `DISPATCH`, an entry of that table and never 0, whatever the slots hold; for a vectored one, while the slots
are as the engine keeps them, a slot address or the default address and never 0. -/
def Obligations.InvokedAddressesAreNeverNull : Prop :=
  ∀ s t : State, s.params.dummyAddr ≠ 0#32 → s.settled.tableNonNull → step s = .next t →
    t.settled.tableNonNull ∧
    ∀ a : Word, Event.call a ∈ t.trace.drop s.trace.length →
      (t.dispatch ≠ .vectored → a ≠ 0#32 ∧ ∃ i : Line, a = s.nvTable[i]) ∧
      (t.dispatch = .vectored → s.slotsConsistent →
        a ≠ 0#32 ∧ ((∃ k : Slot, a = s.vectAddr[k]) ∨ a = s.defVectAddr))

/-! ## Between two accesses of one command -/

/-- 00_scope R15, 20_memory R90, R92: a command presented to be run access by access, with any changes of `RAWSRC` in every gap
between two of its accesses, ends where the whole command ends, but for `RAWSRC`, which is what the sources drove last;
in between, one access per step is observed, in the command's order, `RAWSRC` is what the sources drove last, and the
command is in progress. The moves and the job are the model's (logs 1, 3). -/
def Obligations.AccessByAccessIsTheWholeCommand : Prop :=
  ∀ (s t : State) (cw : CommandWord) (i : Instr) (rest : List Move) (gaps : List (List Word)),
    s.job = none → decode cw = .ok i → i ≠ .dispatch → s.moves = .start cw :: (gaps.flatMap gapMoves ++ rest) →
    exec i { s with moves := gaps.flatMap gapMoves ++ rest } = .next t →
    gaps.length + 1 = (t.trace.drop s.trace.length).length →
    runsTo (1 + (gaps.flatMap gapMoves).length) s { t with rawsrc := gaps.flatten.getLastD s.rawsrc, moves := rest } ∧
    ∀ k : Nat, k < gaps.length → ∃ u : State, runsTo (1 + ((gaps.take k).flatMap gapMoves).length) s u ∧
      u.trace = s.trace ++ (t.trace.drop s.trace.length).take (k + 1) ∧
      u.rawsrc = (gaps.take k).flatten.getLastD s.rawsrc ∧ u.job ≠ none ∧ u.resp = s.resp ∧ u.dispatch = s.dispatch
end

