-- ==== Sys2Proof/Laws/State.lean ====
section
/-!
SUPPORT. The small lemmas of the state's updates: for each shared operation, each field after it. No later proof unfolds a
record update.
-/
namespace Sys2Proof.Machine

@[simp] theorem State.observe_params (s : State) (e : Event) : (s.observe e).params = s.params := rfl
@[simp] theorem State.observe_rawsrc (s : State) (e : Event) : (s.observe e).rawsrc = s.rawsrc := rfl
@[simp] theorem State.observe_intSelect (s : State) (e : Event) : (s.observe e).intSelect = s.intSelect := rfl
@[simp] theorem State.observe_intEnable (s : State) (e : Event) : (s.observe e).intEnable = s.intEnable := rfl
@[simp] theorem State.observe_softInt (s : State) (e : Event) : (s.observe e).softInt = s.softInt := rfl
@[simp] theorem State.observe_protection (s : State) (e : Event) : (s.observe e).protection = s.protection := rfl
@[simp] theorem State.observe_defVectAddr (s : State) (e : Event) : (s.observe e).defVectAddr = s.defVectAddr := rfl
@[simp] theorem State.observe_vectAddr (s : State) (e : Event) : (s.observe e).vectAddr = s.vectAddr := rfl
@[simp] theorem State.observe_vectCntl (s : State) (e : Event) : (s.observe e).vectCntl = s.vectCntl := rfl
@[simp] theorem State.observe_inService (s : State) (e : Event) : (s.observe e).inService = s.inService := rfl
@[simp] theorem State.observe_nvTable (s : State) (e : Event) : (s.observe e).nvTable = s.nvTable := rfl
@[simp] theorem State.observe_slotLine (s : State) (e : Event) : (s.observe e).slotLine = s.slotLine := rfl
@[simp] theorem State.observe_mode (s : State) (e : Event) : (s.observe e).mode = s.mode := rfl
@[simp] theorem State.observe_relocDone (s : State) (e : Event) : (s.observe e).relocDone = s.relocDone := rfl
@[simp] theorem State.observe_relocState (s : State) (e : Event) : (s.observe e).relocState = s.relocState := rfl
@[simp] theorem State.observe_dispatch (s : State) (e : Event) : (s.observe e).dispatch = s.dispatch := rfl
@[simp] theorem State.observe_job (s : State) (e : Event) : (s.observe e).job = s.job := rfl
@[simp] theorem State.observe_mem (s : State) (e : Event) : (s.observe e).mem = s.mem := rfl
@[simp] theorem State.observe_resp (s : State) (e : Event) : (s.observe e).resp = s.resp := rfl
@[simp] theorem State.observe_trace (s : State) (e : Event) : (s.observe e).trace = s.trace ++ [e] := rfl
@[simp] theorem State.observe_moves (s : State) (e : Event) : (s.observe e).moves = s.moves := rfl
@[simp] theorem State.observe_draws (s : State) (e : Event) : (s.observe e).draws = s.draws := rfl

@[simp] theorem State.respond_params (s : State) (v : Word) : (s.respond v).params = s.params := rfl
@[simp] theorem State.respond_rawsrc (s : State) (v : Word) : (s.respond v).rawsrc = s.rawsrc := rfl
@[simp] theorem State.respond_intSelect (s : State) (v : Word) : (s.respond v).intSelect = s.intSelect := rfl
@[simp] theorem State.respond_intEnable (s : State) (v : Word) : (s.respond v).intEnable = s.intEnable := rfl
@[simp] theorem State.respond_softInt (s : State) (v : Word) : (s.respond v).softInt = s.softInt := rfl
@[simp] theorem State.respond_protection (s : State) (v : Word) : (s.respond v).protection = s.protection := rfl
@[simp] theorem State.respond_defVectAddr (s : State) (v : Word) : (s.respond v).defVectAddr = s.defVectAddr := rfl
@[simp] theorem State.respond_vectAddr (s : State) (v : Word) : (s.respond v).vectAddr = s.vectAddr := rfl
@[simp] theorem State.respond_vectCntl (s : State) (v : Word) : (s.respond v).vectCntl = s.vectCntl := rfl
@[simp] theorem State.respond_inService (s : State) (v : Word) : (s.respond v).inService = s.inService := rfl
@[simp] theorem State.respond_nvTable (s : State) (v : Word) : (s.respond v).nvTable = s.nvTable := rfl
@[simp] theorem State.respond_slotLine (s : State) (v : Word) : (s.respond v).slotLine = s.slotLine := rfl
@[simp] theorem State.respond_mode (s : State) (v : Word) : (s.respond v).mode = s.mode := rfl
@[simp] theorem State.respond_relocDone (s : State) (v : Word) : (s.respond v).relocDone = s.relocDone := rfl
@[simp] theorem State.respond_relocState (s : State) (v : Word) : (s.respond v).relocState = s.relocState := rfl
@[simp] theorem State.respond_dispatch (s : State) (v : Word) : (s.respond v).dispatch = s.dispatch := rfl
@[simp] theorem State.respond_job (s : State) (v : Word) : (s.respond v).job = s.job := rfl
@[simp] theorem State.respond_mem (s : State) (v : Word) : (s.respond v).mem = s.mem := rfl
@[simp] theorem State.respond_resp (s : State) (v : Word) : (s.respond v).resp = v := rfl
@[simp] theorem State.respond_trace (s : State) (v : Word) : (s.respond v).trace = s.trace ++ [.response v] := rfl
@[simp] theorem State.respond_moves (s : State) (v : Word) : (s.respond v).moves = s.moves := rfl
@[simp] theorem State.respond_draws (s : State) (v : Word) : (s.respond v).draws = s.draws := rfl

@[simp] theorem State.invoke_params (s : State) (a : Word) (d : DispatchState) : (s.invoke a d).params = s.params := rfl
@[simp] theorem State.invoke_rawsrc (s : State) (a : Word) (d : DispatchState) : (s.invoke a d).rawsrc = s.rawsrc := rfl
@[simp] theorem State.invoke_intSelect (s : State) (a : Word) (d : DispatchState) : (s.invoke a d).intSelect = s.intSelect := rfl
@[simp] theorem State.invoke_intEnable (s : State) (a : Word) (d : DispatchState) : (s.invoke a d).intEnable = s.intEnable := rfl
@[simp] theorem State.invoke_softInt (s : State) (a : Word) (d : DispatchState) : (s.invoke a d).softInt = s.softInt := rfl
@[simp] theorem State.invoke_protection (s : State) (a : Word) (d : DispatchState) : (s.invoke a d).protection = s.protection := rfl
@[simp] theorem State.invoke_defVectAddr (s : State) (a : Word) (d : DispatchState) : (s.invoke a d).defVectAddr = s.defVectAddr := rfl
@[simp] theorem State.invoke_vectAddr (s : State) (a : Word) (d : DispatchState) : (s.invoke a d).vectAddr = s.vectAddr := rfl
@[simp] theorem State.invoke_vectCntl (s : State) (a : Word) (d : DispatchState) : (s.invoke a d).vectCntl = s.vectCntl := rfl
@[simp] theorem State.invoke_inService (s : State) (a : Word) (d : DispatchState) : (s.invoke a d).inService = s.inService := rfl
@[simp] theorem State.invoke_nvTable (s : State) (a : Word) (d : DispatchState) : (s.invoke a d).nvTable = s.nvTable := rfl
@[simp] theorem State.invoke_slotLine (s : State) (a : Word) (d : DispatchState) : (s.invoke a d).slotLine = s.slotLine := rfl
@[simp] theorem State.invoke_mode (s : State) (a : Word) (d : DispatchState) : (s.invoke a d).mode = s.mode := rfl
@[simp] theorem State.invoke_relocDone (s : State) (a : Word) (d : DispatchState) : (s.invoke a d).relocDone = s.relocDone := rfl
@[simp] theorem State.invoke_relocState (s : State) (a : Word) (d : DispatchState) : (s.invoke a d).relocState = s.relocState := rfl
@[simp] theorem State.invoke_dispatch (s : State) (a : Word) (d : DispatchState) : (s.invoke a d).dispatch = d := rfl
@[simp] theorem State.invoke_job (s : State) (a : Word) (d : DispatchState) : (s.invoke a d).job = s.job := rfl
@[simp] theorem State.invoke_mem (s : State) (a : Word) (d : DispatchState) : (s.invoke a d).mem = s.mem := rfl
@[simp] theorem State.invoke_resp (s : State) (a : Word) (d : DispatchState) : (s.invoke a d).resp = s.resp := rfl
@[simp] theorem State.invoke_trace (s : State) (a : Word) (d : DispatchState) : (s.invoke a d).trace = s.trace ++ [.call a] := rfl
@[simp] theorem State.invoke_moves (s : State) (a : Word) (d : DispatchState) : (s.invoke a d).moves = s.moves := rfl
@[simp] theorem State.invoke_draws (s : State) (a : Word) (d : DispatchState) : (s.invoke a d).draws = s.draws := rfl

@[simp] theorem State.finishDispatch_params (s : State) : (s.finishDispatch).params = s.params := rfl
@[simp] theorem State.finishDispatch_rawsrc (s : State) : (s.finishDispatch).rawsrc = s.rawsrc := rfl
@[simp] theorem State.finishDispatch_intSelect (s : State) : (s.finishDispatch).intSelect = s.intSelect := rfl
@[simp] theorem State.finishDispatch_intEnable (s : State) : (s.finishDispatch).intEnable = s.intEnable := rfl
@[simp] theorem State.finishDispatch_softInt (s : State) : (s.finishDispatch).softInt = s.softInt := rfl
@[simp] theorem State.finishDispatch_protection (s : State) : (s.finishDispatch).protection = s.protection := rfl
@[simp] theorem State.finishDispatch_defVectAddr (s : State) : (s.finishDispatch).defVectAddr = s.defVectAddr := rfl
@[simp] theorem State.finishDispatch_vectAddr (s : State) : (s.finishDispatch).vectAddr = s.vectAddr := rfl
@[simp] theorem State.finishDispatch_vectCntl (s : State) : (s.finishDispatch).vectCntl = s.vectCntl := rfl
@[simp] theorem State.finishDispatch_inService (s : State) : (s.finishDispatch).inService = s.inService := rfl
@[simp] theorem State.finishDispatch_nvTable (s : State) : (s.finishDispatch).nvTable = s.nvTable := rfl
@[simp] theorem State.finishDispatch_slotLine (s : State) : (s.finishDispatch).slotLine = s.slotLine := rfl
@[simp] theorem State.finishDispatch_mode (s : State) : (s.finishDispatch).mode = s.mode := rfl
@[simp] theorem State.finishDispatch_relocDone (s : State) : (s.finishDispatch).relocDone = s.relocDone := rfl
@[simp] theorem State.finishDispatch_relocState (s : State) : (s.finishDispatch).relocState = s.relocState := rfl
@[simp] theorem State.finishDispatch_dispatch (s : State) : (s.finishDispatch).dispatch = .idle := rfl
@[simp] theorem State.finishDispatch_job (s : State) : (s.finishDispatch).job = s.job := rfl
@[simp] theorem State.finishDispatch_mem (s : State) : (s.finishDispatch).mem = s.mem := rfl
@[simp] theorem State.finishDispatch_resp (s : State) : (s.finishDispatch).resp = 0#32 := rfl
@[simp] theorem State.finishDispatch_trace (s : State) : (s.finishDispatch).trace = s.trace ++ [.response 0#32] := rfl
@[simp] theorem State.finishDispatch_moves (s : State) : (s.finishDispatch).moves = s.moves := rfl
@[simp] theorem State.finishDispatch_draws (s : State) : (s.finishDispatch).draws = s.draws := rfl

@[simp] theorem State.afterMemRead_params (s : State) (a : Word) : (s.afterMemRead a).params = s.params := rfl
@[simp] theorem State.afterMemRead_rawsrc (s : State) (a : Word) : (s.afterMemRead a).rawsrc = s.rawsrc := rfl
@[simp] theorem State.afterMemRead_intSelect (s : State) (a : Word) : (s.afterMemRead a).intSelect = s.intSelect := rfl
@[simp] theorem State.afterMemRead_intEnable (s : State) (a : Word) : (s.afterMemRead a).intEnable = s.intEnable := rfl
@[simp] theorem State.afterMemRead_softInt (s : State) (a : Word) : (s.afterMemRead a).softInt = s.softInt := rfl
@[simp] theorem State.afterMemRead_protection (s : State) (a : Word) : (s.afterMemRead a).protection = s.protection := rfl
@[simp] theorem State.afterMemRead_defVectAddr (s : State) (a : Word) : (s.afterMemRead a).defVectAddr = s.defVectAddr := rfl
@[simp] theorem State.afterMemRead_vectAddr (s : State) (a : Word) : (s.afterMemRead a).vectAddr = s.vectAddr := rfl
@[simp] theorem State.afterMemRead_vectCntl (s : State) (a : Word) : (s.afterMemRead a).vectCntl = s.vectCntl := rfl
@[simp] theorem State.afterMemRead_inService (s : State) (a : Word) : (s.afterMemRead a).inService = s.inService := rfl
@[simp] theorem State.afterMemRead_nvTable (s : State) (a : Word) : (s.afterMemRead a).nvTable = s.nvTable := rfl
@[simp] theorem State.afterMemRead_slotLine (s : State) (a : Word) : (s.afterMemRead a).slotLine = s.slotLine := rfl
@[simp] theorem State.afterMemRead_mode (s : State) (a : Word) : (s.afterMemRead a).mode = s.mode := rfl
@[simp] theorem State.afterMemRead_relocDone (s : State) (a : Word) : (s.afterMemRead a).relocDone = s.relocDone := rfl
@[simp] theorem State.afterMemRead_relocState (s : State) (a : Word) : (s.afterMemRead a).relocState = s.relocState := rfl
@[simp] theorem State.afterMemRead_dispatch (s : State) (a : Word) : (s.afterMemRead a).dispatch = s.dispatch := rfl
@[simp] theorem State.afterMemRead_job (s : State) (a : Word) : (s.afterMemRead a).job = s.job := rfl
@[simp] theorem State.afterMemRead_mem (s : State) (a : Word) : (s.afterMemRead a).mem = s.mem := rfl
@[simp] theorem State.afterMemRead_resp (s : State) (a : Word) : (s.afterMemRead a).resp = s.resp := rfl
@[simp] theorem State.afterMemRead_trace (s : State) (a : Word) : (s.afterMemRead a).trace = s.trace ++ [.memRead a (s.wordAt a.toNat)] := rfl
@[simp] theorem State.afterMemRead_moves (s : State) (a : Word) : (s.afterMemRead a).moves = s.moves := rfl
@[simp] theorem State.afterMemRead_draws (s : State) (a : Word) : (s.afterMemRead a).draws = s.draws := rfl

@[simp] theorem State.memWrite_params (s : State) (a v : Word) : (s.memWrite a v).params = s.params := rfl
@[simp] theorem State.memWrite_rawsrc (s : State) (a v : Word) : (s.memWrite a v).rawsrc = s.rawsrc := rfl
@[simp] theorem State.memWrite_intSelect (s : State) (a v : Word) : (s.memWrite a v).intSelect = s.intSelect := rfl
@[simp] theorem State.memWrite_intEnable (s : State) (a v : Word) : (s.memWrite a v).intEnable = s.intEnable := rfl
@[simp] theorem State.memWrite_softInt (s : State) (a v : Word) : (s.memWrite a v).softInt = s.softInt := rfl
@[simp] theorem State.memWrite_protection (s : State) (a v : Word) : (s.memWrite a v).protection = s.protection := rfl
@[simp] theorem State.memWrite_defVectAddr (s : State) (a v : Word) : (s.memWrite a v).defVectAddr = s.defVectAddr := rfl
@[simp] theorem State.memWrite_vectAddr (s : State) (a v : Word) : (s.memWrite a v).vectAddr = s.vectAddr := rfl
@[simp] theorem State.memWrite_vectCntl (s : State) (a v : Word) : (s.memWrite a v).vectCntl = s.vectCntl := rfl
@[simp] theorem State.memWrite_inService (s : State) (a v : Word) : (s.memWrite a v).inService = s.inService := rfl
@[simp] theorem State.memWrite_nvTable (s : State) (a v : Word) : (s.memWrite a v).nvTable = s.nvTable := rfl
@[simp] theorem State.memWrite_slotLine (s : State) (a v : Word) : (s.memWrite a v).slotLine = s.slotLine := rfl
@[simp] theorem State.memWrite_mode (s : State) (a v : Word) : (s.memWrite a v).mode = s.mode := rfl
@[simp] theorem State.memWrite_relocDone (s : State) (a v : Word) : (s.memWrite a v).relocDone = s.relocDone := rfl
@[simp] theorem State.memWrite_relocState (s : State) (a v : Word) : (s.memWrite a v).relocState = s.relocState := rfl
@[simp] theorem State.memWrite_dispatch (s : State) (a v : Word) : (s.memWrite a v).dispatch = s.dispatch := rfl
@[simp] theorem State.memWrite_job (s : State) (a v : Word) : (s.memWrite a v).job = s.job := rfl
@[simp] theorem State.memWrite_mem (s : State) (a v : Word) : (s.memWrite a v).mem = Memory.writeWord s.mem a.toNat v := rfl
@[simp] theorem State.memWrite_resp (s : State) (a v : Word) : (s.memWrite a v).resp = s.resp := rfl
@[simp] theorem State.memWrite_trace (s : State) (a v : Word) : (s.memWrite a v).trace = s.trace ++ [.memWrite a v] := rfl
@[simp] theorem State.memWrite_moves (s : State) (a v : Word) : (s.memWrite a v).moves = s.moves := rfl
@[simp] theorem State.memWrite_draws (s : State) (a v : Word) : (s.memWrite a v).draws = s.draws := rfl

@[simp] theorem State.driveSources_params (s : State) (v : Word) : (driveSources v s).params = s.params := rfl
@[simp] theorem State.driveSources_rawsrc (s : State) (v : Word) : (driveSources v s).rawsrc = v := rfl
@[simp] theorem State.driveSources_intSelect (s : State) (v : Word) : (driveSources v s).intSelect = s.intSelect := rfl
@[simp] theorem State.driveSources_intEnable (s : State) (v : Word) : (driveSources v s).intEnable = s.intEnable := rfl
@[simp] theorem State.driveSources_softInt (s : State) (v : Word) : (driveSources v s).softInt = s.softInt := rfl
@[simp] theorem State.driveSources_protection (s : State) (v : Word) : (driveSources v s).protection = s.protection := rfl
@[simp] theorem State.driveSources_defVectAddr (s : State) (v : Word) : (driveSources v s).defVectAddr = s.defVectAddr := rfl
@[simp] theorem State.driveSources_vectAddr (s : State) (v : Word) : (driveSources v s).vectAddr = s.vectAddr := rfl
@[simp] theorem State.driveSources_vectCntl (s : State) (v : Word) : (driveSources v s).vectCntl = s.vectCntl := rfl
@[simp] theorem State.driveSources_inService (s : State) (v : Word) : (driveSources v s).inService = s.inService := rfl
@[simp] theorem State.driveSources_nvTable (s : State) (v : Word) : (driveSources v s).nvTable = s.nvTable := rfl
@[simp] theorem State.driveSources_slotLine (s : State) (v : Word) : (driveSources v s).slotLine = s.slotLine := rfl
@[simp] theorem State.driveSources_mode (s : State) (v : Word) : (driveSources v s).mode = s.mode := rfl
@[simp] theorem State.driveSources_relocDone (s : State) (v : Word) : (driveSources v s).relocDone = s.relocDone := rfl
@[simp] theorem State.driveSources_relocState (s : State) (v : Word) : (driveSources v s).relocState = s.relocState := rfl
@[simp] theorem State.driveSources_dispatch (s : State) (v : Word) : (driveSources v s).dispatch = s.dispatch := rfl
@[simp] theorem State.driveSources_job (s : State) (v : Word) : (driveSources v s).job = s.job := rfl
@[simp] theorem State.driveSources_mem (s : State) (v : Word) : (driveSources v s).mem = s.mem := rfl
@[simp] theorem State.driveSources_resp (s : State) (v : Word) : (driveSources v s).resp = s.resp := rfl
@[simp] theorem State.driveSources_trace (s : State) (v : Word) : (driveSources v s).trace = s.trace := rfl
@[simp] theorem State.driveSources_moves (s : State) (v : Word) : (driveSources v s).moves = s.moves := rfl
@[simp] theorem State.driveSources_draws (s : State) (v : Word) : (driveSources v s).draws = s.draws := rfl

@[simp] theorem State.placeCommand_params (s : State) (cw : CommandWord) : (placeCommand cw s).params = s.params := rfl
@[simp] theorem State.placeCommand_rawsrc (s : State) (cw : CommandWord) : (placeCommand cw s).rawsrc = s.rawsrc := rfl
@[simp] theorem State.placeCommand_intSelect (s : State) (cw : CommandWord) : (placeCommand cw s).intSelect = s.intSelect := rfl
@[simp] theorem State.placeCommand_intEnable (s : State) (cw : CommandWord) : (placeCommand cw s).intEnable = s.intEnable := rfl
@[simp] theorem State.placeCommand_softInt (s : State) (cw : CommandWord) : (placeCommand cw s).softInt = s.softInt := rfl
@[simp] theorem State.placeCommand_protection (s : State) (cw : CommandWord) : (placeCommand cw s).protection = s.protection := rfl
@[simp] theorem State.placeCommand_defVectAddr (s : State) (cw : CommandWord) : (placeCommand cw s).defVectAddr = s.defVectAddr := rfl
@[simp] theorem State.placeCommand_vectAddr (s : State) (cw : CommandWord) : (placeCommand cw s).vectAddr = s.vectAddr := rfl
@[simp] theorem State.placeCommand_vectCntl (s : State) (cw : CommandWord) : (placeCommand cw s).vectCntl = s.vectCntl := rfl
@[simp] theorem State.placeCommand_inService (s : State) (cw : CommandWord) : (placeCommand cw s).inService = s.inService := rfl
@[simp] theorem State.placeCommand_nvTable (s : State) (cw : CommandWord) : (placeCommand cw s).nvTable = s.nvTable := rfl
@[simp] theorem State.placeCommand_slotLine (s : State) (cw : CommandWord) : (placeCommand cw s).slotLine = s.slotLine := rfl
@[simp] theorem State.placeCommand_mode (s : State) (cw : CommandWord) : (placeCommand cw s).mode = s.mode := rfl
@[simp] theorem State.placeCommand_relocDone (s : State) (cw : CommandWord) : (placeCommand cw s).relocDone = s.relocDone := rfl
@[simp] theorem State.placeCommand_relocState (s : State) (cw : CommandWord) : (placeCommand cw s).relocState = s.relocState := rfl
@[simp] theorem State.placeCommand_dispatch (s : State) (cw : CommandWord) : (placeCommand cw s).dispatch = s.dispatch := rfl
@[simp] theorem State.placeCommand_job (s : State) (cw : CommandWord) : (placeCommand cw s).job = none := rfl
@[simp] theorem State.placeCommand_mem (s : State) (cw : CommandWord) : (placeCommand cw s).mem = s.mem := rfl
@[simp] theorem State.placeCommand_resp (s : State) (cw : CommandWord) : (placeCommand cw s).resp = s.resp := rfl
@[simp] theorem State.placeCommand_trace (s : State) (cw : CommandWord) : (placeCommand cw s).trace = s.trace := rfl
@[simp] theorem State.placeCommand_moves (s : State) (cw : CommandWord) : (placeCommand cw s).moves = .present cw :: s.moves := rfl
@[simp] theorem State.placeCommand_draws (s : State) (cw : CommandWord) : (placeCommand cw s).draws = s.draws := rfl

/-! A read of a register changes at most `in_service`, the draw counter and the trace (10_state R34, 20_memory R87). -/

@[simp] theorem State.afterRead_params (s : State) (r : Reg) : (s.afterRead r).params = s.params := by cases r <;> rfl
@[simp] theorem State.afterRead_rawsrc (s : State) (r : Reg) : (s.afterRead r).rawsrc = s.rawsrc := by cases r <;> rfl
@[simp] theorem State.afterRead_intSelect (s : State) (r : Reg) : (s.afterRead r).intSelect = s.intSelect := by cases r <;> rfl
@[simp] theorem State.afterRead_intEnable (s : State) (r : Reg) : (s.afterRead r).intEnable = s.intEnable := by cases r <;> rfl
@[simp] theorem State.afterRead_softInt (s : State) (r : Reg) : (s.afterRead r).softInt = s.softInt := by cases r <;> rfl
@[simp] theorem State.afterRead_protection (s : State) (r : Reg) : (s.afterRead r).protection = s.protection := by cases r <;> rfl
@[simp] theorem State.afterRead_defVectAddr (s : State) (r : Reg) : (s.afterRead r).defVectAddr = s.defVectAddr := by cases r <;> rfl
@[simp] theorem State.afterRead_vectAddr (s : State) (r : Reg) : (s.afterRead r).vectAddr = s.vectAddr := by cases r <;> rfl
@[simp] theorem State.afterRead_vectCntl (s : State) (r : Reg) : (s.afterRead r).vectCntl = s.vectCntl := by cases r <;> rfl
@[simp] theorem State.afterRead_nvTable (s : State) (r : Reg) : (s.afterRead r).nvTable = s.nvTable := by cases r <;> rfl
@[simp] theorem State.afterRead_slotLine (s : State) (r : Reg) : (s.afterRead r).slotLine = s.slotLine := by cases r <;> rfl
@[simp] theorem State.afterRead_mode (s : State) (r : Reg) : (s.afterRead r).mode = s.mode := by cases r <;> rfl
@[simp] theorem State.afterRead_relocDone (s : State) (r : Reg) : (s.afterRead r).relocDone = s.relocDone := by cases r <;> rfl
@[simp] theorem State.afterRead_relocState (s : State) (r : Reg) : (s.afterRead r).relocState = s.relocState := by cases r <;> rfl
@[simp] theorem State.afterRead_dispatch (s : State) (r : Reg) : (s.afterRead r).dispatch = s.dispatch := by cases r <;> rfl
@[simp] theorem State.afterRead_job (s : State) (r : Reg) : (s.afterRead r).job = s.job := by cases r <;> rfl
@[simp] theorem State.afterRead_mem (s : State) (r : Reg) : (s.afterRead r).mem = s.mem := by cases r <;> rfl
@[simp] theorem State.afterRead_resp (s : State) (r : Reg) : (s.afterRead r).resp = s.resp := by cases r <;> rfl
@[simp] theorem State.afterRead_moves (s : State) (r : Reg) : (s.afterRead r).moves = s.moves := by cases r <;> rfl
@[simp] theorem State.afterRead_trace (s : State) (r : Reg) :
    (s.afterRead r).trace = s.trace ++ [.regRead r (s.readValue r)] := by cases r <;> rfl
theorem State.afterRead_inService (s : State) (r : Reg) :
    (s.afterRead r).inService = (s.inService || decide (r = .vectAddr)) := by
  cases r <;> simp [State.afterRead, State.readEffect]
theorem State.afterRead_draws (s : State) (r : Reg) :
    (s.afterRead r).draws = if r = .intEnClear ∨ r = .softIntClear then s.draws + 1 else s.draws := by
  cases r <;> simp [State.afterRead, State.readEffect]

/-! The registers the engine's commands read have no side effect on a read (20_memory R87). -/

@[simp] theorem State.afterRead_irqStatus_inService (s : State) : (s.afterRead .irqStatus).inService = s.inService := rfl
@[simp] theorem State.afterRead_irqStatus_draws (s : State) : (s.afterRead .irqStatus).draws = s.draws := rfl
@[simp] theorem State.afterRead_intSelect_inService (s : State) : (s.afterRead .intSelect).inService = s.inService := rfl
@[simp] theorem State.afterRead_intSelect_draws (s : State) : (s.afterRead .intSelect).draws = s.draws := rfl
@[simp] theorem State.afterRead_intEnable_inService (s : State) : (s.afterRead .intEnable).inService = s.inService := rfl
@[simp] theorem State.afterRead_intEnable_draws (s : State) : (s.afterRead .intEnable).draws = s.draws := rfl
@[simp] theorem State.afterRead_vectCntlN_inService (s : State) (k : Slot) : (s.afterRead (.vectCntlN k)).inService = s.inService := rfl
@[simp] theorem State.afterRead_vectCntlN_draws (s : State) (k : Slot) : (s.afterRead (.vectCntlN k)).draws = s.draws := rfl
@[simp] theorem State.afterRead_vectAddr_inService (s : State) : (s.afterRead .vectAddr).inService = true := rfl
@[simp] theorem State.afterRead_vectAddr_draws (s : State) : (s.afterRead .vectAddr).draws = s.draws := rfl

/-! A write of a register changes at most the stored registers, `in_service` and the trace (10_state R23). -/

@[simp] theorem State.regWrite_params (s : State) (r : Reg) (v : Word) : (s.regWrite r v).params = s.params := by cases r <;> rfl
@[simp] theorem State.regWrite_rawsrc (s : State) (r : Reg) (v : Word) : (s.regWrite r v).rawsrc = s.rawsrc := by cases r <;> rfl
@[simp] theorem State.regWrite_nvTable (s : State) (r : Reg) (v : Word) : (s.regWrite r v).nvTable = s.nvTable := by cases r <;> rfl
@[simp] theorem State.regWrite_slotLine (s : State) (r : Reg) (v : Word) : (s.regWrite r v).slotLine = s.slotLine := by cases r <;> rfl
@[simp] theorem State.regWrite_mode (s : State) (r : Reg) (v : Word) : (s.regWrite r v).mode = s.mode := by cases r <;> rfl
@[simp] theorem State.regWrite_relocDone (s : State) (r : Reg) (v : Word) : (s.regWrite r v).relocDone = s.relocDone := by cases r <;> rfl
@[simp] theorem State.regWrite_relocState (s : State) (r : Reg) (v : Word) : (s.regWrite r v).relocState = s.relocState := by cases r <;> rfl
@[simp] theorem State.regWrite_dispatch (s : State) (r : Reg) (v : Word) : (s.regWrite r v).dispatch = s.dispatch := by cases r <;> rfl
@[simp] theorem State.regWrite_job (s : State) (r : Reg) (v : Word) : (s.regWrite r v).job = s.job := by cases r <;> rfl
@[simp] theorem State.regWrite_mem (s : State) (r : Reg) (v : Word) : (s.regWrite r v).mem = s.mem := by cases r <;> rfl
@[simp] theorem State.regWrite_resp (s : State) (r : Reg) (v : Word) : (s.regWrite r v).resp = s.resp := by cases r <;> rfl
@[simp] theorem State.regWrite_moves (s : State) (r : Reg) (v : Word) : (s.regWrite r v).moves = s.moves := by cases r <;> rfl
@[simp] theorem State.regWrite_draws (s : State) (r : Reg) (v : Word) : (s.regWrite r v).draws = s.draws := by cases r <;> rfl
@[simp] theorem State.regWrite_trace (s : State) (r : Reg) (v : Word) :
    (s.regWrite r v).trace = s.trace ++ [.regWrite r v] := by cases r <;> rfl

/-! The stored registers after a write, register by register (45_regfile_access R232). -/

@[simp] theorem State.regWrite_intSelect_intSelect (s : State) (v : Word) : (s.regWrite .intSelect v).intSelect = v := rfl
@[simp] theorem State.regWrite_intSelect_intEnable (s : State) (v : Word) : (s.regWrite .intSelect v).intEnable = s.intEnable := rfl
@[simp] theorem State.regWrite_intSelect_softInt (s : State) (v : Word) : (s.regWrite .intSelect v).softInt = s.softInt := rfl
@[simp] theorem State.regWrite_intSelect_protection (s : State) (v : Word) : (s.regWrite .intSelect v).protection = s.protection := rfl
@[simp] theorem State.regWrite_intSelect_defVectAddr (s : State) (v : Word) : (s.regWrite .intSelect v).defVectAddr = s.defVectAddr := rfl
@[simp] theorem State.regWrite_intSelect_vectAddr (s : State) (v : Word) : (s.regWrite .intSelect v).vectAddr = s.vectAddr := rfl
@[simp] theorem State.regWrite_intSelect_vectCntl (s : State) (v : Word) : (s.regWrite .intSelect v).vectCntl = s.vectCntl := rfl
@[simp] theorem State.regWrite_intSelect_inService (s : State) (v : Word) : (s.regWrite .intSelect v).inService = s.inService := rfl
@[simp] theorem State.regWrite_intEnable_intSelect (s : State) (v : Word) : (s.regWrite .intEnable v).intSelect = s.intSelect := rfl
@[simp] theorem State.regWrite_intEnable_intEnable (s : State) (v : Word) : (s.regWrite .intEnable v).intEnable = s.intEnable ||| v := rfl
@[simp] theorem State.regWrite_intEnable_softInt (s : State) (v : Word) : (s.regWrite .intEnable v).softInt = s.softInt := rfl
@[simp] theorem State.regWrite_intEnable_protection (s : State) (v : Word) : (s.regWrite .intEnable v).protection = s.protection := rfl
@[simp] theorem State.regWrite_intEnable_defVectAddr (s : State) (v : Word) : (s.regWrite .intEnable v).defVectAddr = s.defVectAddr := rfl
@[simp] theorem State.regWrite_intEnable_vectAddr (s : State) (v : Word) : (s.regWrite .intEnable v).vectAddr = s.vectAddr := rfl
@[simp] theorem State.regWrite_intEnable_vectCntl (s : State) (v : Word) : (s.regWrite .intEnable v).vectCntl = s.vectCntl := rfl
@[simp] theorem State.regWrite_intEnable_inService (s : State) (v : Word) : (s.regWrite .intEnable v).inService = s.inService := rfl
@[simp] theorem State.regWrite_intEnClear_intSelect (s : State) (v : Word) : (s.regWrite .intEnClear v).intSelect = s.intSelect := rfl
@[simp] theorem State.regWrite_intEnClear_intEnable (s : State) (v : Word) : (s.regWrite .intEnClear v).intEnable = s.intEnable &&& ~~~v := rfl
@[simp] theorem State.regWrite_intEnClear_softInt (s : State) (v : Word) : (s.regWrite .intEnClear v).softInt = s.softInt := rfl
@[simp] theorem State.regWrite_intEnClear_protection (s : State) (v : Word) : (s.regWrite .intEnClear v).protection = s.protection := rfl
@[simp] theorem State.regWrite_intEnClear_defVectAddr (s : State) (v : Word) : (s.regWrite .intEnClear v).defVectAddr = s.defVectAddr := rfl
@[simp] theorem State.regWrite_intEnClear_vectAddr (s : State) (v : Word) : (s.regWrite .intEnClear v).vectAddr = s.vectAddr := rfl
@[simp] theorem State.regWrite_intEnClear_vectCntl (s : State) (v : Word) : (s.regWrite .intEnClear v).vectCntl = s.vectCntl := rfl
@[simp] theorem State.regWrite_intEnClear_inService (s : State) (v : Word) : (s.regWrite .intEnClear v).inService = s.inService := rfl
@[simp] theorem State.regWrite_softInt_intSelect (s : State) (v : Word) : (s.regWrite .softInt v).intSelect = s.intSelect := rfl
@[simp] theorem State.regWrite_softInt_intEnable (s : State) (v : Word) : (s.regWrite .softInt v).intEnable = s.intEnable := rfl
@[simp] theorem State.regWrite_softInt_softInt (s : State) (v : Word) : (s.regWrite .softInt v).softInt = s.softInt ||| v := rfl
@[simp] theorem State.regWrite_softInt_protection (s : State) (v : Word) : (s.regWrite .softInt v).protection = s.protection := rfl
@[simp] theorem State.regWrite_softInt_defVectAddr (s : State) (v : Word) : (s.regWrite .softInt v).defVectAddr = s.defVectAddr := rfl
@[simp] theorem State.regWrite_softInt_vectAddr (s : State) (v : Word) : (s.regWrite .softInt v).vectAddr = s.vectAddr := rfl
@[simp] theorem State.regWrite_softInt_vectCntl (s : State) (v : Word) : (s.regWrite .softInt v).vectCntl = s.vectCntl := rfl
@[simp] theorem State.regWrite_softInt_inService (s : State) (v : Word) : (s.regWrite .softInt v).inService = s.inService := rfl
@[simp] theorem State.regWrite_softIntClear_intSelect (s : State) (v : Word) : (s.regWrite .softIntClear v).intSelect = s.intSelect := rfl
@[simp] theorem State.regWrite_softIntClear_intEnable (s : State) (v : Word) : (s.regWrite .softIntClear v).intEnable = s.intEnable := rfl
@[simp] theorem State.regWrite_softIntClear_softInt (s : State) (v : Word) : (s.regWrite .softIntClear v).softInt = s.softInt &&& ~~~v := rfl
@[simp] theorem State.regWrite_softIntClear_protection (s : State) (v : Word) : (s.regWrite .softIntClear v).protection = s.protection := rfl
@[simp] theorem State.regWrite_softIntClear_defVectAddr (s : State) (v : Word) : (s.regWrite .softIntClear v).defVectAddr = s.defVectAddr := rfl
@[simp] theorem State.regWrite_softIntClear_vectAddr (s : State) (v : Word) : (s.regWrite .softIntClear v).vectAddr = s.vectAddr := rfl
@[simp] theorem State.regWrite_softIntClear_vectCntl (s : State) (v : Word) : (s.regWrite .softIntClear v).vectCntl = s.vectCntl := rfl
@[simp] theorem State.regWrite_softIntClear_inService (s : State) (v : Word) : (s.regWrite .softIntClear v).inService = s.inService := rfl
@[simp] theorem State.regWrite_protection_intSelect (s : State) (v : Word) : (s.regWrite .protection v).intSelect = s.intSelect := rfl
@[simp] theorem State.regWrite_protection_intEnable (s : State) (v : Word) : (s.regWrite .protection v).intEnable = s.intEnable := rfl
@[simp] theorem State.regWrite_protection_softInt (s : State) (v : Word) : (s.regWrite .protection v).softInt = s.softInt := rfl
@[simp] theorem State.regWrite_protection_protection (s : State) (v : Word) : (s.regWrite .protection v).protection = v.extractLsb' 0 1 := rfl
@[simp] theorem State.regWrite_protection_defVectAddr (s : State) (v : Word) : (s.regWrite .protection v).defVectAddr = s.defVectAddr := rfl
@[simp] theorem State.regWrite_protection_vectAddr (s : State) (v : Word) : (s.regWrite .protection v).vectAddr = s.vectAddr := rfl
@[simp] theorem State.regWrite_protection_vectCntl (s : State) (v : Word) : (s.regWrite .protection v).vectCntl = s.vectCntl := rfl
@[simp] theorem State.regWrite_protection_inService (s : State) (v : Word) : (s.regWrite .protection v).inService = s.inService := rfl
@[simp] theorem State.regWrite_vectAddr_intSelect (s : State) (v : Word) : (s.regWrite .vectAddr v).intSelect = s.intSelect := rfl
@[simp] theorem State.regWrite_vectAddr_intEnable (s : State) (v : Word) : (s.regWrite .vectAddr v).intEnable = s.intEnable := rfl
@[simp] theorem State.regWrite_vectAddr_softInt (s : State) (v : Word) : (s.regWrite .vectAddr v).softInt = s.softInt := rfl
@[simp] theorem State.regWrite_vectAddr_protection (s : State) (v : Word) : (s.regWrite .vectAddr v).protection = s.protection := rfl
@[simp] theorem State.regWrite_vectAddr_defVectAddr (s : State) (v : Word) : (s.regWrite .vectAddr v).defVectAddr = s.defVectAddr := rfl
@[simp] theorem State.regWrite_vectAddr_vectAddr (s : State) (v : Word) : (s.regWrite .vectAddr v).vectAddr = s.vectAddr := rfl
@[simp] theorem State.regWrite_vectAddr_vectCntl (s : State) (v : Word) : (s.regWrite .vectAddr v).vectCntl = s.vectCntl := rfl
@[simp] theorem State.regWrite_vectAddr_inService (s : State) (v : Word) : (s.regWrite .vectAddr v).inService = false := rfl
@[simp] theorem State.regWrite_defVectAddr_intSelect (s : State) (v : Word) : (s.regWrite .defVectAddr v).intSelect = s.intSelect := rfl
@[simp] theorem State.regWrite_defVectAddr_intEnable (s : State) (v : Word) : (s.regWrite .defVectAddr v).intEnable = s.intEnable := rfl
@[simp] theorem State.regWrite_defVectAddr_softInt (s : State) (v : Word) : (s.regWrite .defVectAddr v).softInt = s.softInt := rfl
@[simp] theorem State.regWrite_defVectAddr_protection (s : State) (v : Word) : (s.regWrite .defVectAddr v).protection = s.protection := rfl
@[simp] theorem State.regWrite_defVectAddr_defVectAddr (s : State) (v : Word) : (s.regWrite .defVectAddr v).defVectAddr = v := rfl
@[simp] theorem State.regWrite_defVectAddr_vectAddr (s : State) (v : Word) : (s.regWrite .defVectAddr v).vectAddr = s.vectAddr := rfl
@[simp] theorem State.regWrite_defVectAddr_vectCntl (s : State) (v : Word) : (s.regWrite .defVectAddr v).vectCntl = s.vectCntl := rfl
@[simp] theorem State.regWrite_defVectAddr_inService (s : State) (v : Word) : (s.regWrite .defVectAddr v).inService = s.inService := rfl
@[simp] theorem State.regWrite_irqStatus_intSelect (s : State) (v : Word) : (s.regWrite .irqStatus v).intSelect = s.intSelect := rfl
@[simp] theorem State.regWrite_irqStatus_intEnable (s : State) (v : Word) : (s.regWrite .irqStatus v).intEnable = s.intEnable := rfl
@[simp] theorem State.regWrite_irqStatus_softInt (s : State) (v : Word) : (s.regWrite .irqStatus v).softInt = s.softInt := rfl
@[simp] theorem State.regWrite_irqStatus_protection (s : State) (v : Word) : (s.regWrite .irqStatus v).protection = s.protection := rfl
@[simp] theorem State.regWrite_irqStatus_defVectAddr (s : State) (v : Word) : (s.regWrite .irqStatus v).defVectAddr = s.defVectAddr := rfl
@[simp] theorem State.regWrite_irqStatus_vectAddr (s : State) (v : Word) : (s.regWrite .irqStatus v).vectAddr = s.vectAddr := rfl
@[simp] theorem State.regWrite_irqStatus_vectCntl (s : State) (v : Word) : (s.regWrite .irqStatus v).vectCntl = s.vectCntl := rfl
@[simp] theorem State.regWrite_irqStatus_inService (s : State) (v : Word) : (s.regWrite .irqStatus v).inService = s.inService := rfl
@[simp] theorem State.regWrite_fiqStatus_intSelect (s : State) (v : Word) : (s.regWrite .fiqStatus v).intSelect = s.intSelect := rfl
@[simp] theorem State.regWrite_fiqStatus_intEnable (s : State) (v : Word) : (s.regWrite .fiqStatus v).intEnable = s.intEnable := rfl
@[simp] theorem State.regWrite_fiqStatus_softInt (s : State) (v : Word) : (s.regWrite .fiqStatus v).softInt = s.softInt := rfl
@[simp] theorem State.regWrite_fiqStatus_protection (s : State) (v : Word) : (s.regWrite .fiqStatus v).protection = s.protection := rfl
@[simp] theorem State.regWrite_fiqStatus_defVectAddr (s : State) (v : Word) : (s.regWrite .fiqStatus v).defVectAddr = s.defVectAddr := rfl
@[simp] theorem State.regWrite_fiqStatus_vectAddr (s : State) (v : Word) : (s.regWrite .fiqStatus v).vectAddr = s.vectAddr := rfl
@[simp] theorem State.regWrite_fiqStatus_vectCntl (s : State) (v : Word) : (s.regWrite .fiqStatus v).vectCntl = s.vectCntl := rfl
@[simp] theorem State.regWrite_fiqStatus_inService (s : State) (v : Word) : (s.regWrite .fiqStatus v).inService = s.inService := rfl
@[simp] theorem State.regWrite_rawIntr_intSelect (s : State) (v : Word) : (s.regWrite .rawIntr v).intSelect = s.intSelect := rfl
@[simp] theorem State.regWrite_rawIntr_intEnable (s : State) (v : Word) : (s.regWrite .rawIntr v).intEnable = s.intEnable := rfl
@[simp] theorem State.regWrite_rawIntr_softInt (s : State) (v : Word) : (s.regWrite .rawIntr v).softInt = s.softInt := rfl
@[simp] theorem State.regWrite_rawIntr_protection (s : State) (v : Word) : (s.regWrite .rawIntr v).protection = s.protection := rfl
@[simp] theorem State.regWrite_rawIntr_defVectAddr (s : State) (v : Word) : (s.regWrite .rawIntr v).defVectAddr = s.defVectAddr := rfl
@[simp] theorem State.regWrite_rawIntr_vectAddr (s : State) (v : Word) : (s.regWrite .rawIntr v).vectAddr = s.vectAddr := rfl
@[simp] theorem State.regWrite_rawIntr_vectCntl (s : State) (v : Word) : (s.regWrite .rawIntr v).vectCntl = s.vectCntl := rfl
@[simp] theorem State.regWrite_rawIntr_inService (s : State) (v : Word) : (s.regWrite .rawIntr v).inService = s.inService := rfl
@[simp] theorem State.regWrite_vectAddrN_intSelect (s : State) (k : Slot) (v : Word) : (s.regWrite (.vectAddrN k) v).intSelect = s.intSelect := rfl
@[simp] theorem State.regWrite_vectAddrN_intEnable (s : State) (k : Slot) (v : Word) : (s.regWrite (.vectAddrN k) v).intEnable = s.intEnable := rfl
@[simp] theorem State.regWrite_vectAddrN_softInt (s : State) (k : Slot) (v : Word) : (s.regWrite (.vectAddrN k) v).softInt = s.softInt := rfl
@[simp] theorem State.regWrite_vectAddrN_protection (s : State) (k : Slot) (v : Word) : (s.regWrite (.vectAddrN k) v).protection = s.protection := rfl
@[simp] theorem State.regWrite_vectAddrN_defVectAddr (s : State) (k : Slot) (v : Word) : (s.regWrite (.vectAddrN k) v).defVectAddr = s.defVectAddr := rfl
@[simp] theorem State.regWrite_vectAddrN_vectAddr (s : State) (k : Slot) (v : Word) : (s.regWrite (.vectAddrN k) v).vectAddr = s.vectAddr.set k v := rfl
@[simp] theorem State.regWrite_vectAddrN_vectCntl (s : State) (k : Slot) (v : Word) : (s.regWrite (.vectAddrN k) v).vectCntl = s.vectCntl := rfl
@[simp] theorem State.regWrite_vectAddrN_inService (s : State) (k : Slot) (v : Word) : (s.regWrite (.vectAddrN k) v).inService = s.inService := rfl
@[simp] theorem State.regWrite_vectCntlN_intSelect (s : State) (k : Slot) (v : Word) : (s.regWrite (.vectCntlN k) v).intSelect = s.intSelect := rfl
@[simp] theorem State.regWrite_vectCntlN_intEnable (s : State) (k : Slot) (v : Word) : (s.regWrite (.vectCntlN k) v).intEnable = s.intEnable := rfl
@[simp] theorem State.regWrite_vectCntlN_softInt (s : State) (k : Slot) (v : Word) : (s.regWrite (.vectCntlN k) v).softInt = s.softInt := rfl
@[simp] theorem State.regWrite_vectCntlN_protection (s : State) (k : Slot) (v : Word) : (s.regWrite (.vectCntlN k) v).protection = s.protection := rfl
@[simp] theorem State.regWrite_vectCntlN_defVectAddr (s : State) (k : Slot) (v : Word) : (s.regWrite (.vectCntlN k) v).defVectAddr = s.defVectAddr := rfl
@[simp] theorem State.regWrite_vectCntlN_vectAddr (s : State) (k : Slot) (v : Word) : (s.regWrite (.vectCntlN k) v).vectAddr = s.vectAddr := rfl
@[simp] theorem State.regWrite_vectCntlN_vectCntl (s : State) (k : Slot) (v : Word) : (s.regWrite (.vectCntlN k) v).vectCntl = s.vectCntl.set k (v.extractLsb' 0 6) := rfl
@[simp] theorem State.regWrite_vectCntlN_inService (s : State) (k : Slot) (v : Word) : (s.regWrite (.vectCntlN k) v).inService = s.inService := rfl

end Sys2Proof.Machine
end

