-- ==== Sys2Proof/Laws/Loops.lean ====
section
/-!
SUPPORT. What the slot and line loops do (`INIT`, and the loops of 43_vector_slots): a turn at slot `k` changes slot `k` alone, so
the loop changes every slot as its own turn does.
-/
namespace Sys2Proof.Machine

/-- What a loop keeps when every turn keeps it. -/
theorem foldl_keeps {α β : Type} (p : State → α) (f : State → β → State) (h : ∀ s b, p (f s b) = p s) (xs : List β)
    (s : State) : p (xs.foldl f s) = p s := by
  induction xs generalizing s with
  | nil => rfl
  | cons b xs ih => exact (ih (f s b)).trans (h s b)

/-- A loop whose turns commute with a change of the state commutes with it. -/
theorem foldl_commutes {β : Type} (g : State → State) (f : State → β → State) (h : ∀ s b, f (g s) b = g (f s b))
    (xs : List β) (s : State) : xs.foldl f (g s) = g (xs.foldl f s) := by
  induction xs generalizing s with
  | nil => rfl
  | cons x xs ih => rw [List.foldl_cons, h, ih, List.foldl_cons]

/-- What a loop keeps that every turn keeps, stated as a property. -/
theorem foldl_invariant {β : Type} (P : State → Prop) (f : State → β → State) (h : ∀ s b, P s → P (f s b))
    (xs : List β) (s : State) (hs : P s) : P (xs.foldl f s) := by
  induction xs generalizing s with
  | nil => exact hs
  | cons b xs ih => exact ih (f s b) (h s b hs)

/-- A slot: the triple of 43_vector_slots R190. -/
abbrev SlotView := Option Line × BitVec 6 × Word

/-- Slot `k` of a state. -/
def State.slot (s : State) (k : Slot) : SlotView := (s.slotLine[k], s.vectCntl[k], s.vectAddr[k])

theorem mem_allSlots (k : Slot) : k ∈ allSlots := List.mem_finRange k

theorem mem_allLines (i : Line) : i ∈ allLines := List.mem_finRange i

/-- A loop over distinct slots whose turn at `k` changes slot `k` alone, by `φ`. -/
theorem foldl_slot (f : State → Slot → State) (φ : Params → SlotView → SlotView)
    (hp : ∀ s k, (f s k).params = s.params) (h1 : ∀ s k, (f s k).slot k = φ s.params (s.slot k))
    (h2 : ∀ s j k, j ≠ k → (f s k).slot j = s.slot j) (xs : List Slot) (hn : xs.Nodup) (s : State) (j : Slot) :
    (xs.foldl f s).slot j = if j ∈ xs then φ s.params (s.slot j) else s.slot j := by
  induction xs generalizing s with
  | nil => simp
  | cons k xs ih =>
    obtain ⟨hk, hn⟩ := List.nodup_cons.1 hn
    rw [List.foldl_cons, ih hn]
    by_cases hj : j = k
    · subst hj; simp [hk, h1]
    · simp [hj, h2 _ _ _ hj, hp]

/-- The same for the loop over all 16 slots. -/
theorem foldl_allSlots (f : State → Slot → State) (φ : Params → SlotView → SlotView)
    (hp : ∀ s k, (f s k).params = s.params) (h1 : ∀ s k, (f s k).slot k = φ s.params (s.slot k))
    (h2 : ∀ s j k, j ≠ k → (f s k).slot j = s.slot j) (s : State) (j : Slot) :
    (allSlots.foldl f s).slot j = φ s.params (s.slot j) := by
  simp [foldl_slot f φ hp h1 h2 allSlots (List.nodup_finRange 16) s j, mem_allSlots]

/-- The observations of a loop over distinct slots whose turn at `k` observes `e k` of slot `k` alone. -/
theorem foldl_slot_trace (f : State → Slot → State) (e : Params → Slot → SlotView → List Event)
    (hp : ∀ s k, (f s k).params = s.params) (h2 : ∀ s j k, j ≠ k → (f s k).slot j = s.slot j)
    (ht : ∀ s k, (f s k).trace = s.trace ++ e s.params k (s.slot k)) (xs : List Slot) (hn : xs.Nodup) (s : State) :
    (xs.foldl f s).trace = s.trace ++ xs.flatMap fun k => e s.params k (s.slot k) := by
  induction xs generalizing s with
  | nil => simp
  | cons k xs ih =>
    obtain ⟨hk, hn⟩ := List.nodup_cons.1 hn
    rw [List.foldl_cons, ih hn, ht, List.flatMap_cons, List.append_assoc, hp]
    congr 2
    refine List.flatMap_congr fun j hj => ?_
    rw [h2 s j k fun h => hk (by rw [← h]; exact hj)]

theorem forAssigned_eq (s : State) (l : Line) (f : State → Slot → State) :
    s.forAssigned l f = allSlots.foldl (fun t k => if t.slotLine[k] = some l then f t k else t) s := rfl

/-! One turn of each loop: its own slot, the other slots, what it observes. -/

/-- The loop over the assigned slots commutes with a change of the state that leaves `slot_line` and commutes with each
turn. -/
theorem forAssigned_commutes (g : State → State) (l : Line) (f : State → Slot → State) (h : ∀ s k, f (g s) k = g (f s k))
    (hg : ∀ s, (g s).slotLine = s.slotLine) (s : State) : (g s).forAssigned l f = g (s.forAssigned l f) := by
  rw [forAssigned_eq, forAssigned_eq]
  refine foldl_commutes g _ (fun t k => ?_) _ s
  rw [hg, h]
  split <;> rfl

theorem releaseSlot_self (s : State) (k : Slot) : (s.releaseSlot k).slot k = (none, 0#6, s.params.dummyAddr) := by
  simp [State.releaseSlot, State.slot]

theorem releaseSlot_other (s : State) (j k : Slot) (h : j ≠ k) : (s.releaseSlot k).slot j = s.slot j := by
  have h' : k.val ≠ j.val := fun e => h (Fin.ext e.symm)
  simp [State.releaseSlot, State.slot, h']

theorem releaseSlot_trace (s : State) (k : Slot) : (s.releaseSlot k).trace =
    s.trace ++ [.regWrite (.vectCntlN k) 0#32, .regWrite (.vectAddrN k) s.params.dummyAddr] := by
  simp [State.releaseSlot]

theorem initSlot_self (s : State) (k : Slot) : (initSlot s k).slot k = (none, 0#6, s.params.dummyAddr) := by
  simp [initSlot, State.slot]

theorem initSlot_other (s : State) (j k : Slot) (h : j ≠ k) : (initSlot s k).slot j = s.slot j := by
  have h' : k.val ≠ j.val := fun e => h (Fin.ext e.symm)
  simp [initSlot, State.slot, h']

theorem initSlot_trace (s : State) (k : Slot) : (initSlot s k).trace =
    s.trace ++ [.regWrite (.vectCntlN k) 0#32, .regWrite (.vectAddrN k) s.params.dummyAddr] := by
  simp [initSlot]

/-- A control register with only its enable bit set, and with only its enable bit cleared (43_vector_slots R204). -/
theorem cntl_or_enable (c : BitVec 6) : (c.setWidth 32 ||| enableBit).extractLsb' 0 6 = c ||| 0x20#6 := by
  revert c; decide

theorem cntl_clear_enable (c : BitVec 6) : (c.setWidth 32 &&& ~~~enableBit).extractLsb' 0 6 = c &&& 0x1F#6 := by
  revert c; decide

theorem enableSlot_self (s : State) (k : Slot) :
    (s.enableSlot k).slot k = (s.slotLine[k], s.vectCntl[k] ||| 0x20#6, s.vectAddr[k]) := by
  simp [State.enableSlot, State.slot, State.readValue, cntl_or_enable]

theorem enableSlot_other (s : State) (j k : Slot) (h : j ≠ k) : (s.enableSlot k).slot j = s.slot j := by
  have h' : k.val ≠ j.val := fun e => h (Fin.ext e.symm)
  simp [State.enableSlot, State.slot, h']

theorem enableSlot_trace (s : State) (k : Slot) : (s.enableSlot k).trace =
    s.trace ++ [.regRead (.vectCntlN k) ((s.vectCntl[k]).setWidth 32),
      .regWrite (.vectCntlN k) ((s.vectCntl[k]).setWidth 32 ||| enableBit)] := by
  simp [State.enableSlot, State.readValue]

theorem disableSlot_self (s : State) (k : Slot) :
    (s.disableSlot k).slot k = (s.slotLine[k], s.vectCntl[k] &&& 0x1F#6, s.vectAddr[k]) := by
  simp [State.disableSlot, State.slot, State.readValue, cntl_clear_enable]

theorem disableSlot_other (s : State) (j k : Slot) (h : j ≠ k) : (s.disableSlot k).slot j = s.slot j := by
  have h' : k.val ≠ j.val := fun e => h (Fin.ext e.symm)
  simp [State.disableSlot, State.slot, h']

theorem disableSlot_trace (s : State) (k : Slot) : (s.disableSlot k).trace =
    s.trace ++ [.regRead (.vectCntlN k) ((s.vectCntl[k]).setWidth 32),
      .regWrite (.vectCntlN k) ((s.vectCntl[k]).setWidth 32 &&& ~~~enableBit)] := by
  simp [State.disableSlot, State.readValue]

/-- A state with its slots and trace blanked out: what a slot loop keeps. -/
def State.offSlots (s : State) : State :=
  { s with slotLine := Vector.replicate 16 none, vectCntl := Vector.replicate 16 0#6,
           vectAddr := Vector.replicate 16 0#32, trace := [] }

/-- A state with its control registers and trace blanked out: what a loop over enable bits keeps. -/
def State.offCntl (s : State) : State := { s with vectCntl := Vector.replicate 16 0#6, trace := [] }

/-- A state with its non-vectored table blanked out: what the table loop of `INIT` keeps. -/
def State.offTable (s : State) : State := { s with nvTable := Vector.replicate 32 0#32 }

theorem offSlots_eq_iff (s t : State) : t.offSlots = s.offSlots ↔ t = { s with
    slotLine := t.slotLine, vectCntl := t.vectCntl, vectAddr := t.vectAddr, trace := t.trace } := by
  cases s; cases t; simp [State.offSlots]

theorem offCntl_eq_iff (s t : State) :
    t.offCntl = s.offCntl ↔ t = { s with vectCntl := t.vectCntl, trace := t.trace } := by
  cases s; cases t; simp [State.offCntl]

theorem offTable_eq_iff (s t : State) : t.offTable = s.offTable ↔ t = { s with nvTable := t.nvTable } := by
  cases s; cases t; simp [State.offTable]

@[simp] theorem releaseSlot_offSlots (s : State) (k : Slot) : (s.releaseSlot k).offSlots = s.offSlots := by
  simp [State.offSlots, State.releaseSlot]
@[simp] theorem initSlot_offSlots (s : State) (k : Slot) : (initSlot s k).offSlots = s.offSlots := by
  simp [State.offSlots, initSlot]
@[simp] theorem enableSlot_offCntl (s : State) (k : Slot) : (s.enableSlot k).offCntl = s.offCntl := by
  simp [State.offCntl, State.enableSlot]
@[simp] theorem disableSlot_offCntl (s : State) (k : Slot) : (s.disableSlot k).offCntl = s.offCntl := by
  simp [State.offCntl, State.disableSlot]
@[simp] theorem initLine_offTable (s : State) (i : Line) : (initLine s i).offTable = s.offTable := by
  simp [State.offTable, initLine]

/-- The table loop of `INIT`: every entry the dummy routine, the rest of the state as before (41_mode_and_init R163). -/
theorem foldl_initLine (xs : List Line) (s : State) : ∀ i : Line, (xs.foldl initLine s).nvTable[i] =
    if i ∈ xs then s.params.dummyAddr else s.nvTable[i] := by
  induction xs generalizing s with
  | nil => simp
  | cons j xs ih =>
    intro i
    rw [List.foldl_cons, ih]
    by_cases hij : i = j
    · subst hij; simp [initLine]
    · have h' : j.val ≠ i.val := fun e => hij (Fin.ext e.symm)
      simp [initLine, hij, h']

/-- What every loop over the slots keeps, whole. -/
theorem forEverySlot_release_rest (s : State) : (s.forEverySlot State.releaseSlot).offSlots = s.offSlots :=
  foldl_keeps State.offSlots _ releaseSlot_offSlots allSlots s

theorem forEverySlot_disable_rest (s : State) : (s.forEverySlot State.disableSlot).offCntl = s.offCntl :=
  foldl_keeps State.offCntl _ disableSlot_offCntl allSlots s

theorem forAssigned_release_rest (s : State) (l : Line) : (s.forAssigned l State.releaseSlot).offSlots = s.offSlots :=
  foldl_keeps State.offSlots _ (fun t k => by split <;> simp) allSlots s

theorem forAssigned_enable_rest (s : State) (l : Line) : (s.forAssigned l State.enableSlot).offCntl = s.offCntl :=
  foldl_keeps State.offCntl _ (fun t k => by split <;> simp) allSlots s

theorem forAssigned_disable_rest (s : State) (l : Line) : (s.forAssigned l State.disableSlot).offCntl = s.offCntl :=
  foldl_keeps State.offCntl _ (fun t k => by split <;> simp) allSlots s

theorem foldl_initSlot_rest (s : State) : (allSlots.foldl initSlot s).offSlots = s.offSlots :=
  foldl_keeps State.offSlots _ initSlot_offSlots allSlots s

theorem foldl_initLine_rest (s : State) : (allLines.foldl initLine s).offTable = s.offTable :=
  foldl_keeps State.offTable _ initLine_offTable allLines s

@[simp] theorem releaseSlot_params (s : State) (k : Slot) : (s.releaseSlot k).params = s.params := by
  simp [State.releaseSlot]
@[simp] theorem initSlot_params (s : State) (k : Slot) : (initSlot s k).params = s.params := by simp [initSlot]
@[simp] theorem enableSlot_params (s : State) (k : Slot) : (s.enableSlot k).params = s.params := by
  simp [State.enableSlot]
@[simp] theorem disableSlot_params (s : State) (k : Slot) : (s.disableSlot k).params = s.params := by
  simp [State.disableSlot]

/-! What every loop over the slots does to a slot (43_vector_slots R193 to R201). -/

theorem forEverySlot_release_slot (s : State) (j : Slot) :
    (s.forEverySlot State.releaseSlot).slot j = (none, 0#6, s.params.dummyAddr) :=
  foldl_allSlots State.releaseSlot (fun p _ => (none, 0#6, p.dummyAddr)) releaseSlot_params releaseSlot_self releaseSlot_other s j

theorem foldl_initSlot_slot (s : State) (j : Slot) :
    (allSlots.foldl initSlot s).slot j = (none, 0#6, s.params.dummyAddr) :=
  foldl_allSlots initSlot (fun p _ => (none, 0#6, p.dummyAddr)) initSlot_params initSlot_self initSlot_other s j

theorem forEverySlot_disable_slot (s : State) (j : Slot) :
    (s.forEverySlot State.disableSlot).slot j = (s.slotLine[j], s.vectCntl[j] &&& 0x1F#6, s.vectAddr[j]) :=
  foldl_allSlots State.disableSlot (fun _ v => (v.1, v.2.1 &&& 0x1F#6, v.2.2)) disableSlot_params disableSlot_self
    disableSlot_other s j

theorem forAssigned_release_slot (s : State) (l : Line) (j : Slot) :
    (s.forAssigned l State.releaseSlot).slot j =
      if s.slotLine[j] = some l then (none, 0#6, s.params.dummyAddr) else s.slot j := by
  refine foldl_allSlots _ (fun p v => if v.1 = some l then (none, 0#6, p.dummyAddr) else v) ?_ ?_ ?_ s j
  · intro t k; split <;> simp
  · intro t k
    by_cases h : t.slotLine[k] = some l
    · rw [if_pos h, if_pos (show (t.slot k).1 = some l from h), releaseSlot_self]; try rfl
    · rw [if_neg h, if_neg (show ¬(t.slot k).1 = some l from h)]
  · intro t i k h; split
    · exact releaseSlot_other t i k h
    · rfl

theorem forAssigned_enable_slot (s : State) (l : Line) (j : Slot) :
    (s.forAssigned l State.enableSlot).slot j =
      if s.slotLine[j] = some l then (s.slotLine[j], s.vectCntl[j] ||| 0x20#6, s.vectAddr[j]) else s.slot j := by
  refine foldl_allSlots _ (fun _ v => if v.1 = some l then (v.1, v.2.1 ||| 0x20#6, v.2.2) else v) ?_ ?_ ?_ s j
  · intro t k; split <;> simp
  · intro t k
    by_cases h : t.slotLine[k] = some l
    · rw [if_pos h, if_pos (show (t.slot k).1 = some l from h), enableSlot_self]; try rfl
    · rw [if_neg h, if_neg (show ¬(t.slot k).1 = some l from h)]
  · intro t i k h; split
    · exact enableSlot_other t i k h
    · rfl

theorem forAssigned_disable_slot (s : State) (l : Line) (j : Slot) :
    (s.forAssigned l State.disableSlot).slot j =
      if s.slotLine[j] = some l then (s.slotLine[j], s.vectCntl[j] &&& 0x1F#6, s.vectAddr[j]) else s.slot j := by
  refine foldl_allSlots _ (fun _ v => if v.1 = some l then (v.1, v.2.1 &&& 0x1F#6, v.2.2) else v) ?_ ?_ ?_ s j
  · intro t k; split <;> simp
  · intro t k
    by_cases h : t.slotLine[k] = some l
    · rw [if_pos h, if_pos (show (t.slot k).1 = some l from h), disableSlot_self]; try rfl
    · rw [if_neg h, if_neg (show ¬(t.slot k).1 = some l from h)]
  · intro t i k h; split
    · exact disableSlot_other t i k h
    · rfl

/-! Binding a slot to a line (43_vector_slots R191), and the line field under the enable bit (10_state R37). -/

theorem cntl_bound (l : Line) : (lineWord l ||| enableBit).extractLsb' 0 6 = BitVec.ofNat 6 l.val ||| 0x20#6 := by
  revert l; decide

theorem cntlSource_bound (l : Line) : cntlSource (BitVec.ofNat 6 l.val ||| 0x20#6) = l := by revert l; decide

theorem cntlSource_enable (c : BitVec 6) : cntlSource (c ||| 0x20#6) = cntlSource c := by revert c; decide

theorem cntlSource_disable (c : BitVec 6) : cntlSource (c &&& 0x1F#6) = cntlSource c := by revert c; decide

theorem bindSlot_self (s : State) (t : Slot) (l : Line) (r : Word) :
    (s.bindSlot t l r).slot t = (some l, BitVec.ofNat 6 l.val ||| 0x20#6, r) := by
  simp [State.bindSlot, State.slot, cntl_bound]

theorem bindSlot_other (s : State) (j t : Slot) (l : Line) (r : Word) (h : j ≠ t) :
    (s.bindSlot t l r).slot j = s.slot j := by
  have h' : t.val ≠ j.val := fun e => h (Fin.ext e.symm)
  simp [State.bindSlot, State.slot, h']

theorem bindSlot_rest (s : State) (t : Slot) (l : Line) (r : Word) : (s.bindSlot t l r).offSlots = s.offSlots := by
  simp [State.bindSlot, State.offSlots]

/-! What every loop over the slots observes (43_vector_slots R193 to R201). -/

/-- A guarded observation of each element is an observation of the elements the guard accepts. -/
theorem flatMap_guard {α β : Type} (p : α → Bool) (f : α → List β) (xs : List α) :
    (xs.flatMap fun x => if p x = true then f x else []) = (xs.filter p).flatMap f := by
  induction xs with
  | nil => rfl
  | cons x xs ih => cases hx : p x <;> simp [hx, ih]

/-- The observations of a loop over the slots assigned to a line. -/
theorem forAssigned_trace (f : State → Slot → State) (e : Params → Slot → SlotView → List Event)
    (hp : ∀ s k, (f s k).params = s.params) (h2 : ∀ s j k, j ≠ k → (f s k).slot j = s.slot j)
    (ht : ∀ s k, (f s k).trace = s.trace ++ e s.params k (s.slot k)) (s : State) (l : Line) :
    (s.forAssigned l f).trace = s.trace ++
      (allSlots.filter fun k => s.slotLine[k] == some l).flatMap fun k => e s.params k (s.slot k) := by
  rw [← flatMap_guard]
  refine foldl_slot_trace _ (fun p k v => if (v.1 == some l) = true then e p k v else []) ?_ ?_ ?_ allSlots
    (List.nodup_finRange 16) s
  · intro t k; split
    · exact hp t k
    · rfl
  · intro t j k h; split
    · exact h2 t j k h
    · rfl
  · intro t k
    by_cases h : t.slotLine[k] = some l
    · rw [if_pos h, if_pos (show ((t.slot k).1 == some l) = true from beq_iff_eq.2 h), ht]
    · rw [if_neg h, if_neg (show ¬((t.slot k).1 == some l) = true from fun hb => h (beq_iff_eq.1 hb)),
        List.append_nil]

theorem forAssigned_release_trace (s : State) (l : Line) : (s.forAssigned l State.releaseSlot).trace = s.trace ++
    (allSlots.filter fun k => s.slotLine[k] == some l).flatMap fun k =>
      [.regWrite (.vectCntlN k) 0#32, .regWrite (.vectAddrN k) s.params.dummyAddr] :=
  forAssigned_trace State.releaseSlot
    (fun p k _ => [.regWrite (.vectCntlN k) 0#32, .regWrite (.vectAddrN k) p.dummyAddr]) releaseSlot_params
    releaseSlot_other releaseSlot_trace s l

theorem forAssigned_enable_trace (s : State) (l : Line) : (s.forAssigned l State.enableSlot).trace = s.trace ++
    (allSlots.filter fun k => s.slotLine[k] == some l).flatMap fun k =>
      [.regRead (.vectCntlN k) ((s.vectCntl[k]).setWidth 32),
        .regWrite (.vectCntlN k) ((s.vectCntl[k]).setWidth 32 ||| enableBit)] :=
  forAssigned_trace State.enableSlot
    (fun _ k v => [.regRead (.vectCntlN k) (v.2.1.setWidth 32),
      .regWrite (.vectCntlN k) (v.2.1.setWidth 32 ||| enableBit)]) enableSlot_params
    enableSlot_other enableSlot_trace s l

theorem forAssigned_disable_trace (s : State) (l : Line) : (s.forAssigned l State.disableSlot).trace = s.trace ++
    (allSlots.filter fun k => s.slotLine[k] == some l).flatMap fun k =>
      [.regRead (.vectCntlN k) ((s.vectCntl[k]).setWidth 32),
        .regWrite (.vectCntlN k) ((s.vectCntl[k]).setWidth 32 &&& ~~~enableBit)] :=
  forAssigned_trace State.disableSlot
    (fun _ k v => [.regRead (.vectCntlN k) (v.2.1.setWidth 32),
      .regWrite (.vectCntlN k) (v.2.1.setWidth 32 &&& ~~~enableBit)]) disableSlot_params
    disableSlot_other disableSlot_trace s l

theorem forEverySlot_disable_trace (s : State) : (s.forEverySlot State.disableSlot).trace = s.trace ++
    allSlots.flatMap fun k => [.regRead (.vectCntlN k) ((s.vectCntl[k]).setWidth 32),
      .regWrite (.vectCntlN k) ((s.vectCntl[k]).setWidth 32 &&& ~~~enableBit)] :=
  foldl_slot_trace State.disableSlot
    (fun _ k v => [.regRead (.vectCntlN k) (v.2.1.setWidth 32),
      .regWrite (.vectCntlN k) (v.2.1.setWidth 32 &&& ~~~enableBit)]) disableSlot_params
    disableSlot_other disableSlot_trace allSlots (List.nodup_finRange 16) s

theorem forEverySlot_release_trace (s : State) : (s.forEverySlot State.releaseSlot).trace = s.trace ++
    allSlots.flatMap fun k => [.regWrite (.vectCntlN k) 0#32, .regWrite (.vectAddrN k) s.params.dummyAddr] :=
  foldl_slot_trace State.releaseSlot
    (fun p k _ => [.regWrite (.vectCntlN k) 0#32, .regWrite (.vectAddrN k) p.dummyAddr]) releaseSlot_params
    releaseSlot_other releaseSlot_trace allSlots (List.nodup_finRange 16) s

theorem foldl_initSlot_trace (s : State) : (allSlots.foldl initSlot s).trace = s.trace ++
    allSlots.flatMap fun k => [.regWrite (.vectCntlN k) 0#32, .regWrite (.vectAddrN k) s.params.dummyAddr] :=
  foldl_slot_trace initSlot
    (fun p k _ => [.regWrite (.vectCntlN k) 0#32, .regWrite (.vectAddrN k) p.dummyAddr]) initSlot_params
    initSlot_other initSlot_trace allSlots (List.nodup_finRange 16) s

end Sys2Proof.Machine
end

