-- ==== Sys2Proof/Laws/Replay.lean ====
section
/-!
SUPPORT. What a command run access by access cannot see: the parts of the state no access of it reads, `RAWSRC` after its first
access among them (20_memory R90), and the replay of its accesses whatever those parts are (log 3).
-/
namespace Sys2Proof.Machine

/-- The parts of the state that no access of a command in progress sees. -/
structure Unseen where
  rawsrc     : Word
  nvTable    : Vector Word 32
  slotLine   : Vector (Option Line) 16
  mode       : Mode
  relocState : RelocState
  relocDone  : Bool
  job        : Option CommandJob
  moves      : List Move

/-- A state with other values in those parts. -/
def State.withUnseen (s : State) (o : Unseen) : State :=
  { s with
    rawsrc := o.rawsrc, nvTable := o.nvTable, slotLine := o.slotLine, mode := o.mode, relocState := o.relocState,
    relocDone := o.relocDone, job := o.job, moves := o.moves }

/-- The values of those parts in a state. -/
def State.unseen (s : State) : Unseen :=
  ⟨s.rawsrc, s.nvTable, s.slotLine, s.mode, s.relocState, s.relocDone, s.job, s.moves⟩

@[simp] theorem State.withUnseen_unseen (s : State) : s.withUnseen s.unseen = s := rfl

@[simp] theorem State.withUnseen_withUnseen (s : State) (o p : Unseen) : (s.withUnseen o).withUnseen p = s.withUnseen p := rfl

theorem State.withUnseen_regWrite (s : State) (o : Unseen) (r : Reg) (v : Word) :
    (s.withUnseen o).regWrite r v = (s.regWrite r v).withUnseen o := by cases r <;> rfl

/-- A register whose read gives a stored value: its value does not follow `RAWSRC` and is no free value. -/
def storedReg : Reg → Bool
  | .intSelect | .intEnable | .softInt | .protection | .defVectAddr | .vectAddrN _ | .vectCntlN _ => true
  | _ => false

theorem State.withUnseen_afterRead (s : State) (o : Unseen) (r : Reg) (h : storedReg r = true) :
    (s.withUnseen o).afterRead r = (s.afterRead r).withUnseen o := by
  cases r <;> first | rfl | simp [storedReg] at h

/-- From `s` the accesses `es`, performed one after another whatever the unseen parts are at each of them, are observed as
they stand in `es` and give `t` but for those parts; of them they change only the relocator's phase. -/
def Replays : List Event → State → State → Prop
  | [], s, t      => ∀ o, t.withUnseen o = s.withUnseen o
  | e :: es, s, t => ∃ s1, (∀ j o, ∃ ph, performEvent j (s.withUnseen o) e = s1.withUnseen { o with relocState := ph }) ∧
      s1.trace = s.trace ++ [e] ∧ Replays es s1 t

theorem Replays.cons {e : Event} {es : List Event} {s s1 t : State}
    (h : ∀ j o, performEvent j (s.withUnseen o) e = s1.withUnseen o) (ht : s1.trace = s.trace ++ [e])
    (k : Replays es s1 t) : Replays (e :: es) s t := ⟨s1, fun j o => ⟨o.relocState, h j o⟩, ht, k⟩

theorem Unseen.trace_eq {s t : State} (h : ∀ o, t.withUnseen o = s.withUnseen o) : t.trace = s.trace := by
  have := congrArg State.trace (h s.unseen)
  exact this

theorem Replays.trans {es fs : List Event} {s t u : State} (h : Replays es s t) (k : Replays fs t u) :
    Replays (es ++ fs) s u := by
  induction es generalizing s with
  | nil =>
    cases fs with
    | nil => exact fun o => (k o).trans (h o)
    | cons e fs =>
      obtain ⟨s1, h1, ht, hr⟩ := k
      exact ⟨s1, fun j o => by rw [← h o]; exact h1 j o, by rw [ht, Unseen.trace_eq h], hr⟩
  | cons e es ih =>
    obtain ⟨s1, h1, ht, hr⟩ := h
    exact ⟨s1, h1, ht, ih hr⟩

/-- A replay sees nothing of the unseen parts of its first state. -/
theorem replays_from {es : List Event} {s s' t : State} (h : ∀ o, s'.withUnseen o = s.withUnseen o)
    (k : Replays es s' t) : Replays es s t := Replays.trans (es := []) h k

/-- A replay sees nothing of the unseen parts of its last state. -/
theorem replays_to {es : List Event} {s t t' : State} (h : ∀ o, t'.withUnseen o = t.withUnseen o)
    (k : Replays es s t) : Replays es s t' := by simpa using k.trans (fs := []) h

theorem replays_regWrite (s : State) (r : Reg) (v : Word) : Replays [.regWrite r v] s (s.regWrite r v) :=
  .cons (fun _ o => s.withUnseen_regWrite o r v) (by simp) fun _ => rfl

theorem replays_afterRead (s : State) (r : Reg) (h : storedReg r = true) :
    Replays [.regRead r (s.readValue r)] s (s.afterRead r) :=
  .cons (fun _ o => s.withUnseen_afterRead o r h) (by simp) fun _ => rfl

/-- The end of a command run access by access is the end of the whole command, but for `RAWSRC` and the moves. -/
theorem endJob_jobOf (s u : State) (v : Word) (o : Unseen) (h : (o.relocDone || u.relocDone) = u.relocDone) :
    endJob (jobOf s (u.respond v)) v (u.withUnseen o) =
      { u.respond v with rawsrc := o.rawsrc, moves := o.moves, job := none } := by
  simp only [endJob, jobOf, State.withUnseen, State.respond, State.observe, h]

end Sys2Proof.Machine
end

