-- ==== Sys2Proof/Laws/Quiet.lean ====
section
/-!
SUPPORT. What the 18 commands of 41_mode_and_init, 42_line_control and 43_vector_slots have in common: they complete, they
perform plain register accesses and update tables, and they leave the rest of the state alone.
-/
namespace Sys2Proof.Machine

/-- A read of a stored register, or a write that is neither of `VECTADDR` nor of a read-only register: what the commands
of 41_mode_and_init, 42_line_control and 43_vector_slots perform. -/
def Event.isPlainAccess : Event → Bool
  | .regRead r _ => storedReg r
  | .regWrite r _ => decide (r ≠ .vectAddr ∧ r ≠ .irqStatus ∧ r ≠ .fiqStatus ∧ r ≠ .rawIntr)
  | _ => false

/-- `t` follows `s` by plain register accesses and table updates alone: what no such command touches. -/
structure Quiet (s t : State) : Prop where
  trace : ∃ es : List Event, t.trace = s.trace ++ es ∧ (∀ e ∈ es, e.isPlainAccess = true) ∧ Replays es s t
  params : t.params = s.params
  rawsrc : t.rawsrc = s.rawsrc
  protection : t.protection = s.protection
  inService : t.inService = s.inService
  relocDone : t.relocDone = s.relocDone
  relocState : t.relocState = s.relocState
  dispatch : t.dispatch = s.dispatch
  job : t.job = s.job
  mem : t.mem = s.mem
  moves : t.moves = s.moves
  draws : t.draws = s.draws
  resp : t.resp = s.resp

theorem Quiet.refl (s : State) : Quiet s s :=
  ⟨⟨[], by simp, by simp, fun _ => rfl⟩, rfl, rfl, rfl, rfl, rfl, rfl, rfl, rfl, rfl, rfl, rfl, rfl⟩

theorem Quiet.trans {s t u : State} (h : Quiet s t) (k : Quiet t u) : Quiet s u := by
  obtain ⟨es, he, hp, hr⟩ := h.trace
  obtain ⟨fs, hf, hq, hs⟩ := k.trace
  refine ⟨⟨es ++ fs, by rw [hf, he, List.append_assoc], ?_, hr.trans hs⟩, k.params.trans h.params, k.rawsrc.trans h.rawsrc,
    k.protection.trans h.protection, k.inService.trans h.inService, k.relocDone.trans h.relocDone,
    k.relocState.trans h.relocState, k.dispatch.trans h.dispatch, k.job.trans h.job, k.mem.trans h.mem, k.moves.trans h.moves,
    k.draws.trans h.draws, k.resp.trans h.resp⟩
  intro e he
  exact (List.mem_append.1 he).elim (hp e) (hq e)

theorem Quiet.foldl {β : Type} (f : State → β → State) (h : ∀ s b, Quiet s (f s b)) (xs : List β) (s : State) :
    Quiet s (xs.foldl f s) :=
  foldl_invariant (Quiet s) f (fun t b ht => ht.trans (h t b)) xs s (.refl s)

theorem quiet_regWrite (s : State) (r : Reg) (v : Word) (h : (Event.regWrite r v).isPlainAccess = true)
    (hp : r ≠ .protection) : Quiet s (s.regWrite r v) := by
  refine ⟨⟨[.regWrite r v], ?_, by simpa using h, replays_regWrite s r v⟩, ?_, ?_, ?_, ?_, ?_, ?_, ?_, ?_, ?_, ?_, ?_, ?_⟩
  all_goals cases r <;> simp_all [State.regWrite, State.writeEffect, Event.isPlainAccess]

theorem quiet_afterRead (s : State) (r : Reg) (h : storedReg r = true) : Quiet s (s.afterRead r) := by
  refine ⟨⟨[.regRead r (s.readValue r)], ?_, by simpa [Event.isPlainAccess] using h, replays_afterRead s r h⟩, ?_, ?_, ?_, ?_, ?_, ?_, ?_, ?_, ?_, ?_, ?_, ?_⟩
  all_goals cases r <;> simp_all [State.afterRead, State.readEffect, storedReg]

theorem quiet_slotLine (s : State) (x : Vector (Option Line) 16) : Quiet s { s with slotLine := x } :=
  ⟨⟨[], by simp, by simp, fun _ => rfl⟩, rfl, rfl, rfl, rfl, rfl, rfl, rfl, rfl, rfl, rfl, rfl, rfl⟩
theorem quiet_nvTable (s : State) (x : Vector Word 32) : Quiet s { s with nvTable := x } :=
  ⟨⟨[], by simp, by simp, fun _ => rfl⟩, rfl, rfl, rfl, rfl, rfl, rfl, rfl, rfl, rfl, rfl, rfl, rfl⟩
theorem quiet_mode (s : State) (x : Mode) : Quiet s { s with mode := x } :=
  ⟨⟨[], by simp, by simp, fun _ => rfl⟩, rfl, rfl, rfl, rfl, rfl, rfl, rfl, rfl, rfl, rfl, rfl, rfl⟩

theorem quiet_releaseSlot (s : State) (k : Slot) : Quiet s (s.releaseSlot k) :=
  ((quiet_regWrite s _ _ rfl (by simp)).trans (quiet_regWrite _ _ _ rfl (by simp))).trans (quiet_slotLine _ _)
theorem quiet_enableSlot (s : State) (k : Slot) : Quiet s (s.enableSlot k) :=
  (quiet_afterRead s _ rfl).trans (quiet_regWrite _ _ _ rfl (by simp))
theorem quiet_disableSlot (s : State) (k : Slot) : Quiet s (s.disableSlot k) :=
  (quiet_afterRead s _ rfl).trans (quiet_regWrite _ _ _ rfl (by simp))
theorem quiet_bindSlot (s : State) (k : Slot) (l : Line) (r : Word) : Quiet s (s.bindSlot k l r) :=
  ((quiet_slotLine s _).trans (quiet_regWrite _ _ _ rfl (by simp))).trans (quiet_regWrite _ _ _ rfl (by simp))
theorem quiet_forAssigned (s : State) (l : Line) (f : State → Slot → State) (h : ∀ s k, Quiet s (f s k)) :
    Quiet s (s.forAssigned l f) := by
  rw [forAssigned_eq]
  exact .foldl _ (fun t k => by split; exacts [h t k, .refl t]) _ s
theorem quiet_initSlot (s : State) (k : Slot) : Quiet s (initSlot s k) :=
  ((quiet_slotLine s _).trans (quiet_regWrite _ _ _ rfl (by simp))).trans (quiet_regWrite _ _ _ rfl (by simp))
theorem quiet_initLine (s : State) (i : Line) : Quiet s (initLine s i) := quiet_nvTable s _
theorem quiet_initRegisters (s : State) : Quiet s (initRegisters s) :=
  (((quiet_regWrite s _ _ rfl (by simp)).trans (quiet_regWrite _ _ _ rfl (by simp))).trans
    (quiet_regWrite _ _ _ rfl (by simp))).trans (quiet_regWrite _ _ _ rfl (by simp))

/-- The commands of 41_mode_and_init, 42_line_control and 43_vector_slots: plain register accesses and table updates, then
one response. -/
def quietCommand : Instr → Bool
  | .relocate | .dispatch | .regRead _ | .regWrite _ _ => false
  | _ => true

/-- What one such command does, and that it completes. -/
theorem exec_quiet (i : Instr) (s : State) (h : quietCommand i = true) :
    ∃ (t : State) (v : Word), Quiet s t ∧ exec i s = .next (t.respond v) := by
  cases i with
  | setMode a =>
    simp only [exec, execSetMode]; split
    · exact ⟨_, _, quiet_mode s _, rfl⟩
    · exact ⟨_, _, .refl s, rfl⟩
  | init =>
    exact ⟨_, _, (((quiet_initRegisters s).trans (.foldl _ quiet_initSlot _ _)).trans
      (.foldl _ quiet_initLine _ _)).trans (quiet_mode _ _), rfl⟩
  | registerNv line routine =>
    simp only [exec, execRegisterNv]; split
    · split
      · exact ⟨_, _, .refl s, rfl⟩
      · exact ⟨_, _, quiet_nvTable s _, rfl⟩
    · exact ⟨_, _, .refl s, rfl⟩
  | enable line =>
    simp only [exec, execEnable]; split
    · exact ⟨_, _, quiet_regWrite s _ _ rfl (by simp), rfl⟩
    · exact ⟨_, _, .refl s, rfl⟩
  | disable line =>
    simp only [exec, execDisable]; split
    · exact ⟨_, _, quiet_regWrite s _ _ rfl (by simp), rfl⟩
    · exact ⟨_, _, .refl s, rfl⟩
  | disableAll => exact ⟨_, _, quiet_regWrite s _ _ rfl (by simp), rfl⟩
  | isEnabled line =>
    simp only [exec, execIsEnabled]; split
    · exact ⟨_, _, quiet_afterRead s _ rfl, rfl⟩
    · exact ⟨_, _, .refl s, rfl⟩
  | getType line =>
    simp only [exec, execGetType]; split
    · exact ⟨_, _, quiet_afterRead s _ rfl, rfl⟩
    · exact ⟨_, _, .refl s, rfl⟩
  | setType line kind =>
    simp only [exec, execSetType]; split
    · exact ⟨_, _, (quiet_afterRead s _ rfl).trans (quiet_regWrite _ _ _ rfl (by simp)), rfl⟩
    · exact ⟨_, _, .refl s, rfl⟩
    · exact ⟨_, _, .refl s, rfl⟩
  | registerVec line routine =>
    simp only [exec, execRegisterVec]; split
    · split
      · exact ⟨_, _, .refl s, rfl⟩
      · split
        · exact ⟨_, _, quiet_bindSlot s _ _ _, rfl⟩
        · exact ⟨_, _, .refl s, rfl⟩
    · exact ⟨_, _, .refl s, rfl⟩
  | unregisterVec line =>
    simp only [exec, execUnregisterVec]; split
    · exact ⟨_, _, quiet_forAssigned s _ _ quiet_releaseSlot, rfl⟩
    · exact ⟨_, _, .refl s, rfl⟩
  | enableVec line =>
    simp only [exec, execEnableVec]; split
    · exact ⟨_, _, quiet_forAssigned s _ _ quiet_enableSlot, rfl⟩
    · exact ⟨_, _, .refl s, rfl⟩
  | disableVec line =>
    simp only [exec, execDisableVec]; split
    · exact ⟨_, _, quiet_forAssigned s _ _ quiet_disableSlot, rfl⟩
    · exact ⟨_, _, .refl s, rfl⟩
  | disableAllVec => exact ⟨_, _, .foldl _ quiet_disableSlot _ s, rfl⟩
  | unregisterAllVec => exact ⟨_, _, .foldl _ quiet_releaseSlot _ s, rfl⟩
  | setDefaultVec routine =>
    simp only [exec, execSetDefaultVec]; split
    · exact ⟨_, _, .refl s, rfl⟩
    · exact ⟨_, _, quiet_regWrite s _ _ rfl (by simp), rfl⟩
  | swiTrigger => exact ⟨_, _, quiet_regWrite s _ _ rfl (by simp), rfl⟩
  | swiClear => exact ⟨_, _, quiet_regWrite s _ _ rfl (by simp), rfl⟩
  | relocate | dispatch | regRead _ | regWrite _ _ => simp [quietCommand] at h

end Sys2Proof.Machine
end

