-- ==== Sys2Proof/Laws/Operands.lean ====
section
/-!
SUPPORT. What the operand forms answer (30_encoding R113 to R115, 42_line_control R180).
-/
namespace Sys2Proof.Machine

/-- A line operand in range names its line (30_encoding R114). -/
theorem lineOf_eq_some {a : Word} {l : Line} (h : a.toNat = l.val) : lineOf a = some l := by simp [lineOf, h]

/-- A line operand out of range names none (30_encoding R114). -/
theorem lineOf_eq_none {a : Word} (h : 32 ≤ a.toNat) : lineOf a = none := by simp [lineOf, Nat.not_lt.2 h]

theorem lineOf_some_iff {a : Word} {l : Line} : lineOf a = some l ↔ a.toNat = l.val := by
  unfold lineOf
  split
  · simp [Fin.ext_iff]
  · have := l.isLt; simp; omega

/-- A two-valued type operand (42_line_control R177). -/
theorem kindOf_eq_some {k : Word} (h : k.toNat < 2) : kindOf k = some (decide (k = 1#32)) := by
  have : k = 0#32 ∨ k = 1#32 := by bv_omega
  rcases this with rfl | rfl <;> rfl

theorem kindOf_eq_none {k : Word} (h : 2 ≤ k.toNat) : kindOf k = none := by
  have h0 : k ≠ 0#32 := by rintro rfl; simp at h
  have h1 : k ≠ 1#32 := by rintro rfl; simp at h
  simp [kindOf, h0, h1]

/-- A two-valued mode operand (41_mode_and_init R161). -/
theorem modeOf_eq_none {a : Word} (h : 2 ≤ a.toNat) : modeOf a = none := by
  have h0 : a ≠ 0#32 := by rintro rfl; simp at h
  have h1 : a ≠ 1#32 := by rintro rfl; simp at h
  simp [modeOf, h0, h1]

/-- `bit(l)` has exactly bit `l` set (42_line_control R180). -/
theorem lineBit_getLsbD (l j : Line) : (lineBit l).getLsbD j.val = decide (j = l) := by
  rcases l with ⟨l, hl⟩
  rcases j with ⟨j, hj⟩
  simp only [lineBit, BitVec.getLsbD_shiftLeft, BitVec.getLsbD_one, Fin.mk.injEq]
  by_cases h : j = l
  · subst h; simp [hj]
  · simp [h, hj]; omega

/-- A slot index is no `FAIL` (43_vector_slots R204). -/
theorem slotWord_ne_fail (t : Slot) : slotWord t ≠ failWord := by revert t; decide

theorem slotWord_injective {j k : Slot} (h : slotWord j = slotWord k) : j = k := by revert j k; decide

end Sys2Proof.Machine
end

