-- ==== Sys2Proof/Laws/Flags.lean ====
section
/-!
SUPPORT. What the status words, the multiplexer and the scan answer (10_state R25, R34, R39, 44_dispatch R212).
-/
namespace Sys2Proof.Machine

/-- A bit of `IRQSTATUS`: requested, enabled, of type IRQ (10_state R25). -/
theorem irqStatus_getLsbD (s : State) (i : Line) : s.irqStatus.getLsbD i.val =
    ((s.rawsrc.getLsbD i.val || s.softInt.getLsbD i.val) && s.intEnable.getLsbD i.val && !s.intSelect.getLsbD i.val) := by
  simp [State.irqStatus, State.rawIntr]

/-- A bit of `FIQSTATUS`: requested, enabled, of type FIQ (10_state R26). -/
theorem fiqStatus_getLsbD (s : State) (i : Line) : s.fiqStatus.getLsbD i.val =
    ((s.rawsrc.getLsbD i.val || s.softInt.getLsbD i.val) && s.intEnable.getLsbD i.val && s.intSelect.getLsbD i.val) := by
  simp [State.fiqStatus, State.rawIntr]

/-- A word is non-zero exactly when some line's bit is 1. -/
theorem word_ne_zero_iff (w : Word) : w ≠ 0#32 ↔ ∃ i : Line, w.getLsbD i.val = true := by
  constructor
  · intro h
    by_contra hn
    refine h (BitVec.eq_of_getLsbD_eq fun i hi => ?_)
    have := fun he => hn ⟨⟨i, hi⟩, he⟩
    simpa using this
  · rintro ⟨i, hi⟩ rfl
    simp at hi

/-- The first element of an ascending list of indices that a test accepts is the lowest one. -/
theorem find_finRange_eq_some {n : Nat} (p : Fin n → Bool) (k : Fin n) :
    (List.finRange n).find? p = some k ↔ p k = true ∧ ∀ j : Fin n, j < k → p j = false := by
  constructor
  · intro h
    obtain ⟨hp, as, bs, hsplit, has⟩ := List.find?_eq_some_iff_append.1 h
    refine ⟨hp, fun j hj => ?_⟩
    have hmem : j ∈ as ++ k :: bs := by rw [← hsplit]; exact List.mem_finRange j
    have hsorted : (as ++ k :: bs).Pairwise (· < ·) := by rw [← hsplit]; exact List.pairwise_lt_finRange n
    rcases List.mem_append.1 hmem with hm | hm
    · simpa using has j hm
    · have := (List.pairwise_append.1 hsorted).2.1
      rcases List.mem_cons.1 hm with rfl | hm
      · exact absurd hj (lt_irrefl _)
      · exact absurd ((List.pairwise_cons.1 this).1 j hm) (not_lt.2 hj.le)
  · rintro ⟨hp, hlow⟩
    cases hf : (List.finRange n).find? p with
    | none => exact absurd hp (by simpa using List.find?_eq_none.1 hf k (List.mem_finRange k))
    | some m =>
      obtain ⟨hm, as, bs, hsplit, has⟩ := List.find?_eq_some_iff_append.1 hf
      rcases lt_trichotomy m k with h | h | h
      · simp [hlow m h] at hm
      · rw [h]
      · have hmem : k ∈ as ++ m :: bs := by rw [← hsplit]; exact List.mem_finRange k
        have hsorted : (as ++ m :: bs).Pairwise (· < ·) := by rw [← hsplit]; exact List.pairwise_lt_finRange n
        rcases List.mem_append.1 hmem with hk | hk
        · exact absurd hp (by simpa using has k hk)
        · rcases List.mem_cons.1 hk with rfl | hk
          · exact absurd h (lt_irrefl _)
          · exact absurd ((List.pairwise_cons.1 (List.pairwise_append.1 hsorted).2.1).1 k hk) (not_lt.2 h.le)

theorem find_finRange_eq_none {n : Nat} (p : Fin n → Bool) :
    (List.finRange n).find? p = none ↔ ∀ k : Fin n, p k = false := by
  simp [List.find?_eq_none, List.mem_finRange]

/-- The multiplexer's answer when slot `k` is the lowest matching one (10_state R34). -/
theorem curVect_of_lowest (s : State) (k : Slot) (h : s.slotMatches k = true)
    (hlow : ∀ j : Slot, j < k → s.slotMatches j = false) : s.curVect = s.vectAddr[k] := by
  have : allSlots.find? s.slotMatches = some k := (find_finRange_eq_some _ k).2 ⟨h, hlow⟩
  simp [State.curVect, this]

/-- The multiplexer's answer when no slot matches (10_state R34). -/
theorem curVect_of_none (s : State) (h : ∀ k : Slot, s.slotMatches k = false) : s.curVect = s.defVectAddr := by
  have : allSlots.find? s.slotMatches = none := (find_finRange_eq_none _).2 h
  simp [State.curVect, this]

/-- Everything the multiplexer can answer (10_state R34). -/
theorem curVect_cases (s : State) : (∃ k : Slot, s.slotMatches k = true ∧
    (∀ j : Slot, j < k → s.slotMatches j = false) ∧ s.curVect = s.vectAddr[k]) ∨
    ((∀ k : Slot, s.slotMatches k = false) ∧ s.curVect = s.defVectAddr) := by
  cases h : allSlots.find? s.slotMatches with
  | none =>
    have hn := (find_finRange_eq_none _).1 h
    exact .inr ⟨hn, curVect_of_none s hn⟩
  | some k =>
    obtain ⟨hk, hlow⟩ := (find_finRange_eq_some _ k).1 h
    exact .inl ⟨k, hk, hlow, curVect_of_lowest s k hk hlow⟩

/-- The next line of a scan is the lowest line of the snapshot at or above its start (44_dispatch R212). -/
theorem nextLine_eq_some (snap : Word) (start : Nat) (i : Line) : nextLine snap start = some i ↔
    start ≤ i.val ∧ snap.getLsbD i.val = true ∧ ∀ j : Line, start ≤ j.val → j < i → snap.getLsbD j.val = false := by
  unfold nextLine allLines
  rw [find_finRange_eq_some]
  simp only [Bool.and_eq_true, decide_eq_true_eq, Bool.and_eq_false_imp]
  constructor
  · rintro ⟨⟨h1, h2⟩, h3⟩; exact ⟨h1, h2, fun j hs hj => h3 j hj hs⟩
  · rintro ⟨h1, h2, h3⟩; exact ⟨⟨h1, h2⟩, fun j hj hs => h3 j hs hj⟩

theorem nextLine_eq_none (snap : Word) (start : Nat) : nextLine snap start = none ↔
    ∀ j : Line, start ≤ j.val → snap.getLsbD j.val = false := by
  unfold nextLine allLines
  rw [find_finRange_eq_none]
  simp

end Sys2Proof.Machine
end

