-- ==== Sys2Proof/Laws/Memory.lean ====
section
/-!
SUPPORT. The laws of system memory: read after write, and every operation keeps the canonical form (20_memory R81).
-/
namespace Sys2Proof.Machine

@[simp] theorem Memory.read_nil (a : Nat) : Memory.read [] a = Memory.blank := rfl

theorem Memory.wf_nil : Memory.wf [] := ⟨List.Pairwise.nil, by simp⟩

/-- Below the first listed address of a sorted tail, nothing is listed. -/
theorem Memory.read_below (m : List Host.Cell) (a : Nat) (h : ∀ c ∈ m, a < c.1) : Memory.read m a = Memory.blank := by
  induction m with
  | nil => rfl
  | cons c rest ih =>
    obtain ⟨x, y⟩ := c
    have hx : a < x := h (x, y) (by simp)
    simp only [Memory.read, if_neg (Nat.ne_of_gt hx)]
    exact ih fun c hc => h c (by simp [hc])

theorem Memory.wf_tail {c : Host.Cell} {m : List Host.Cell} (h : Memory.wf (c :: m)) : Memory.wf m :=
  ⟨(List.pairwise_cons.1 h.1).2, fun d hd => h.2 d (by simp [hd])⟩

theorem Memory.mem_write (m : List Host.Cell) (a : Nat) (b : Byte) (c : Host.Cell)
    (h : c ∈ Memory.write m a b) : c ∈ m ∨ (c = (a, b) ∧ b ≠ Memory.blank) := by
  induction m with
  | nil => by_cases hb : b = Memory.blank <;> simp_all [Memory.write]
  | cons d rest ih =>
    obtain ⟨x, y⟩ := d
    simp only [Memory.write] at h
    split at h
    · rcases List.mem_cons.1 h with h | h
      · exact .inl (by simp [h])
      · exact (ih h).imp (fun h => by simp [h]) id
    · split at h
      · split at h
        · exact .inl (by simp [h])
        · rcases List.mem_cons.1 h with h | h
          · exact .inr ⟨h, ‹_›⟩
          · exact .inl (by simp [h])
      · split at h
        · exact .inl h
        · rcases List.mem_cons.1 h with h | h
          · exact .inr ⟨h, ‹_›⟩
          · exact .inl h

/-- A byte write inside the address space keeps the canonical form. -/
theorem Memory.wf_write (m : List Host.Cell) (a : Nat) (b : Byte) (h : Memory.wf m) (ha : a < Memory.size) :
    Memory.wf (Memory.write m a b) := by
  refine ⟨?_, fun c hc => ?_⟩
  · induction m with
    | nil => by_cases hb : b = Memory.blank <;> simp [Memory.write, hb]
    | cons d rest ih =>
      obtain ⟨x, y⟩ := d
      have hp := List.pairwise_cons.1 h.1
      simp only [Memory.write]
      split
      · rename_i hx
        refine List.pairwise_cons.2 ⟨fun c hc => ?_, ih (Memory.wf_tail h)⟩
        rcases Memory.mem_write rest a b c hc with hc | ⟨rfl, -⟩
        · exact hp.1 c hc
        · exact hx
      · rename_i hx
        split
        · rename_i he
          subst he
          split
          · exact hp.2
          · exact List.pairwise_cons.2 ⟨hp.1, hp.2⟩
        · rename_i hne
          have hlt : a < x := by omega
          split
          · exact h.1
          · refine List.pairwise_cons.2 ⟨fun c hc => ?_, h.1⟩
            rcases List.mem_cons.1 hc with rfl | hc
            · exact hlt
            · exact hlt.trans (hp.1 c hc)
  · rcases Memory.mem_write m a b c hc with hc | ⟨rfl, hb⟩
    · exact h.2 c hc
    · exact ⟨hb, ha⟩

/-- What a byte write makes of a read: the byte at its address, every other byte as before. -/
theorem Memory.read_write (m : List Host.Cell) (a : Nat) (b : Byte) (h : Memory.wf m) (x : Nat) :
    Memory.read (Memory.write m a b) x = if x = a then b else Memory.read m x := by
  induction m with
  | nil =>
    by_cases hb : b = Memory.blank <;> by_cases hx : x = a <;> simp_all [Memory.write, Memory.read, eq_comm]
  | cons d rest ih =>
    obtain ⟨y, w⟩ := d
    have hp := List.pairwise_cons.1 h.1
    have ih := ih (Memory.wf_tail h)
    simp only [Memory.write]
    split
    · rename_i hlt
      simp only [Memory.read, ih]
      by_cases hy : y = x
      · subst hy; simp [Nat.ne_of_lt hlt]
      · simp [hy]
    · split
      · rename_i he
        subst he
        split
        · rename_i hb
          subst hb
          by_cases hx : x = y
          · subst hx; simp [Memory.read_below rest x (fun c hc => hp.1 c hc)]
          · simp [Memory.read, hx, Ne.symm hx]
        · by_cases hx : x = y
          · simp [Memory.read, hx]
          · simp [Memory.read, hx, Ne.symm hx]
      · rename_i hge hne
        have hlt : a < y := by omega
        have hbelow : Memory.read ((y, w) :: rest) a = Memory.blank :=
          Memory.read_below _ _ fun c hc => by
            rcases List.mem_cons.1 hc with rfl | hc
            · exact hlt
            · exact hlt.trans (hp.1 c hc)
        split
        · rename_i hb
          subst hb
          by_cases hx : x = a
          · subst hx; simp [hbelow]
          · simp [hx]
        · by_cases hx : x = a
          · simp [Memory.read, hx]
          · simp [Memory.read, hx, Ne.symm hx]

/-- The four bytes of a word go to the four addresses from its own on, every other byte as before (20_memory R85). -/
theorem Memory.read_writeWord (m : List Host.Cell) (a : Nat) (v : Word) (h : Memory.wf m)
    (ha : a + 3 < Memory.size) (x : Nat) :
    Memory.read (Memory.writeWord m a v) x =
      if x = a + 3 then v.extractLsb' 24 8 else if x = a + 2 then v.extractLsb' 16 8
      else if x = a + 1 then v.extractLsb' 8 8 else if x = a then v.extractLsb' 0 8 else Memory.read m x := by
  have h0 := Memory.wf_write m a (v.extractLsb' 0 8) h (by omega)
  have h1 := Memory.wf_write _ (a + 1) (v.extractLsb' 8 8) h0 (by omega)
  have h2 := Memory.wf_write _ (a + 2) (v.extractLsb' 16 8) h1 (by omega)
  simp only [Memory.writeWord, Memory.read_write _ _ _ h2, Memory.read_write _ _ _ h1, Memory.read_write _ _ _ h0,
    Memory.read_write _ _ _ h]

/-- A word write inside the address space keeps the canonical form. -/
theorem Memory.wf_writeWord (m : List Host.Cell) (a : Nat) (v : Word) (h : Memory.wf m)
    (ha : a + 3 < Memory.size) : Memory.wf (Memory.writeWord m a v) :=
  Memory.wf_write _ _ _
    (Memory.wf_write _ _ _ (Memory.wf_write _ _ _ (Memory.wf_write _ _ _ h (by omega)) (by omega)) (by omega)) ha

/-- Reading back the word just written. -/
theorem Memory.readWord_writeWord (m : List Host.Cell) (a : Nat) (v : Word) (h : Memory.wf m)
    (ha : a + 3 < Memory.size) : Memory.readWord (Memory.writeWord m a v) a = v := by
  simp only [Memory.readWord, Memory.read_writeWord m a v h ha]
  simp only [if_true, Nat.add_right_cancel_iff, Nat.reduceEqDiff, if_false, Nat.left_eq_add, OfNat.ofNat_ne_zero,
    one_ne_zero]
  ext i hi
  simp only [BitVec.getElem_append, BitVec.getElem_extractLsb']
  grind

/-- A word four or more bytes away is not touched. -/
theorem Memory.readWord_writeWord_of_disjoint (m : List Host.Cell) (a b : Nat) (v : Word) (h : Memory.wf m)
    (ha : a + 3 < Memory.size) (hab : b + 4 ≤ a ∨ a + 4 ≤ b) :
    Memory.readWord (Memory.writeWord m a v) b = Memory.readWord m b := by
  simp only [Memory.readWord, Memory.read_writeWord m a v h ha]
  repeat rw [if_neg (by omega), if_neg (by omega), if_neg (by omega), if_neg (by omega)]

end Sys2Proof.Machine
end

