-- ==== Sys2Proof/Laws/Ops.lean ====
section
/-!
SUPPORT. One lemma per shared operation that says everything it can answer; later proofs cite it instead of unfolding the
operation.
-/
namespace Sys2Proof.Machine

/-- What `RegRead` can answer (00_scope R9, 10_state R34): a second read of `VECTADDR` faults, every other read gives its
value. -/
theorem regRead_cases (s : State) (r : Reg) :
    (r = .vectAddr ∧ s.inService = true ∧ s.regRead r = .error .vectaddrReadTwice) ∨
    ((r = .vectAddr → s.inService = false) ∧ s.regRead r = .ok (s.readValue r, s.afterRead r)) := by
  by_cases h : r = .vectAddr ∧ s.inService = true
  · exact .inl ⟨h.1, h.2, by simp [State.regRead, h]⟩
  · refine .inr ⟨fun hr => ?_, by simp only [State.regRead, if_neg h]⟩
    simpa [hr] using h

/-- What first-fit can answer (43_vector_slots R191). -/
theorem allocate_eq_some_iff (s : State) (l : Line) (t : Slot) : s.allocate l = some t ↔
    (s.slotLine[t] = some l ∧ ∀ j : Slot, j < t → s.slotLine[j] ≠ some l) ∨
    ((∀ j : Slot, s.slotLine[j] ≠ some l) ∧ s.slotLine[t] = none ∧ ∀ j : Slot, j < t → s.slotLine[j] ≠ none) := by
  unfold State.allocate State.findSlot State.freeSlot allSlots
  cases hf : (List.finRange 16).find? (fun k : Slot => s.slotLine[k] == some l) with
  | none =>
    have hn := (find_finRange_eq_none _).1 hf
    simp only [beq_eq_false_iff_ne] at hn
    simp only [find_finRange_eq_some, beq_iff_eq, beq_eq_false_iff_ne]
    constructor
    · rintro ⟨h1, h2⟩; exact .inr ⟨hn, h1, h2⟩
    · rintro (⟨h1, -⟩ | ⟨-, h1, h2⟩)
      · exact absurd h1 (hn t)
      · exact ⟨h1, h2⟩
  | some k =>
    obtain ⟨hk, hlow⟩ := (find_finRange_eq_some _ k).1 hf
    simp only [beq_iff_eq, beq_eq_false_iff_ne] at hk hlow
    simp only [Option.some.injEq]
    constructor
    · rintro rfl; exact .inl ⟨hk, hlow⟩
    · rintro (⟨h1, h2⟩ | ⟨h1, -⟩)
      · rcases lt_trichotomy k t with h | h | h
        · exact absurd hk (h2 k h)
        · exact h
        · exact absurd h1 (hlow t h)
      · exact absurd hk (h1 k)

theorem allocate_eq_none_iff (s : State) (l : Line) :
    s.allocate l = none ↔ ∀ j : Slot, s.slotLine[j] ≠ some l ∧ s.slotLine[j] ≠ none := by
  unfold State.allocate State.findSlot State.freeSlot allSlots
  cases hf : (List.finRange 16).find? (fun k : Slot => s.slotLine[k] == some l) with
  | none =>
    have hn := (find_finRange_eq_none _).1 hf
    simp only [beq_eq_false_iff_ne] at hn
    simp only [find_finRange_eq_none, beq_eq_false_iff_ne]
    exact ⟨fun h j => ⟨hn j, h j⟩, fun h j => (h j).2⟩
  | some k =>
    obtain ⟨hk, -⟩ := (find_finRange_eq_some _ k).1 hf
    simp only [beq_iff_eq] at hk
    simp only [reduceCtorEq, false_iff, not_forall]
    exact ⟨k, fun h => h.1 hk⟩

/-- Everything a scan can answer (44_dispatch R212). -/
theorem scanFrom_cases (snap : Word) (start : Nat) (s : State) :
    (∃ i : Line, nextLine snap start = some i ∧
      scanFrom snap start s = s.invoke s.nvTable[i] (.nonVectored snap i)) ∨
    (nextLine snap start = none ∧ scanFrom snap start s = s.finishDispatch) := by
  unfold scanFrom
  cases h : nextLine snap start with
  | none => exact .inr ⟨rfl, rfl⟩
  | some i => exact .inl ⟨i, rfl, rfl⟩

/-- Everything `DISPATCH` can answer (44_dispatch R211 to R213). -/
theorem execDispatch_cases (s : State) :
    (s.dispBusy = true ∧ execDispatch s = .fault .dispatchReentered) ∨
    (s.dispBusy = false ∧ s.mode = .nonVectored ∧ execDispatch s = .next (dispatchNonVectored s)) ∨
    (s.dispBusy = false ∧ s.mode = .vectored ∧ s.inService = true ∧ execDispatch s = .fault .vectaddrReadTwice) ∨
    (s.dispBusy = false ∧ s.mode = .vectored ∧ s.inService = false ∧
      execDispatch s = .next ((s.afterRead .vectAddr).invoke s.curVect .vectored)) := by
  cases hb : s.dispBusy with
  | true => exact .inl ⟨rfl, by simp [execDispatch, hb]⟩
  | false =>
    refine .inr ?_
    cases hm : s.mode with
    | nonVectored => exact .inl ⟨rfl, rfl, by simp [execDispatch, hb, hm]⟩
    | vectored =>
      refine .inr ?_
      rcases regRead_cases s .vectAddr with ⟨-, hi, hr⟩ | ⟨hi, hr⟩
      · exact .inl ⟨rfl, rfl, hi, by simp [execDispatch, hb, hm, dispatchVectored, hr]⟩
      · exact .inr ⟨rfl, rfl, hi rfl, by simp [execDispatch, hb, hm, dispatchVectored, hr, State.readValue]⟩

/-- The bytes and the rest of the state after one step of a copy (40_relocator R146). -/
theorem copyWord_mem (phase : RelocState) (s : State) (k : Nat) : (copyWord phase s k).mem =
    Memory.writeWord s.mem (wordAddr s.params.dstStart k).toNat (s.wordAt (wordAddr (srcBegin s.params) k).toNat) := by
  simp [copyWord]

theorem copyWord_rest (phase : RelocState) (s : State) (k : Nat) : copyWord phase s k = { s with
    mem := (copyWord phase s k).mem, trace := (copyWord phase s k).trace, relocState := phase } := rfl

theorem copyWord_trace (phase : RelocState) (s : State) (k : Nat) : (copyWord phase s k).trace = s.trace ++
    [.memRead (wordAddr (srcBegin s.params) k) (s.wordAt (wordAddr (srcBegin s.params) k).toNat),
      .memWrite (wordAddr s.params.dstStart k) (s.wordAt (wordAddr (srcBegin s.params) k).toNat)] := by
  simp [copyWord]

end Sys2Proof.Machine
end

