-- ==== Sys2Proof/Laws/Relocator.lean ====
section
/-!
SUPPORT. The relocator's words as mathematical integers, what a copy may change, what it leaves, and everything `RELOCATE` can
answer (40_relocator R141 to R154).
-/
namespace Sys2Proof.Machine

/-! The relocator's words as mathematical integers. -/

theorem misaligned_iff (a : Word) : misaligned a = true ↔ a.toNat % 4 ≠ 0 := by
  simp [misaligned, BitVec.toNat_eq]

theorem srcBegin_toNat (p : Params) : (srcBegin p).toNat = sourceLo p := by
  unfold srcBegin sourceLo; split <;> omega

theorem srcEnd_toNat (p : Params) : (srcEnd p).toNat = sourceHi p := by
  unfold srcEnd sourceHi; split <;> omega

theorem sourceLo_le (p : Params) : sourceLo p ≤ sourceHi p := by unfold sourceLo sourceHi; omega

theorem sourceHi_lt (p : Params) : sourceHi p < 2 ^ 32 := by
  unfold sourceHi; have := p.srcA.isLt; have := p.srcB.isLt; omega

theorem lenBytes_toNat (p : Params) : (lenBytes p).toNat = blockLen p := by
  have h1 := sourceLo_le p
  have h2 := sourceHi_lt p
  rw [lenBytes, BitVec.toNat_sub_of_le (by rw [BitVec.le_def, srcBegin_toNat, srcEnd_toNat]; exact h1),
    srcBegin_toNat, srcEnd_toNat, blockLen]

theorem wordCount_eq (p : Params) : wordCount p = blockLen p / 4 := by
  simp [wordCount, lenBytes_toNat, Nat.shiftRight_eq_div_pow]

theorem relocMisaligned_iff (p : Params) : relocMisaligned p = true ↔ ¬ relocAligned p := by
  simp only [relocMisaligned, Bool.or_eq_true, misaligned_iff, relocAligned]; tauto

theorem copySkipped_iff (p : Params) : copySkipped p = true ↔ relocNoOp p := by
  have : (maxAddress - p.dstStart).toNat = 0xFFFFFFFF - p.dstStart.toNat := by
    have := p.dstStart.isLt
    rw [maxAddress, BitVec.toNat_sub_of_le (by rw [BitVec.le_def]; simp; omega)]; rfl
  simp only [copySkipped, relocNoOp, Bool.or_eq_true, decide_eq_true_eq, this, lenBytes_toNat, BitVec.toNat_eq,
    srcBegin_toNat, gt_iff_lt]

theorem copyHitsVic_iff (p : Params) : copyHitsVic p = true ↔ relocMeetsVic p := by
  have h1 := sourceLo_le p
  have h2 : blockLen p = sourceHi p - sourceLo p := rfl
  simp only [copyHitsVic, meetsVic, Bool.or_eq_true, decide_eq_true_eq, lenBytes_toNat, srcBegin_toNat, relocMeetsVic,
    vicBlockBytes]
  constructor
  · rintro (⟨h, h', h''⟩ | ⟨h, h', h''⟩)
    · exact ⟨max (sourceLo p) p.vicBase.toNat, by omega⟩
    · exact ⟨max p.dstStart.toNat p.vicBase.toNat, by omega⟩
  · rintro ⟨x, hx⟩; omega

/-- The address of word `k` of a block that ends inside the address space (40_relocator R154). -/
theorem wordAddr_toNat (a : Word) (k : Nat) (h : a.toNat + 4 * k < 2 ^ 32) : (wordAddr a k).toNat = a.toNat + 4 * k := by
  rw [wordAddr, BitVec.toNat_add, BitVec.toNat_ofNat, Nat.mod_eq_of_lt (a := 4 * k) (by omega), Nat.mod_eq_of_lt h]

theorem wordAddr_eq (a : Word) (k : Nat) (h : a.toNat + 4 * k < 2 ^ 32) :
    wordAddr a k = BitVec.ofNat 32 (a.toNat + 4 * k) := by
  apply BitVec.eq_of_toNat_eq; rw [wordAddr_toNat a k h, BitVec.toNat_ofNat, Nat.mod_eq_of_lt h]

theorem wordAddr_aligned (a : Word) (k : Nat) (h : a.toNat % 4 = 0) : (wordAddr a k).toNat % 4 = 0 := by
  rw [wordAddr, BitVec.toNat_add, BitVec.toNat_ofNat]; omega

/-- What any sequence of copy steps may change: memory, the phase, and memory accesses appended to the observations. -/
structure CopiesOnly (s t : State) : Prop where
  trace : ∃ es : List Event, t.trace = s.trace ++ es ∧ (∀ e ∈ es, e.isMemAccess = true) ∧
    (s.params.dstStart.toNat % 4 = 0 → ∀ e ∈ es, e.storesAligned = true) ∧ Replays es s t
  wf : s.params.dstStart.toNat % 4 = 0 → Memory.wf s.mem → Memory.wf t.mem
  rest : t = { s with mem := t.mem, relocState := t.relocState, trace := t.trace }

theorem CopiesOnly.refl (s : State) : CopiesOnly s s := ⟨⟨[], by simp, by simp, by simp, fun _ => rfl⟩, fun _ h => h, rfl⟩

theorem CopiesOnly.params {s t : State} (h : CopiesOnly s t) : t.params = s.params := by rw [h.rest]

theorem CopiesOnly.trans {s t u : State} (h : CopiesOnly s t) (k : CopiesOnly t u) : CopiesOnly s u := by
  obtain ⟨es, he, hp, ha, hr⟩ := h.trace
  obtain ⟨fs, hf, hq, hb, hs⟩ := k.trace
  refine ⟨⟨es ++ fs, by rw [hf, he, List.append_assoc], fun e hm => (List.mem_append.1 hm).elim (hp e) (hq e),
      fun h4 e hm => (List.mem_append.1 hm).elim (ha h4 e) (hb (by rw [h.params]; exact h4) e), hr.trans hs⟩,
    fun ha hw => k.wf (by rw [h.params]; exact ha) (h.wf ha hw), ?_⟩
  rw [k.rest, h.rest]

theorem copiesOnly_copyWord (ph : RelocState) (s : State) (k : Nat) : CopiesOnly s (copyWord ph s k) := by
  refine ⟨⟨_, copyWord_trace ph s k, by simp [Event.isMemAccess],
    fun ha => by simp [Event.storesAligned, wordAddr_aligned _ _ ha], s.afterMemRead _, fun j o => ⟨_, rfl⟩, rfl,
    .cons (fun _ _ => rfl) rfl fun _ => rfl⟩, fun ha hw => ?_, copyWord_rest ph s k⟩
  rw [copyWord_mem]
  have h4 := wordAddr_aligned s.params.dstStart k ha
  have hlt := (wordAddr s.params.dstStart k).isLt
  exact Memory.wf_writeWord _ _ _ hw (by unfold Memory.size; omega)

theorem CopiesOnly.foldl {β : Type} (f : State → β → State) (h : ∀ s b, CopiesOnly s (f s b)) (xs : List β)
    (s : State) : CopiesOnly s (xs.foldl f s) :=
  foldl_invariant (CopiesOnly s) f (fun t b ht => ht.trans (h t b)) xs s (.refl s)

/-- What the copy of either direction may change (40_relocator R146 to R149). -/
theorem copiesOnly_runCopy (s : State) : CopiesOnly s (runCopy s) := by
  unfold runCopy copyForward copyBackward
  split
  · exact .foldl _ (fun t k => copiesOnly_copyWord _ t k) _ s
  · exact .foldl _ (fun t k => copiesOnly_copyWord _ t k) _ s

/-- Everything `RELOCATE` can answer (40_relocator R141). -/
theorem execRelocate_cases (s : State) :
    (s.dispBusy = true ∧ execRelocate s = .fault .relocateInHandler) ∨
    (s.dispBusy = false ∧ s.relocDone = true ∧ execRelocate s = .fault .relocateTwice) ∨
    (s.dispBusy = false ∧ s.relocDone = false ∧ ¬ relocAligned s.params ∧ execRelocate s = .fault .relocMisaligned) ∨
    (s.relocReady ∧ relocNoOp s.params ∧ execRelocate s = .next (finishRelocate s)) ∨
    (s.relocReady ∧ ¬ relocNoOp s.params ∧ relocMeetsVic s.params ∧ execRelocate s = .fault .relocHitsVic) ∨
    (s.relocReady ∧ ¬ relocNoOp s.params ∧ ¬ relocMeetsVic s.params ∧
      execRelocate s = .next (finishRelocate (runCopy { s with relocState := .check }))) := by
  have hb : s.dispBusy = false ↔ s.dispatch = .idle := by simp [State.dispBusy]
  by_cases h1 : s.dispBusy = true
  · exact .inl ⟨h1, by simp [execRelocate, h1]⟩
  simp only [Bool.not_eq_true] at h1
  by_cases h2 : s.relocDone = true
  · exact .inr (.inl ⟨h1, h2, by simp [execRelocate, h1, h2]⟩)
  simp only [Bool.not_eq_true] at h2
  by_cases h3 : relocAligned s.params
  swap
  · exact .inr (.inr (.inl ⟨h1, h2, h3, by simp [execRelocate, h1, h2, (relocMisaligned_iff _).2 h3]⟩))
  have h3' : relocMisaligned s.params = false := by
    rw [← Bool.not_eq_true, relocMisaligned_iff, not_not]; exact h3
  have hr : s.relocReady := ⟨hb.1 h1, h2, h3⟩
  by_cases h4 : relocNoOp s.params
  · exact .inr (.inr (.inr (.inl ⟨hr, h4, by simp [execRelocate, h1, h2, h3', (copySkipped_iff _).2 h4]⟩)))
  have h4' : copySkipped s.params = false := by rw [← Bool.not_eq_true, copySkipped_iff]; exact h4
  by_cases h5 : relocMeetsVic s.params
  · exact .inr (.inr (.inr (.inr (.inl
      ⟨hr, h4, h5, by simp [execRelocate, h1, h2, h3', h4', (copyHitsVic_iff _).2 h5]⟩))))
  have h5' : copyHitsVic s.params = false := by rw [← Bool.not_eq_true, copyHitsVic_iff]; exact h5
  exact .inr (.inr (.inr (.inr (.inr ⟨hr, h4, h5, by simp [execRelocate, h1, h2, h3', h4', h5']⟩))))

/-- What the first `n` steps of a forward copy leave (40_relocator R146, R148): `n` destination words hold what their source
words held, nothing outside them changed, so the source words still to be read are as before. -/
structure CopiedUpTo (s t : State) (lo hi : Nat) : Prop where
  only : CopiesOnly s t
  words : ∀ k, lo ≤ k → k < hi → t.wordAt (s.params.dstStart.toNat + 4 * k) = s.wordAt (sourceLo s.params + 4 * k)
  bytes : ∀ a, a < s.params.dstStart.toNat + 4 * lo ∨ s.params.dstStart.toNat + 4 * hi ≤ a → t.byteAt a = s.byteAt a

theorem readWord_congr {m m' : List Host.Cell} {a : Nat} (h : ∀ x, a ≤ x → x < a + 4 → Memory.read m x = Memory.read m' x) :
    Memory.readWord m a = Memory.readWord m' a := by
  simp only [Memory.readWord, h a (by omega) (by omega), h (a+1) (by omega) (by omega), h (a+2) (by omega) (by omega),
    h (a+3) (by omega) (by omega)]

theorem CopiedUpTo.word {s t : State} {lo hi : Nat} (h : CopiedUpTo s t lo hi) (a : Nat)
    (ha : a + 4 ≤ s.params.dstStart.toNat + 4 * lo ∨ s.params.dstStart.toNat + 4 * hi ≤ a) : t.wordAt a = s.wordAt a :=
  readWord_congr fun x h1 h2 => h.bytes x (by omega)

/-- One more step, at the word just above or just below those done. -/
theorem CopiedUpTo.step {s t : State} {lo hi : Nat} (ph : RelocState) (k : Nat) (h : CopiedUpTo s t lo hi) (hw : Memory.wf s.mem)
    (h4 : s.params.dstStart.toNat % 4 = 0)
    (hk : (k = hi ∧ lo ≤ hi) ∨ (k + 1 = lo ∧ lo ≤ hi))
    (hd : s.params.dstStart.toNat + 4 * k + 4 ≤ 2 ^ 32) (hs : sourceLo s.params + 4 * k + 4 ≤ 2 ^ 32)
    (hfree : sourceLo s.params + 4 * k + 4 ≤ s.params.dstStart.toNat + 4 * lo ∨
      s.params.dstStart.toNat + 4 * hi ≤ sourceLo s.params + 4 * k) :
    CopiedUpTo s (copyWord ph t k) (min k lo) (max (k + 1) hi) ∧
      (copyWord ph t k).trace = t.trace ++ copyStepTrace s k := by
  have hp := h.only.params
  have hsrc : (wordAddr (srcBegin t.params) k).toNat = sourceLo s.params + 4 * k := by
    rw [hp, wordAddr_toNat _ _ (by rw [srcBegin_toNat]; omega), srcBegin_toNat]
  have hdst : (wordAddr t.params.dstStart k).toNat = s.params.dstStart.toNat + 4 * k := by
    rw [hp, wordAddr_toNat _ _ (by omega)]
  have hv : t.wordAt (sourceLo s.params + 4 * k) = s.wordAt (sourceLo s.params + 4 * k) := h.word _ hfree
  have hwt := h.only.wf h4 hw
  have hmem : (copyWord ph t k).mem = Memory.writeWord t.mem (s.params.dstStart.toNat + 4 * k)
      (s.wordAt (sourceLo s.params + 4 * k)) := by rw [copyWord_mem, hsrc, hdst, hv]
  have hin : s.params.dstStart.toNat + 4 * k + 3 < Memory.size := by unfold Memory.size; omega
  refine ⟨⟨h.only.trans (copiesOnly_copyWord ph t k), ?_, ?_⟩, ?_⟩
  · intro j h1 h2
    by_cases hj : j = k
    · subst hj; simp only [State.wordAt] at hmem ⊢; rw [hmem]; exact Memory.readWord_writeWord _ _ _ hwt hin
    · rw [← h.words j (by omega) (by omega)]
      simp only [State.wordAt]; rw [hmem]
      exact Memory.readWord_writeWord_of_disjoint _ _ _ _ hwt hin (by omega)
  · intro a ha
    rw [← h.bytes a (by omega)]
    simp only [State.byteAt]; rw [hmem, Memory.read_writeWord _ _ _ hwt hin]
    rw [if_neg (by omega), if_neg (by omega), if_neg (by omega), if_neg (by omega)]
  · rw [copyWord_trace, hsrc, hv, copyStepTrace, hp]
    rw [wordAddr_eq _ _ (by rw [srcBegin_toNat]; omega), wordAddr_eq _ _ (by omega), srcBegin_toNat]

theorem copiedUpTo_refl (s : State) (k : Nat) : CopiedUpTo s s k k :=
  ⟨.refl s, fun j h1 h2 => by omega, fun a _ => rfl⟩

/-- The facts of an accepted copy (40_relocator R144, R154). -/
theorem copy_bounds {s : State} (hr : s.relocReady) (hn : ¬ relocNoOp s.params) :
    s.params.dstStart.toNat % 4 = 0 ∧ sourceLo s.params % 4 = 0 ∧ blockLen s.params % 4 = 0 ∧
    s.params.dstStart.toNat + blockLen s.params < 2 ^ 32 ∧ sourceLo s.params + blockLen s.params < 2 ^ 32 ∧
    sourceLo s.params + blockLen s.params = sourceHi s.params ∧ s.params.dstStart.toNat ≠ sourceLo s.params := by
  obtain ⟨-, -, ha, hb, hc⟩ := hr
  have := sourceHi_lt s.params
  have := sourceLo_le s.params
  have := s.params.dstStart.isLt
  have e1 : blockLen s.params = sourceHi s.params - sourceLo s.params := rfl
  have e2 : sourceLo s.params % 4 = 0 := by unfold sourceLo; omega
  have e3 : sourceHi s.params % 4 = 0 := by unfold sourceHi; omega
  unfold relocNoOp at hn
  refine ⟨hc, e2, ?_, ?_, ?_, ?_, ?_⟩ <;> omega

theorem copyForward_spec {s : State} (hw : Memory.wf s.mem) (hr : s.relocReady) (hn : ¬ relocNoOp s.params)
    (hf : s.params.dstStart.toNat < sourceLo s.params ∨ sourceHi s.params ≤ s.params.dstStart.toNat) (n : Nat)
    (hle : 4 * n ≤ blockLen s.params) : CopiedUpTo s (copyForward n s) 0 n ∧
      (copyForward n s).trace = s.trace ++ (List.range n).flatMap (copyStepTrace s) := by
  obtain ⟨b1, b2, b3, b4, b5, b6, b7⟩ := copy_bounds hr hn
  induction n with
  | zero => exact ⟨copiedUpTo_refl s 0, by simp [copyForward]⟩
  | succ n ih =>
    obtain ⟨hc, ht⟩ := ih (by omega)
    have hstep : copyForward (n + 1) s = copyWord (.copyFwd n) (copyForward n s) n := by
      simp [copyForward, List.range_succ, List.foldl_append]
    have := hc.step (.copyFwd n) n hw b1 (.inl ⟨rfl, by omega⟩) (by omega) (by omega) (by omega)
    rw [hstep]
    refine ⟨by simpa using this.1, ?_⟩
    rw [this.2, ht]; simp [List.range_succ]

theorem copyBackward_spec {s t : State} (hw : Memory.wf s.mem) (hr : s.relocReady) (hn : ¬ relocNoOp s.params)
    (hb : sourceLo s.params < s.params.dstStart.toNat) (n m : Nat)
    (hle : 4 * m ≤ blockLen s.params) (hnm : n ≤ m) (hc : CopiedUpTo s t n m) : CopiedUpTo s (copyBackward n t) 0 m ∧
      (copyBackward n t).trace = t.trace ++ (List.range n).reverse.flatMap (copyStepTrace s) := by
  obtain ⟨b1, b2, b3, b4, b5, b6, b7⟩ := copy_bounds hr hn
  induction n generalizing t with
  | zero => exact ⟨by simpa [copyBackward] using hc, by simp [copyBackward]⟩
  | succ n ih =>
    have hstep : copyBackward (n + 1) t = copyBackward n (copyWord (.copyBwd n) t n) := by
      simp [copyBackward, List.range_succ]
    have := hc.step (.copyBwd n) n hw b1 (.inr ⟨rfl, hnm⟩) (by omega) (by omega) (by omega)
    rw [hstep]
    have h2 := ih (by omega) (by simpa [Nat.max_eq_right hnm] using this.1)
    refine ⟨h2.1, ?_⟩
    rw [h2.2, this.2]; simp [List.range_succ]

theorem runCopy_spec {s : State} (hw : Memory.wf s.mem) (hr : s.relocReady) (hn : ¬ relocNoOp s.params) :
    CopiedUpTo s (runCopy s) 0 (blockLen s.params / 4) ∧
    ((s.params.dstStart.toNat < sourceLo s.params ∨ sourceHi s.params ≤ s.params.dstStart.toNat) →
      (runCopy s).trace = s.trace ++ (List.range (blockLen s.params / 4)).flatMap (copyStepTrace s)) ∧
    (sourceLo s.params < s.params.dstStart.toNat → s.params.dstStart.toNat < sourceHi s.params →
      (runCopy s).trace = s.trace ++ (List.range (blockLen s.params / 4)).reverse.flatMap (copyStepTrace s)) := by
  obtain ⟨b1, b2, b3, b4, b5, b6, b7⟩ := copy_bounds hr hn
  by_cases hf : s.params.dstStart.toNat < sourceLo s.params ∨ sourceHi s.params ≤ s.params.dstStart.toNat
  · have hcf : copiesForward s.params = true := by
      simpa [copiesForward, srcBegin_toNat, srcEnd_toNat] using hf
    have := copyForward_spec hw hr hn hf (blockLen s.params / 4) (by omega)
    simp only [runCopy, hcf, if_true, wordCount_eq]
    exact ⟨this.1, fun _ => this.2, fun h1 h2 => by omega⟩
  · have hcf : copiesForward s.params = false := by
      rw [← Bool.not_eq_true]; simpa [copiesForward, srcBegin_toNat, srcEnd_toNat] using hf
    have := copyBackward_spec (t := s) hw hr hn (by omega) (blockLen s.params / 4) _ (by omega) le_rfl (copiedUpTo_refl s _)
    simp only [runCopy, hcf, wordCount_eq]
    exact ⟨this.1, fun h => absurd h hf, fun _ _ => this.2⟩

end Sys2Proof.Machine
end

