-- ==== Sys2Proof/Laws/Exec.lean ====
section
/-!
SUPPORT. Inversions: what a command, a return and a step did, from the fact that they gave a next state. Later proofs case on
these instead of unfolding the meanings.
-/
namespace Sys2Proof.Machine

theorem dispBusy_eq_false (s : State) : s.dispBusy = false ↔ s.dispatch = .idle := by simp [State.dispBusy]

theorem dispBusy_eq_true (s : State) : s.dispBusy = true ↔ s.dispatch ≠ .idle := by simp [State.dispBusy]

/-- The five shapes of a command. -/
theorem instr_cases (i : Instr) : quietCommand i = true ∨ i = .relocate ∨ i = .dispatch ∨ (∃ off, i = .regRead off) ∨
    ∃ off v, i = .regWrite off v := by
  cases i <;> simp [quietCommand]

/-- A command of 41_mode_and_init, 42_line_control or 43_vector_slots gave `t`. -/
theorem quiet_next {i : Instr} {s t : State} (hq : quietCommand i = true) (h : exec i s = .next t) :
    ∃ (u : State) (v : Word), Quiet s u ∧ t = u.respond v := by
  obtain ⟨u, v, hu, he⟩ := exec_quiet i s hq
  rw [he] at h
  cases h
  exact ⟨u, v, hu, rfl⟩

/-- `REG_READ` gave `t` (45_regfile_access R231). -/
theorem regRead_next {off : Word} {s t : State} (h : exec (.regRead off) s = .next t) : ∃ r : Reg,
    registerAt s.params.offsets off = some r ∧ (r = .vectAddr → s.inService = false) ∧
    t = (s.afterRead r).respond (s.readValue r) := by
  simp only [exec, execRegRead] at h
  split at h
  · cases h
  split at h
  · cases h
  rename_i r hr
  rcases regRead_cases s r with ⟨-, -, h'⟩ | ⟨h1, h'⟩
  · rw [h'] at h; cases h
  · rw [h'] at h; cases h; exact ⟨r, hr, h1, rfl⟩

/-- `REG_WRITE` gave `t` (45_regfile_access R232). -/
theorem regWrite_next {off v : Word} {s t : State} (h : exec (.regWrite off v) s = .next t) : ∃ r : Reg,
    registerAt s.params.offsets off = some r ∧ t = (s.regWrite r v).respond 0#32 := by
  simp only [exec, execRegWrite] at h
  split at h
  · cases h
  split at h
  · cases h
  rename_i r hr
  cases h
  exact ⟨r, hr, rfl⟩

/-- `RELOCATE` gave `t` (40_relocator R141). -/
theorem relocate_next {s t : State} (h : exec .relocate s = .next t) : s.relocReady ∧
    (Memory.wf s.mem → Memory.wf t.mem) ∧
    t = { s with mem := t.mem, relocState := .idle, relocDone := true, resp := 0#32, trace := t.trace } ∧
    ∃ es : List Event, t.trace = s.trace ++ es ++ [.response 0#32] ∧ (∀ e ∈ es, e.isMemAccess = true) ∧
      (∀ e ∈ es, e.storesAligned = true) ∧ ∃ u : State, Replays es s u ∧ t = u.respond 0#32 := by
  simp only [exec] at h
  rcases execRelocate_cases s with h' | h' | h' | h' | h' | h'
  · rw [h'.2] at h; cases h
  · rw [h'.2.2] at h; cases h
  · rw [h'.2.2.2] at h; cases h
  · rw [h'.2.2] at h; cases h
    exact ⟨h'.1, id, by simp [finishRelocate, State.respond, State.observe], [],
      by simp [finishRelocate, State.respond, State.observe], by simp, by simp,
      { s with relocState := .idle, relocDone := true }, fun _ => rfl, rfl⟩
  · rw [h'.2.2.2] at h; cases h
  · rw [h'.2.2.2] at h; cases h
    have hc := copiesOnly_runCopy { s with relocState := .check }
    refine ⟨h'.1, hc.wf h'.1.2.2.2.2, ?_, ?_⟩
    · rw [hc.rest]; simp [finishRelocate, State.respond, State.observe]
    · obtain ⟨es, he, hm, ha, hr⟩ := hc.trace
      exact ⟨es, by simp [finishRelocate, State.respond, State.observe, he], hm, ha h'.1.2.2.2.2,
        { runCopy { s with relocState := .check } with relocState := .idle, relocDone := true },
        replays_from (s' := { s with relocState := .check }) (fun _ => rfl) (replays_to
          (t := runCopy { s with relocState := .check }) (fun _ => rfl) hr), rfl⟩

/-- Every command but `DISPATCH` that completes: its accesses, none of them a response and each store aligned, then its
response; and that its accesses can be replayed one by one, whatever the parts of the state that they do not see
become meanwhile (20_memory R90). A `REG_READ` may read `RAWSRC`, but has no second access. -/
theorem exec_replays {i : Instr} {s t : State} (hi : i ≠ .dispatch) (h : exec i s = .next t) :
    ∃ (es : List Event) (v : Word) (u : State), t = u.respond v ∧ u.trace = s.trace ++ es ∧
      (∀ e ∈ es, e.isResponse = false ∧ e.storesAligned = true) ∧ u.job = s.job ∧ u.moves = s.moves ∧
      u.rawsrc = s.rawsrc ∧ (s.relocDone || u.relocDone) = u.relocDone ∧
      (s.relocState = .idle → u.relocState = .idle) ∧
      (Replays es s u ∨ ∃ e, es = [e] ∧
        ∀ j o, o.rawsrc = s.rawsrc → performEvent j (s.withUnseen o) e = u.withUnseen o) := by
  rcases instr_cases i with hq | rfl | rfl | ⟨off, rfl⟩ | ⟨off, v, rfl⟩
  · obtain ⟨u, v, hu, rfl⟩ := quiet_next hq h
    obtain ⟨es, he, hp, hr⟩ := hu.trace
    refine ⟨es, v, u, rfl, he, fun e hm => ?_, hu.job, hu.moves, hu.rawsrc, by simp [hu.relocDone],
      fun h => hu.relocState.trans h, .inl hr⟩
    have := hp e hm
    cases e <;> simp_all [Event.isPlainAccess, Event.isResponse, Event.storesAligned]
  · obtain ⟨-, -, ht, es, he, hm, ha, u, hr, rfl⟩ := relocate_next h
    refine ⟨es, 0#32, u, rfl, List.append_cancel_right (by simpa only [State.respond_trace] using he), fun e hx => ⟨?_, ha e hx⟩,
      by simpa using congrArg State.job ht, by simpa using congrArg State.moves ht,
      by simpa using congrArg State.rawsrc ht, ?_, fun _ => by simpa using congrArg State.relocState ht, .inl hr⟩
    · have := hm e hx
      clear ht
      cases e <;> simp_all [Event.isMemAccess, Event.isResponse]
    · rw [show u.relocDone = true by simpa using congrArg State.relocDone ht, Bool.or_true]
  · exact absurd rfl hi
  · obtain ⟨r, -, -, rfl⟩ := regRead_next h
    refine ⟨[.regRead r (s.readValue r)], _, s.afterRead r, rfl, by simp, by simp [Event.isResponse, Event.storesAligned],
      by simp, by simp, by simp, by simp, by simp, .inr ⟨_, rfl, fun j o ho => ?_⟩⟩
    obtain ⟨raw, nv, sl, m, rs, rd, jb, mv⟩ := o
    cases ho
    cases r <;> rfl
  · obtain ⟨r, -, rfl⟩ := regWrite_next h
    exact ⟨[.regWrite r v], _, s.regWrite r v, rfl, by simp, by simp [Event.isResponse, Event.storesAligned],
      by simp, by simp, by simp, by simp, by simp, .inl (replays_regWrite s r v)⟩

/-- What a scan changes, and the two ways it ends (44_dispatch R212). -/
theorem scanFrom_frame (snap : Word) (start : Nat) (s : State) : ∃ (es : List Event) (d : DispatchState) (v : Word),
    scanFrom snap start s = { s with trace := s.trace ++ es, dispatch := d, resp := v } ∧
    ((es = [.response v] ∧ v = 0#32 ∧ d = .idle) ∨
      (v = s.resp ∧ ∃ i : Line, start ≤ i.val ∧ snap.getLsbD i.val = true ∧ es = [.call s.nvTable[i]] ∧
        d = .nonVectored snap i)) := by
  rcases scanFrom_cases snap start s with ⟨i, hn, h⟩ | ⟨-, h⟩
  · have := (nextLine_eq_some snap start i).1 hn
    exact ⟨[.call s.nvTable[i]], .nonVectored snap i, s.resp, by simp [h, State.invoke, State.observe],
      .inr ⟨rfl, i, this.1, this.2.1, rfl, rfl⟩⟩
  · exact ⟨[.response 0#32], .idle, 0#32, by simp [h, State.finishDispatch, State.respond, State.observe],
      .inl ⟨rfl, rfl, rfl⟩⟩

/-- `DISPATCH` gave `t` (44_dispatch R211 to R213). -/
theorem dispatch_next {s t : State} (h : exec .dispatch s = .next t) : s.dispatch = .idle ∧
    ((s.mode = .nonVectored ∧ t = scanFrom s.irqStatus 0 (s.observe (.regRead .irqStatus s.irqStatus))) ∨
      (s.mode = .vectored ∧ s.inService = false ∧ t = { s with
        inService := true, dispatch := .vectored, trace := s.trace ++ [.regRead .vectAddr s.curVect, .call s.curVect] })) := by
  simp only [exec] at h
  rcases execDispatch_cases s with h' | h' | h' | h'
  · rw [h'.2] at h; cases h
  · rw [h'.2.2] at h; cases h
    exact ⟨(dispBusy_eq_false s).1 h'.1, .inl ⟨h'.2.1, rfl⟩⟩
  · rw [h'.2.2.2] at h; cases h
  · rw [h'.2.2.2] at h; cases h
    exact ⟨(dispBusy_eq_false s).1 h'.1, .inr ⟨h'.2.1, h'.2.2.1,
      by simp [State.invoke, State.afterRead, State.readEffect, State.observe, State.readValue]⟩⟩

/-- A return gave `t` (44_dispatch R212, R213, R216). -/
theorem return_next {s t : State} (h : routineReturn s = .next t) :
    (∃ (snap : Word) (i : Line), s.dispatch = .nonVectored snap i ∧ t = scanFrom snap (i.val + 1) (s.observe .ret)) ∨
    (s.dispatch = .vectored ∧ t = { s with
      inService := false, dispatch := .idle, resp := 0#32,
      trace := s.trace ++ [.ret, .regWrite .vectAddr s.params.eoiSentinel, .response 0#32] }) := by
  unfold routineReturn at h
  split at h
  · cases h
  · cases h; exact .inl ⟨_, _, by assumption, rfl⟩
  · cases h
    exact .inr ⟨by assumption,
      by simp [State.regWrite, State.writeEffect, State.observe, State.finishDispatch, State.respond]⟩

/-- A guarded move gave `t`: no command was in progress. -/
theorem whenFree_next {s t : State} {r : Result} (h : whenFree s r = .next t) : s.job = none ∧ r = .next t := by
  unfold whenFree at h
  split at h
  · cases h
  · exact ⟨by assumption, h⟩

theorem whenFree_free {s : State} (r : Result) (h : s.job = none) : whenFree s r = r := by
  unfold whenFree
  split
  · simp_all
  · rfl

/-- A command run access by access gave `t` (20_memory R90). -/
theorem startInstr_next {i : Instr} {s t : State} (h : startInstr i s = .next t) :
    (i = .dispatch ∧ exec .dispatch s = .next t) ∨
    (i ≠ .dispatch ∧ ∃ u : State, exec i s = .next u ∧ t = nextAccess (jobOf s u) s) := by
  unfold startInstr at h
  split at h
  · exact .inl ⟨by assumption, h⟩
  · refine .inr ⟨by assumption, ?_⟩
    split at h
    · cases h; exact ⟨_, by assumption, rfl⟩
    · cases h
    · cases h

/-- A step gave `t` (00_scope R15; logs 1, 3). -/
theorem step_next {s t : State} (h : step s = .next t) :
    (s.moves = [] ∧ t = s) ∨
    (∃ (cw : CommandWord) (rest : List Move) (i : Instr), s.moves = .present cw :: rest ∧ s.job = none ∧
      decode cw = .ok i ∧ exec i { s with moves := rest } = .next t) ∨
    (∃ (cw : CommandWord) (rest : List Move) (i : Instr), s.moves = .start cw :: rest ∧ s.job = none ∧
      decode cw = .ok i ∧ startInstr i { s with moves := rest } = .next t) ∨
    (∃ (rest : List Move) (j : CommandJob), s.moves = .proceed :: rest ∧ s.job = some j ∧
      t = nextAccess j { s with moves := rest }) ∨
    (∃ (v : Word) (rest : List Move), s.moves = .sources v :: rest ∧ t = { s with moves := rest, rawsrc := v }) ∨
    (∃ rest : List Move, s.moves = .routineReturn :: rest ∧ s.job = none ∧
      routineReturn { s with moves := rest } = .next t) := by
  unfold step takeMove at h
  split at h <;> rename_i heq <;> split at heq <;> simp at heq
  · cases h; exact .inl ⟨by assumption, rfl⟩
  · obtain ⟨rfl, rfl⟩ := heq
    obtain ⟨hj, h⟩ := whenFree_next h
    unfold acceptCommand at h
    split at h
    · exact .inr (.inl ⟨_, _, _, by assumption, hj, by assumption, h⟩)
    · cases h
  · obtain ⟨rfl, rfl⟩ := heq
    obtain ⟨hj, h⟩ := whenFree_next h
    unfold startCommand at h
    split at h
    · exact .inr (.inr (.inl ⟨_, _, _, by assumption, hj, by assumption, h⟩))
    · cases h
  · obtain ⟨rfl, rfl⟩ := heq
    unfold proceedCommand at h
    split at h
    · cases h; exact .inr (.inr (.inr (.inl ⟨_, _, by assumption, by assumption, rfl⟩)))
    · cases h
  · obtain ⟨rfl, rfl⟩ := heq
    cases h; exact .inr (.inr (.inr (.inr (.inl ⟨_, _, by assumption, rfl⟩))))
  · obtain ⟨rfl, rfl⟩ := heq
    obtain ⟨hj, h⟩ := whenFree_next h
    exact .inr (.inr (.inr (.inr (.inr ⟨_, by assumption, hj, h⟩))))

end Sys2Proof.Machine
end

