-- ==== Sys2Proof/Laws/Job.lean ====
section
/-!
SUPPORT. A command run access by access (00_scope R15, 20_memory R90; log 3): what one access leaves in progress, what the
command will leave, that changes of the sources between its accesses change neither, and where it stands after each.
-/
namespace Sys2Proof.Machine

/-- An access that is no response leaves the command in progress. -/
theorem performEvent_job (j : CommandJob) (s : State) (e : Event) (h : e.isResponse = false) :
    (performEvent j s e).job = s.job := by
  cases e <;> simp_all [performEvent, Event.isResponse]

theorem performEvent_dispatch (j : CommandJob) (s : State) (e : Event) : (performEvent j s e).dispatch = s.dispatch := by
  cases e <;> simp [performEvent, endJob]

theorem performEvent_params (j : CommandJob) (s : State) (e : Event) : (performEvent j s e).params = s.params := by
  cases e <;> simp [performEvent, endJob]

theorem performEvent_resp (j : CommandJob) (s : State) (e : Event) (h : e.isResponse = false) :
    (performEvent j s e).resp = s.resp := by
  cases e <;> simp_all [performEvent, Event.isResponse]

theorem advanceBy_free {s : State} (h : s.job = none) (n : Nat) : s.advanceBy n = s := by
  induction n with
  | zero => rfl
  | succ n ih => simpa [State.advanceBy, State.advance, h] using ih

theorem settled_free {s : State} (h : s.job = none) : s.settled = s := by simp [State.settled, h]

/-- What the next access leaves in progress: the rest of the job, or nothing. -/
theorem nextAccess_job (j : CommandJob) (s : State) : (nextAccess j s).job = none ∨
    ∃ e rest, j.todo = e :: rest ∧ (nextAccess j s).job = some { j with todo := rest } := by
  unfold nextAccess
  split
  · exact .inl rfl
  · rename_i e rest ht
    cases he : e.isResponse
    · exact .inr ⟨e, rest, ht, performEvent_job _ _ _ he⟩
    · cases e <;> simp [Event.isResponse] at he
      exact .inl rfl

/-- One access further, the command in progress leaves the same state. -/
theorem settled_nextAccess {s : State} {j : CommandJob} (h : s.job = some j) : (nextAccess j s).settled = s.settled := by
  have hs : s.settled = (nextAccess j s).advanceBy j.todo.length := by
    simp [State.settled, h, State.advanceBy, State.advance]
  rw [hs]
  rcases nextAccess_job j s with hn | ⟨e, rest, ht, hn⟩
  · rw [settled_free hn, advanceBy_free hn]
  · simp [State.settled, hn, ht]

/-- Two states that differ in `RAWSRC`, the observations and the pending moves alone. -/
def SameButInputs (s u : State) : Prop :=
  ∃ (v : Word) (tr : List Event) (ms : List Move), u = { s with rawsrc := v, trace := tr, moves := ms }

theorem sameButInputs_nextAccess {s u : State} (j : CommandJob) (h : SameButInputs s u) :
    SameButInputs (nextAccess j s) (nextAccess j u) := by
  obtain ⟨v, tr, ms, rfl⟩ := h
  unfold nextAccess
  split
  · exact ⟨v, tr, ms, rfl⟩
  · rename_i e rest ht
    cases e with
    | regRead r w => cases r <;> exact ⟨_, _, _, rfl⟩
    | regWrite r w => cases r <;> exact ⟨_, _, _, rfl⟩
    | _ => exact ⟨_, _, _, rfl⟩

theorem sameButInputs_advanceBy {s u : State} (h : SameButInputs s u) (n : Nat) :
    SameButInputs (s.advanceBy n) (u.advanceBy n) := by
  induction n generalizing s u with
  | zero => exact h
  | succ n ih =>
    refine ih ?_
    have hj : u.job = s.job := by obtain ⟨v, tr, ms, rfl⟩ := h; rfl
    unfold State.advance
    rw [hj]
    split
    · exact sameButInputs_nextAccess _ h
    · exact h

/-- A change of the sources changes neither what the command in progress will do nor what it will leave, but for `RAWSRC`
and the observations (20_memory R90). -/
theorem settled_sameButInputs {s u : State} (h : SameButInputs s u) : SameButInputs s.settled u.settled := by
  have hj : u.job = s.job := by obtain ⟨v, tr, ms, rfl⟩ := h; rfl
  unfold State.settled
  rw [hj]
  split
  · exact sameButInputs_advanceBy h _
  · exact h

/-- A command run access by access, between two accesses: the accesses `es` are still to come, then the response `v`; they
can be replayed, and lead to `t`. -/
structure MidCommand (t : State) (v : Word) (es : List Event) (s : State) : Prop where
  job : s.job = some { jobOf s t with todo := es ++ [.response v] }
  plain : ∀ e ∈ es, e.isResponse = false
  replay : ∃ (x u : State) (o : Unseen), t = u.respond v ∧ Replays es x u ∧ s = x.withUnseen o
  done : (s.relocDone || t.relocDone) = t.relocDone

theorem MidCommand.sources {t s : State} {v : Word} {es : List Event} (h : MidCommand t v es s) (raw : Word)
    (ms : List Move) : MidCommand t v es { s with rawsrc := raw, moves := ms } := by
  obtain ⟨hj, hp, ⟨x, u, o, ht, hr, hs⟩, hd⟩ := h
  exact ⟨hj, hp, ⟨x, u, { o with rawsrc := raw, moves := ms }, ht, hr, by rw [hs]; rfl⟩, hd⟩

/-- The next access of a command in progress. -/
theorem MidCommand.next {t s : State} {v : Word} {e : Event} {es : List Event} (h : MidCommand t v (e :: es) s) :
    ∃ (j : CommandJob) (s' : State), s.job = some j ∧ nextAccess j s = s' ∧ MidCommand t v es s' ∧
      s'.trace = s.trace ++ [e] ∧ s'.rawsrc = s.rawsrc ∧ s'.moves = s.moves ∧ s'.resp = s.resp ∧ s'.dispatch = s.dispatch := by
  obtain ⟨hj, hp, ⟨x, u, o, ht, ⟨x1, h1, htr, hr⟩, hs⟩, hd⟩ := h
  obtain ⟨ph, hx⟩ := h1 { jobOf s t with todo := (e :: es) ++ [.response v] }
    { o with job := some { jobOf s t with todo := es ++ [.response v] } }
  have hn : nextAccess { jobOf s t with todo := (e :: es) ++ [.response v] } s =
      x1.withUnseen { o with job := some { jobOf s t with todo := es ++ [.response v] }, relocState := ph } := by
    rw [← hx, nextAccess]; simp only [List.cons_append]; congr 1; rw [hs]; rfl
  have hresp := congrArg State.resp hx
  have hdisp := congrArg State.dispatch hx
  refine ⟨_, _, hj, hn, ⟨rfl, fun e he => hp e (List.mem_cons_of_mem _ he), ⟨x1, u, _, ht, hr, rfl⟩, ?_⟩, ?_, ?_, ?_, ?_, ?_⟩
  · rw [hs] at hd; exact hd
  · rw [hs]; exact htr
  · rw [hs]; rfl
  · rw [hs]; rfl
  · rw [hs]; refine hresp.symm.trans ?_
    exact performEvent_resp _ _ _ (hp e (by simp))
  · rw [hs]; refine hdisp.symm.trans ?_
    exact performEvent_dispatch _ _ _

/-- The last step of a command in progress. -/
theorem MidCommand.last {t s : State} {v : Word} (h : MidCommand t v [] s) (ht : t.job = none) : ∃ j, s.job = some j ∧
    nextAccess j s = { t with rawsrc := s.rawsrc, moves := s.moves } := by
  obtain ⟨hj, hp, ⟨x, u, o, rfl, hr, rfl⟩, hd⟩ := h
  refine ⟨_, hj, ?_⟩
  have := endJob_jobOf (x.withUnseen o) u v { o with job := some { jobOf (x.withUnseen o) (u.respond v) with todo := [] } } hd
  rw [hr] at this
  have ht' : u.job = none := ht
  simp only [nextAccess, List.nil_append, performEvent]
  exact this.trans (by simp [State.respond, State.observe, ht', State.withUnseen])

/-- The first access of a command run access by access: the command is over, or in progress with its first access done. -/
theorem start_first {i : Instr} {s t : State} (hi : i ≠ .dispatch) (h : exec i s = .next t) (hj : s.job = none) :
    (nextAccess (jobOf s t) s = t ∧ (t.trace.drop s.trace.length).length = 1) ∨
    ∃ (e : Event) (es : List Event) (v : Word), t.trace.drop s.trace.length = e :: es ++ [.response v] ∧
      MidCommand t v es (nextAccess (jobOf s t) s) ∧ (nextAccess (jobOf s t) s).trace = s.trace ++ [e] ∧
      (nextAccess (jobOf s t) s).rawsrc = s.rawsrc ∧ (nextAccess (jobOf s t) s).moves = s.moves ∧
      (nextAccess (jobOf s t) s).resp = s.resp ∧ (nextAccess (jobOf s t) s).dispatch = s.dispatch := by
  obtain ⟨es, v, u, rfl, htr, hp, hju, hmv, hraw, hrd, -, hr⟩ := exec_replays hi h
  have hdrop : (u.respond v).trace.drop s.trace.length = es ++ [.response v] := by simp [htr]
  have htodo : (jobOf s (u.respond v)).todo = es ++ [.response v] := hdrop
  cases es with
  | nil =>
    refine .inl ⟨?_, by rw [hdrop]; rfl⟩
    have hr' : Replays [] s u := by
      rcases hr with hr | ⟨e, he, -⟩
      · exact hr
      · cases he
    rw [nextAccess, htodo]
    simp only [List.nil_append, performEvent]
    have := endJob_jobOf s u v { s.unseen with job := some { jobOf s (u.respond v) with todo := [] } } hrd
    rw [hr'] at this
    refine Eq.trans this ?_
    have hju' : u.job = none := hju.trans hj
    rw [← hju', State.unseen]
    simp only
    rw [← hraw, ← hmv]; rfl
  | cons e es =>
    refine .inr ⟨e, es, v, by simpa using hdrop, ?_⟩
    have key : ∃ (x : State) (ph : RelocState), Replays es x u ∧ x.trace = s.trace ++ [e] ∧
        nextAccess (jobOf s (u.respond v)) s = x.withUnseen { s.unseen with
          job := some { jobOf s (u.respond v) with todo := es ++ [.response v] }, relocState := ph } := by
      rw [nextAccess, htodo]
      simp only [List.cons_append]
      rcases hr with ⟨x, h1, h2, h3⟩ | ⟨e', he, h1⟩
      · obtain ⟨ph, h1⟩ := h1 (jobOf s (u.respond v)) { s.unseen with
          job := some { jobOf s (u.respond v) with todo := es ++ [.response v] } }
        exact ⟨x, ph, h3, h2, h1⟩
      · obtain ⟨rfl, rfl⟩ := List.cons.inj he
        exact ⟨u, _, fun _ => rfl, htr, h1 (jobOf s (u.respond v)) { s.unseen with
          job := some { jobOf s (u.respond v) with todo := [] ++ [.response v] } } rfl⟩
    obtain ⟨x, ph, hrx, hxt, hn⟩ := key
    have hne := (hp e (by simp)).1
    have hresp : (nextAccess (jobOf s (u.respond v)) s).resp = s.resp ∧
        (nextAccess (jobOf s (u.respond v)) s).dispatch = s.dispatch := by
      rw [nextAccess, htodo]
      simp only [List.cons_append]
      cases e <;> simp_all [performEvent, Event.isResponse]
    refine ⟨?_, ?_, ?_, ?_, hresp⟩
    · rw [hn]
      exact ⟨rfl, fun e he => (hp e (List.mem_cons_of_mem _ he)).1, ⟨x, u, _, rfl, hrx, rfl⟩, hrd⟩
    · rw [hn]; exact hxt
    · rw [hn]; rfl
    · rw [hn]; rfl

theorem MidCommand.settled {t : State} {v : Word} (ht : t.job = none) (es : List Event) {s : State}
    (h : MidCommand t v es s) : s.settled = { t with rawsrc := s.rawsrc, moves := s.moves } := by
  induction es generalizing s with
  | nil =>
    obtain ⟨j, hj, hn⟩ := h.last ht
    rw [← settled_nextAccess hj, hn]
    exact settled_free ht
  | cons e es ih =>
    obtain ⟨j, s', hj, hn, hm, -, hr, hv, -⟩ := h.next
    rw [← settled_nextAccess hj, hn, ih hm, hr, hv]

/-- A command run access by access will leave what the whole command leaves. -/
theorem settled_start {i : Instr} {s t : State} (hi : i ≠ .dispatch) (h : exec i s = .next t) (hj : s.job = none) :
    (nextAccess (jobOf s t) s).settled = t := by
  obtain ⟨-, v', u, hu, -, -, hju, hmv, hraw, -⟩ := exec_replays hi h
  have ht : t.job = none := by rw [hu]; exact hju.trans hj
  rcases start_first hi h hj with ⟨hn, -⟩ | ⟨e, es, v, -, hm, -, hr, hv, -⟩
  · rw [hn, settled_free ht]
  · rw [hm.settled ht, hr, hv, ← hraw, ← hmv, hu]; rfl

/-- What an access leaves of the configuration, the sequencer, `reloc_done` and the mode. -/
theorem nextAccess_frame (j : CommandJob) (s : State) :
    (nextAccess j s).params = s.params ∧ (nextAccess j s).dispatch = s.dispatch ∧
    ((nextAccess j s).relocDone = s.relocDone ∨ (nextAccess j s).relocDone = (s.relocDone || j.relocDone)) ∧
    ((nextAccess j s).mode = s.mode ∨ ((nextAccess j s).mode = j.mode ∧ (nextAccess j s).job = none)) := by
  unfold nextAccess
  split
  · exact ⟨rfl, rfl, .inl rfl, .inl rfl⟩
  · rename_i e rest ht
    refine ⟨performEvent_params _ _ _, performEvent_dispatch _ _ _, ?_, ?_⟩ <;>
      cases e <;> simp [performEvent, endJob]

/-- The invariant speaks of four fields alone. -/
theorem State.Inv.congr {s t : State} (h : s.Inv) (hm : t.mem = s.mem) (hr : t.relocState = s.relocState)
    (hd : t.dispatch = s.dispatch) (hj : t.job = s.job) : t.Inv := by
  simp only [State.Inv, State.positionSound, State.jobSound, hm, hr, hd, hj] at h ⊢
  exact h

/-- Two stretches of a run, one after the other. -/
theorem run_add (m n : Nat) {s t u : State} (h : runsTo m s t) (k : runsTo n t u) : runsTo (m + n) s u := by
  induction m generalizing s with
  | zero => simp only [runsTo, Host.Core.run] at h; cases h; simpa using k
  | succ m ih =>
    rw [Nat.add_right_comm]
    simp only [runsTo, Host.Core.run] at h ⊢
    split at h <;> rename_i h'
    · exact ih h
    · cases h
    · cases h

/-- A stretch of one step. -/
theorem run_one {s t : State} (h : step s = .next t) : runsTo 1 s t := by
  simp only [runsTo, Host.Core.run]; rw [show core.step s = step s from rfl, h]

end Sys2Proof.Machine
end

