-- ==== Sys2Proof/Laws/PerInstr.lean ====
section
/-!
SUPPORT. The statement made per command: the opcode field of a command's word is the command's own opcode, whatever its operands
(30_encoding R110, R111).
-/
namespace Sys2Proof

theorem opField_packFields (op : BitVec 8) (a b : Word) : opField (packFields op a b) = op := by
  simp only [opField, packFields]
  ext i hi
  grind

theorem aField_packFields (op : BitVec 8) (a b : Word) : aField (packFields op a b) = a := by
  simp only [aField, packFields]
  ext i hi
  grind

theorem bField_packFields (op : BitVec 8) (a b : Word) : bField (packFields op a b) = b := by
  simp only [bField, packFields]
  ext i hi
  grind

end Sys2Proof

namespace Sys2Proof.Laws.OpcodeField

/-- The `OP` field of the encoding is the opcode. -/
def Statement (i : Instr) : Prop := opField (encode i) = i.opcode

theorem relocate : Statement .relocate := opField_packFields _ _ _
theorem setMode (a : Word) : Statement (.setMode a) := opField_packFields _ _ _
theorem init : Statement .init := opField_packFields _ _ _
theorem registerNv (l r : Word) : Statement (.registerNv l r) := opField_packFields _ _ _
theorem enable (l : Word) : Statement (.enable l) := opField_packFields _ _ _
theorem disable (l : Word) : Statement (.disable l) := opField_packFields _ _ _
theorem disableAll : Statement .disableAll := opField_packFields _ _ _
theorem isEnabled (l : Word) : Statement (.isEnabled l) := opField_packFields _ _ _
theorem getType (l : Word) : Statement (.getType l) := opField_packFields _ _ _
theorem setType (l t : Word) : Statement (.setType l t) := opField_packFields _ _ _
theorem registerVec (l r : Word) : Statement (.registerVec l r) := opField_packFields _ _ _
theorem unregisterVec (l : Word) : Statement (.unregisterVec l) := opField_packFields _ _ _
theorem enableVec (l : Word) : Statement (.enableVec l) := opField_packFields _ _ _
theorem disableVec (l : Word) : Statement (.disableVec l) := opField_packFields _ _ _
theorem disableAllVec : Statement .disableAllVec := opField_packFields _ _ _
theorem unregisterAllVec : Statement .unregisterAllVec := opField_packFields _ _ _
theorem setDefaultVec (r : Word) : Statement (.setDefaultVec r) := opField_packFields _ _ _
theorem swiTrigger : Statement .swiTrigger := opField_packFields _ _ _
theorem swiClear : Statement .swiClear := opField_packFields _ _ _
theorem dispatch : Statement .dispatch := opField_packFields _ _ _
theorem regRead (off : Word) : Statement (.regRead off) := opField_packFields _ _ _
theorem regWrite (off v : Word) : Statement (.regWrite off v) := opField_packFields _ _ _

end Sys2Proof.Laws.OpcodeField
end

