-- ==== Sys2Proof/WellFormed.lean ====
section
/-!
DEFINITION. Which operands are legal: the "legal values" column of 30_encoding R113, checked kind by kind. A command with an
operand outside it is still spelled by its word, still decodes and still runs (R117: the no-op outcomes are "results of
legal commands, decided by operand value, not by spelling"); the check says which commands 60_exceptions R241 and
45_regfile_access R233 do not turn away (log 21).
-/
namespace Sys2Proof

/-- A line operand: 0 to 31 (30_encoding R113, R114). -/
def legalLine (a : Word) : Bool := decide (a.toNat < 32)

/-- A mode operand: 0 or 1 (R113). -/
def legalMode (a : Word) : Bool := decide (a.toNat < 2)

/-- A type operand: 0 (IRQ) or 1 (FIQ) (R113). -/
def legalKind (b : Word) : Bool := decide (b.toNat < 2)

/-- A routine operand: any non-zero address (R113, R115). -/
def legalRoutine (b : Word) : Bool := decide (b ≠ 0#32)

/-- A register offset: mapped and word-aligned (R113). -/
def legalOffset (m : RegMap) (off : Word) : Bool :=
  decide (off.extractLsb' 0 2 = 0#2) && (Machine.registerAt m off).isSome

/-- Every operand of the command has a legal value (30_encoding R113), under the offset table `m`. -/
def Instr.wellFormed (m : RegMap) : Instr → Bool
  | .relocate         => true
  | .setMode a        => legalMode a
  | .init             => true
  | .registerNv l r   => legalLine l && legalRoutine r
  | .enable l         => legalLine l
  | .disable l        => legalLine l
  | .disableAll       => true
  | .isEnabled l      => legalLine l
  | .getType l        => legalLine l
  | .setType l t      => legalLine l && legalKind t
  | .registerVec l r  => legalLine l && legalRoutine r
  | .unregisterVec l  => legalLine l
  | .enableVec l      => legalLine l
  | .disableVec l     => legalLine l
  | .disableAllVec    => true
  | .unregisterAllVec => true
  | .setDefaultVec r  => legalRoutine r
  | .swiTrigger       => true
  | .swiClear         => true
  | .dispatch         => true
  | .regRead off      => legalOffset m off
  | .regWrite off _   => legalOffset m off

end Sys2Proof
end

