-- ==== Sys2Proof/Tests/Slice0.lean ====
section
/-!
SUPPORT. The model's own tests: ill-formed commands that the check refuses, one written-out command word per command, one-step runs
of the vectors of 95_test_vectors, and, for every obligation with hypotheses, a state and operands that meet them. Command
words are written `OP A B` in hexadecimal as 30_encoding R110 has them.
-/
namespace Sys2Proof.Machine.Tests

/-! ## Helpers -/

/-- The parameters of 95_test_vectors, with `DUMMY_ADDR = 0xD000` and the boundaries of its example S8. -/
def params : Params where
  dummyAddr   := 0xD000#32
  vicBase     := 0x10140000#32
  offsets     := defaultRegMap
  swiLine     := 1
  eoiSentinel := 0xFFFFFFFF#32
  dstStart    := 0x1004#32
  srcA        := 0x1000#32
  srcB        := 0x1010#32

/-- "After INIT": the state of 41_mode_and_init R163 with `RAWSRC = 0` and `in_service = 0`. -/
def inited : State := State.resetWith params
  { rawsrc := 0#32, intSelect := 0#32, intEnable := 0#32, softInt := 0#32, protection := 0#1, defVectAddr := 0xD000#32,
    vectAddr := Vector.replicate 16 0xD000#32, vectCntl := Vector.replicate 16 0#6, slotLine := Vector.replicate 16 none }

/-- A view of the state after one step that runs the command word `w` from `s`. -/
def after {α : Type} (w : Nat) (s : State) (view : State → α) : Option α :=
  match step (s.withFetchWord 72 w) with
  | .next t    => some (view t)
  | .fault _   => none
  | .refused _ => none

/-- A view of the state after one return of a service routine. -/
def afterReturn {α : Type} (s : State) (view : State → α) : Option α :=
  match routineReturn s with
  | .next t    => some (view t)
  | .fault _   => none
  | .refused _ => none

/-- The fault one step that runs the command word `w` from `s` ends in, if it ends in one. -/
def faultOf (w : Nat) (s : State) : Option Fault :=
  match step (s.withFetchWord 72 w) with
  | .next _    => none
  | .fault f   => some f
  | .refused _ => none

/-- V40: line 4 in slot 0. -/
def oneSlot : State := { inited with
  slotLine := inited.slotLine.set 0 (some 4), vectAddr := inited.vectAddr.set 0 0x8000#32, vectCntl := inited.vectCntl.set 0 0x24#6 }

/-- V42 with slot 1 freed (V51): slots 0 and 2 assigned to lines 4 and 0. -/
def gap : State := { oneSlot with
  slotLine := oneSlot.slotLine.set 2 (some 0), vectAddr := oneSlot.vectAddr.set 2 0xA000#32,
  vectCntl := oneSlot.vectCntl.set 2 0x20#6 }

/-- The garbage of V59 to V61: every slot assigned, slots 2 and 9 both to line 6, the others to line 7. -/
def garbage : State := { inited with
  slotLine := ((Vector.replicate 16 (some 7)).set 2 (some 6)).set 9 (some 6),
  vectCntl := (inited.vectCntl.set 2 0x06#6).set 9 0x06#6 }

/-- V63: lines 4, 9 and 12 requested and enabled, 12 never registered. -/
def threeLines : State := { inited with
  nvTable := (inited.nvTable.set 4 0x8000#32).set 9 0x9000#32, intEnable := 0x1210#32, rawsrc := 0x1210#32 }

/-- V72: slot 0 for line 9, slot 1 for line 4, both requested and enabled, mode vectored. -/
def twoSlots : State := { inited with
  mode := .vectored, slotLine := (inited.slotLine.set 0 (some 9)).set 1 (some 4),
  vectAddr := (inited.vectAddr.set 0 0x9000#32).set 1 0x8000#32, vectCntl := (inited.vectCntl.set 0 0x29#6).set 1 0x24#6,
  intEnable := 0x210#32, rawsrc := 0x210#32 }

/-- The start memory of S8: the words 0x11, 0x22, 0x33, 0x44 at 0x1000. -/
def vectors : State := { inited with mem := [(0x1000, 0x11#8), (0x1004, 0x22#8), (0x1008, 0x33#8), (0x100C, 0x44#8)] }

/-! ## Well-formedness: 30_encoding R113, one ill-formed command per check -/

theorem test_wf_accepts : ([.setMode 1#32, .registerNv 31#32 1#32, .setType 0#32 1#32, .registerVec 31#32 0x8000#32,
    .setDefaultVec 0x9000#32, .regRead 0x23C#32, .regWrite 0x000#32 0#32, .dispatch] : List Instr).all
    (Instr.wellFormed defaultRegMap) = true := by decide
theorem test_wf_refuses_line : (Instr.enable 32#32).wellFormed defaultRegMap = false := by decide
theorem test_wf_refuses_untruncated_line : (Instr.disableVec 0x80000004#32).wellFormed defaultRegMap = false := by decide
theorem test_wf_refuses_mode : (Instr.setMode 2#32).wellFormed defaultRegMap = false := by decide
theorem test_wf_refuses_type : (Instr.setType 3#32 2#32).wellFormed defaultRegMap = false := by decide
theorem test_wf_refuses_null_routine : (Instr.registerVec 5#32 0#32).wellFormed defaultRegMap = false := by decide
theorem test_wf_refuses_null_default : (Instr.setDefaultVec 0#32).wellFormed defaultRegMap = false := by decide
theorem test_wf_refuses_misaligned_offset : (Instr.regRead 0x012#32).wellFormed defaultRegMap = false := by decide
theorem test_wf_refuses_unmapped_offset : (Instr.regWrite 0x024#32 0#32).wellFormed defaultRegMap = false := by decide

/-! ## Decoding: one written-out word per command (30_encoding R110, R112) -/

theorem test_decode_relocator_and_mode :
    decode 0x000000000000000000#72 = .ok .relocate ∧ decode 0x010000000100000000#72 = .ok (.setMode 1#32) ∧
    decode 0x020000000000000000#72 = .ok .init := by decide
theorem test_decode_line_control :
    decode 0x03000000010000A000#72 = .ok (.registerNv 1#32 0xA000#32) ∧
    decode 0x040000001400000000#72 = .ok (.enable 20#32) ∧ decode 0x050000000400000000#72 = .ok (.disable 4#32) ∧
    decode 0x060000000000000000#72 = .ok .disableAll ∧ decode 0x070000000400000000#72 = .ok (.isEnabled 4#32) ∧
    decode 0x080000000300000000#72 = .ok (.getType 3#32) ∧ decode 0x090000000100000001#72 = .ok (.setType 1#32 1#32) ∧
    decode 0x110000000000000000#72 = .ok .swiTrigger ∧ decode 0x120000000000000000#72 = .ok .swiClear := by decide
theorem test_decode_vector_slots :
    decode 0x0A0000001400003333#72 = .ok (.registerVec 20#32 0x3333#32) ∧
    decode 0x0B0000000300000000#72 = .ok (.unregisterVec 3#32) ∧
    decode 0x0C0000000400000000#72 = .ok (.enableVec 4#32) ∧ decode 0x0D0000001F00000000#72 = .ok (.disableVec 31#32) ∧
    decode 0x0E0000000000000000#72 = .ok .disableAllVec ∧ decode 0x0F0000000000000000#72 = .ok .unregisterAllVec ∧
    decode 0x100000000000009000#72 = .ok (.setDefaultVec 0x9000#32) := by decide
theorem test_decode_dispatch_and_registers :
    decode 0x130000000000000000#72 = .ok .dispatch ∧ decode 0x140000000800000000#72 = .ok (.regRead 8#32) ∧
    decode 0x150000020089ABCDEF#72 = .ok (.regWrite 0x200#32 0x89ABCDEF#32) := by decide
/-- 30_encoding R111: the fields a command does not use are ignored. -/
theorem test_decode_ignores_unused : decode 0x13DEADBEEF12345678#72 = .ok .dispatch := by decide
/-- V91, 30_encoding R117. -/
theorem test_decode_rejects_reserved : decode 0x160000000000000000#72 = .error (.illegalOpcode 0x16#8) ∧
    decode 0xFF0000000400000000#72 = .error (.illegalOpcode 0xFF#8) := by decide
theorem test_decode_table_word : decodeTableWord 72 0x09000000010000000F = some (.setType 1#32 0xF#32) := by decide

/-! ## One step each: the vectors of 95_test_vectors -/

/-- V12, V14. -/
theorem test_setMode_zero : after 0x010000000000000000 { inited with mode := .vectored } (fun t => (t.mode, t.resp)) =
    some (.nonVectored, 0#32) := by decide
theorem test_setMode_rejects : after 0x01FFFFFFFF00000000 { inited with mode := .vectored } (fun t => (t.mode, t.trace)) =
    some (.vectored, [.response 0#32]) := by decide
/-- V15: the registers of R163, `PROTECTION` and `reloc_done` kept. -/
theorem test_init_registers : after 0x020000000000000000 { inited with
      intSelect := 0xFFFFFFFF#32, intEnable := 0x12345678#32, softInt := 2#32, mode := .vectored, protection := 1#1,
      relocDone := true, nvTable := inited.nvTable.set 3 0x4000#32 }
    (fun t => ((t.intSelect, t.intEnable, t.softInt, t.nvTable[3]), t.mode, t.protection, t.relocDone)) =
    some ((0#32, 0#32, 0#32, 0xD000#32), .nonVectored, 1#1, true) := by decide
theorem test_init_slots : after 0x020000000000000000 { inited with
      slotLine := inited.slotLine.set 5 (some 9), vectCntl := inited.vectCntl.set 5 0x29#6 }
    (fun t => (t.slotLine[5], t.vectCntl[5], t.trace.take 5)) =
    some (none, 0#6, [.regWrite .intSelect 0#32, .regWrite .intEnClear 0xFFFFFFFF#32,
      .regWrite .softIntClear 0xFFFFFFFF#32, .regWrite .defVectAddr 0xD000#32, .regWrite (.vectCntlN 0) 0#32]) := by decide
/-- V17, V19. -/
theorem test_registerNv : after 0x030000000400008000 inited (fun t => (t.nvTable[4], t.nvTable[5], t.trace)) =
    some (0x8000#32, 0xD000#32, [.response 0#32]) := by decide
theorem test_registerNv_out_of_range : after 0x030000002000008000 inited (fun t => (t.nvTable, t.trace)) =
    some (inited.nvTable, [.response 0#32]) := by decide
/-- V21, V24. -/
theorem test_enable : after 0x040000000100000000 { inited with intEnable := 0x10#32 } (fun t => (t.intEnable, t.trace)) =
    some (0x12#32, [.regWrite .intEnable 2#32, .response 0#32]) := by decide
theorem test_enable_not_truncated : after 0x048000000400000000 { inited with intEnable := 0x12#32 }
    (fun t => (t.intEnable, t.trace)) = some (0x12#32, [.response 0#32]) := by decide
/-- V25. -/
theorem test_disable : after 0x050000000400000000 { inited with intEnable := 0x12#32 } (fun t => (t.intEnable, t.trace)) =
    some (0x02#32, [.regWrite .intEnClear 0x10#32, .response 0#32]) := by decide
/-- V27. -/
theorem test_disableAll : after 0x060000000000000000 { inited with intEnable := 0x80000012#32 }
    (fun t => (t.intEnable, t.trace)) = some (0#32, [.regWrite .intEnClear 0xFFFFFFFF#32, .response 0#32]) := by decide
/-- V28, V30. -/
theorem test_isEnabled : after 0x070000000400000000 { inited with intEnable := 0x12#32 } (fun t => (t.resp, t.trace)) =
    some (1#32, [.regRead .intEnable 0x12#32, .response 1#32]) := by decide
theorem test_isEnabled_out_of_range : after 0x070000002000000000 { inited with intEnable := 0xFFFFFFFF#32 }
    (fun t => (t.resp, t.trace)) = some (0#32, [.response 0#32]) := by decide
/-- V31, V32. -/
theorem test_getType : after 0x080000000300000000 { inited with intSelect := 0x08#32 } (fun t => (t.resp, t.trace)) =
    some (1#32, [.regRead .intSelect 0x08#32, .response 1#32]) := by decide
theorem test_getType_out_of_range : after 0x080000006300000000 { inited with intSelect := 0xFFFFFFFF#32 }
    (fun t => (t.resp, t.trace)) = some (0#32, [.response 0#32]) := by decide
/-- V33, V34. -/
theorem test_setType_fiq : after 0x090000000300000001 { inited with intSelect := 0x05#32 } (fun t => (t.intSelect, t.trace)) =
    some (0x0D#32, [.regRead .intSelect 0x05#32, .regWrite .intSelect 0x0D#32, .response 0#32]) := by decide
theorem test_setType_irq : after 0x090000000000000000 { inited with intSelect := 0x0D#32 } (fun t => t.intSelect) =
    some 0x0C#32 := by decide
/-- V37, V38. -/
theorem test_swiTrigger : after 0x110000000000000000 inited (fun t => (t.softInt, t.rawIntr, t.trace)) =
    some (2#32, 2#32, [.regWrite .softInt 2#32, .response 0#32]) := by decide
theorem test_swiClear : after 0x120000000000000000 { inited with softInt := 2#32 } (fun t => (t.softInt, t.trace)) =
    some (0#32, [.regWrite .softIntClear 2#32, .response 0#32]) := by decide
/-- V40, V52. -/
theorem test_registerVec : after 0x0A0000000400008000 inited (fun t => (t.slotLine[0], t.vectCntl[0], t.vectAddr[0], t.trace)) =
    some (some 4, 0x24#6, 0x8000#32,
      [.regWrite (.vectAddrN 0) 0x8000#32, .regWrite (.vectCntlN 0) 0x24#32, .response 0#32]) := by decide
theorem test_registerVec_lowest_free : after 0x0A0000000C0000C000 gap (fun t => (t.resp, t.slotLine[1], t.vectCntl[1])) =
    some (1#32, some 12, 0x2C#6) := by decide
/-- V60. -/
theorem test_unregisterVec_every_slot : after 0x0B0000000600000000 garbage
    (fun t => (t.slotLine[2], t.slotLine[9], t.slotLine[3], t.trace)) =
    some (none, none, some 7, [.regWrite (.vectCntlN 2) 0#32, .regWrite (.vectAddrN 2) 0xD000#32,
      .regWrite (.vectCntlN 9) 0#32, .regWrite (.vectAddrN 9) 0xD000#32, .response 0#32]) := by decide
/-- V61, V49. -/
theorem test_enableVec : after 0x0C0000000600000000 garbage (fun t => (t.resp, t.vectCntl[2], t.vectCntl[9], t.vectCntl[3])) =
    some (2#32, 0x26#6, 0x26#6, 0#6) := by decide
theorem test_enableVec_out_of_range : after 0x0C0000002000000000 gap (fun t => (t.resp, t.vectCntl)) =
    some (0xFFFFFFFF#32, gap.vectCntl) := by decide
/-- V45. -/
theorem test_disableVec : after 0x0D0000000400000000 gap (fun t => (t.vectCntl[0], t.slotLine[0], t.vectCntl[2], t.trace)) =
    some (0x04#6, some 4, 0x20#6,
      [.regRead (.vectCntlN 0) 0x24#32, .regWrite (.vectCntlN 0) 0x04#32, .response 0#32]) := by decide
/-- V55. -/
theorem test_disableAllVec : after 0x0E0000000000000000 gap
    (fun t => (t.vectCntl[0], t.vectCntl[2], t.slotLine, t.trace.length)) =
    some (0x04#6, 0x00#6, gap.slotLine, 33) := by decide
/-- V56. -/
theorem test_unregisterAllVec : after 0x0F0000000000000000 gap (fun t => (t.slotLine, t.vectAddr[0], t.trace.length)) =
    some (Vector.replicate 16 none, 0xD000#32, 33) := by decide
/-- V57, V58. -/
theorem test_setDefaultVec : after 0x100000000000009000 inited (fun t => (t.defVectAddr, t.trace)) =
    some (0x9000#32, [.regWrite .defVectAddr 0x9000#32, .response 0#32]) := by decide
theorem test_setDefaultVec_null : after 0x100000000000000000 inited (fun t => (t.defVectAddr, t.trace)) =
    some (0xD000#32, [.response 0#32]) := by decide
/-- V63: the first call of a non-vectored `DISPATCH`. -/
theorem test_dispatch_nonVectored : after 0x130000000000000000 threeLines (fun t => (t.dispatch, t.trace)) =
    some (.nonVectored 0x1210#32 4, [.regRead .irqStatus 0x1210#32, .call 0x8000#32]) := by decide
/-- V72: slot 0 wins although line 4 is the lower line. -/
theorem test_dispatch_vectored : after 0x130000000000000000 twoSlots (fun t => (t.inService, t.trace)) =
    some (true, [.regRead .vectAddr 0x9000#32, .call 0x9000#32]) := by decide
/-- V66: the second call reads the table at the line's turn. -/
theorem test_return_nonVectored : afterReturn { threeLines with
      dispatch := .nonVectored 0x1210#32 4, nvTable := threeLines.nvTable.set 9 0x9100#32 } (fun t => (t.dispatch, t.trace)) =
    some (.nonVectored 0x1210#32 9, [.ret, .call 0x9100#32]) := by decide
/-- V69: the end of a vectored `DISPATCH`. -/
theorem test_return_vectored : afterReturn { twoSlots with dispatch := .vectored, inService := true }
    (fun t => (t.dispatch, t.inService, t.trace)) =
    some (.idle, false, [.ret, .regWrite .vectAddr 0xFFFFFFFF#32, .response 0#32]) := by decide
/-- V75, V92, V74. -/
theorem test_reentry_faults : faultOf 0x130000000000000000 { inited with dispatch := .vectored } = some .dispatchReentered ∧
    faultOf 0x000000000000000000 { inited with dispatch := .vectored, relocDone := true } = some .relocateInHandler ∧
    faultOf 0x130000000000000000 { twoSlots with inService := true } = some .vectaddrReadTwice := by decide
/-- V86, V39. -/
theorem test_regRead_vectAddr : after 0x140000003000000000 inited (fun t => (t.resp, t.inService)) =
    some (0xD000#32, true) := by decide
theorem test_regRead_fiqStatus : after 0x140000000400000000
    { inited with softInt := 2#32, intEnable := 2#32, intSelect := 2#32 } (fun t => t.resp) = some 2#32 := by decide
/-- V78, V84. -/
theorem test_regWrite_sets : after 0x150000001000000001 { inited with intEnable := 0x12#32 } (fun t => t.intEnable) =
    some 0x13#32 := by decide
theorem test_regWrite_implemented_bits : after 0x1500000200FFFFFFFF inited (fun t => (t.vectCntl[0], t.slotLine[0])) =
    some (0x3F#6, none) := by decide
/-- V87, V89, V90. -/
theorem test_register_faults : faultOf 0x140000003000000000 { inited with inService := true } = some .vectaddrReadTwice ∧
    faultOf 0x140000001200000000 inited = some .regMisaligned ∧
    faultOf 0x140000002400000000 inited = some .regReserved := by decide
/-- S8: the accesses and the memory they leave. -/
theorem test_relocate_trace : after 0x000000000000000000 vectors (fun t => t.trace) =
    some [.memRead 0x100C#32 0x44#32, .memWrite 0x1010#32 0x44#32, .memRead 0x1008#32 0x33#32, .memWrite 0x100C#32 0x33#32,
      .memRead 0x1004#32 0x22#32, .memWrite 0x1008#32 0x22#32, .memRead 0x1000#32 0x11#32, .memWrite 0x1004#32 0x11#32,
      .response 0#32] := by decide
theorem test_relocate_memory : after 0x000000000000000000 vectors (fun t => (t.mem, t.relocDone)) =
    some ([(0x1000, 0x11#8), (0x1004, 0x11#8), (0x1008, 0x22#8), (0x100C, 0x33#8), (0x1010, 0x44#8)], true) := by decide
/-- V5, V7, V8, V9. -/
theorem test_relocate_verdicts :
    after 0 { inited with params := { params with
      srcA := 0xFFFFFF00#32, srcB := 0xFFFFFF10#32, dstStart := 0xFFFFFFF0#32 } } (fun t => t.trace) =
      some [.response 0#32] ∧
    faultOf 0 { inited with params := { params with srcA := 0x1002#32 } } = some .relocMisaligned ∧
    faultOf 0 { inited with relocDone := true } = some .relocateTwice ∧
    faultOf 0 { inited with params := { params with
      srcA := 0x10140000#32, srcB := 0x10140010#32, dstStart := 0#32 } } = some .relocHitsVic := by decide
/-- 20_memory R85: a word is little-endian. -/
theorem test_little_endian : Memory.writeWord [] 0x2000 0x44332211#32 =
    [(0x2000, 0x11#8), (0x2001, 0x22#8), (0x2002, 0x33#8), (0x2003, 0x44#8)] := by decide

/-! ## Between two accesses of one command (20_memory R90) -/

/-- A view of the state after one step that takes the move `m` from `s`. -/
def afterMove {α : Type} (m : Move) (s : State) (view : State → α) : Option α :=
  match step { s with moves := [m] } with
  | .next t    => some (view t)
  | .fault _   => none
  | .refused _ => none

/-- Whether one step that takes the move `m` from `s` is refused as a second command. -/
def refusesMove (m : Move) (s : State) : Bool :=
  match step { s with moves := [m] } with
  | .next _    => false
  | .fault _   => false
  | .refused r => decide (r = .commandInProgress)

/-- `S8` after its first read: word 3 read, its write and the other words still to come. -/
def midCopy : State := { vectors with
  relocState := .copyBwd 3, trace := [.memRead 0x100C#32 0x44#32],
  job := some {
    todo := [.memWrite 0x1010#32 0x44#32, .memRead 0x1008#32 0x33#32, .memWrite 0x100C#32 0x33#32, .response 0#32],
    nvTable := vectors.nvTable, slotLine := vectors.slotLine, mode := .nonVectored, relocState := .idle,
    relocDone := true } }

/-- R163: with line 4 a pending FIQ line, `INIT`'s first write makes it an IRQ line that is still enabled. -/
theorem test_init_between_accesses : afterMove (.start 0x020000000000000000#72)
    { inited with intSelect := 0x10#32, intEnable := 0x10#32, rawsrc := 0x10#32 }
    (fun t => ((t.irqOut, t.fiqOut), t.trace, t.job.isSome)) =
    some ((true, false), [.regWrite .intSelect 0#32], true) := by decide
/-- S8: word 3 of the backward copy is read first. -/
theorem test_relocate_between_accesses : afterMove (.start 0x000000000000000000#72) vectors
    (fun t => (t.relocState, t.trace, t.relocDone)) =
    some (.copyBwd 3, [.memRead 0x100C#32 0x44#32], false) := by decide
theorem test_sources_between_copies : afterMove (.sources 0x10#32) { midCopy with intEnable := 0x10#32 }
    (fun t => (t.irqOut, t.relocState, t.trace.length)) = some (true, .copyBwd 3, 1) := by decide
theorem test_proceed_copies : afterMove .proceed midCopy (fun t => (t.wordAt 0x1010, t.wordAt 0x100C, t.relocState, t.resp)) =
    some (0x44#32, 0x44#32, .copyBwd 3, 0#32) := by decide
theorem test_one_command_at_a_time : refusesMove (.present 0x010000000100000000#72) midCopy = true ∧
    refusesMove (.start 0x010000000100000000#72) midCopy = true ∧
    refusesMove .routineReturn midCopy = true := by decide

/-! ## Witnesses: for every obligation with hypotheses, a state and operands that meet them, clause by clause at the boundary
values of its ranges -/

theorem witness_OpcodeAloneSelectsTheCommand :
    decode 0x040000001F00000000#72 = .ok (.enable 31#32) ∧
    0x040000001FDEADBEEF#72 &&& opMask = packFields (Instr.enable 31#32).opcode 0#32 0#32 ∧
    aField 0x040000001FDEADBEEF#72 = aField 0x040000001F00000000#72 ∧ (Instr.enable 31#32).usesB = false := by decide

theorem witness_ReservedOpcodesAreRefused :
    { inited with moves := [.present 0x160000000000000000#72] }.moves = .present 0x160000000000000000#72 :: [] ∧
    { inited with moves := [.start 0xFF0000000000000000#72] }.moves = .start 0xFF0000000000000000#72 :: [] ∧
    inited.job = none ∧ 0x16 ≤ (opField 0x160000000000000000#72).toNat ∧ 0x16 ≤ (opField 0xFF0000000000000000#72).toNat ∧
    (opField 0x150000000000000000#72).toNat < 0x16 := by decide

theorem witness_StepRunsThePresentedCommand :
    { inited with moves := [.present 0x040000001F00000000#72] }.moves = .present 0x040000001F00000000#72 :: [] ∧
    inited.job = none ∧ decode 0x040000001F00000000#72 = .ok (.enable 31#32) := by decide

theorem witness_StepTakesTheOtherMoves :
    inited.moves = [] ∧ { inited with moves := [.sources 0x10#32] }.moves = .sources 0x10#32 :: [] ∧
    { twoSlots with dispatch := .vectored, moves := [.routineReturn] }.moves = .routineReturn :: [] ∧
    { inited with moves := [.routineReturn] }.dispatch = .idle ∧ inited.job = none ∧ midCopy.job ≠ none ∧
    { midCopy with moves := [.start 0x020000000000000000#72] }.moves = .start 0x020000000000000000#72 :: [] ∧
    { inited with moves := [.proceed] }.moves = .proceed :: [] := by decide

/-- `ENABLE 4` with line 9 raised, then dropped, between its write and its response. -/
theorem witness_AccessByAccessIsTheWholeCommand : ∃ s t : State, s.job = none ∧
    decode 0x040000000400000000#72 = .ok (.enable 4#32) ∧ Instr.enable 4#32 ≠ .dispatch ∧
    s.moves = .start 0x040000000400000000#72 :: ([[0x200#32, 0#32]].flatMap gapMoves ++ []) ∧
    exec (.enable 4#32) { s with moves := [[0x200#32, 0#32]].flatMap gapMoves ++ [] } = .next t ∧
    [[0x200#32, 0#32]].length + 1 = (t.trace.drop s.trace.length).length ∧ 0 < [[0x200#32, 0#32]].length :=
  ⟨{ inited with moves := [.start 0x040000000400000000#72, .sources 0x200#32, .sources 0#32, .proceed] }, _,
    rfl, by decide, by decide, rfl, rfl, rfl, by decide⟩

theorem witness_ResetLeavesTheDefinedValues : ∃ d : ResetDraw, inited = State.resetWith params d := ⟨_, rfl⟩

theorem witness_ResetMeetsTheInvariant : params.dummyAddr ≠ 0#32 := by decide

theorem witness_SetModeSelectsTheMode :
    0#32 = (0#32 : Word) ∧ 1#32 = (1#32 : Word) ∧ 2 ≤ (2#32).toNat ∧ 2 ≤ (0xFFFFFFFF#32).toNat := by decide

theorem witness_RegisterNvStoresTheRoutine :
    (0#32).toNat = (0 : Line).val ∧ (31#32).toNat = (31 : Line).val ∧ 1#32 ≠ 0#32 ∧ 32 ≤ (32#32).toNat ∧
    32 ≤ (0x80000004#32).toNat := by decide

/-- The line operand of `ENABLE`, `DISABLE`, `IS_ENABLED`, `GET_TYPE`: in range at 0 and 31, out of range from 32. -/
theorem witness_EnableSetsTheLinesBit :
    (0#32).toNat = (0 : Line).val ∧ (31#32).toNat = (31 : Line).val ∧ 32 ≤ (32#32).toNat ∧
    (∃ t, exec (.enable 31#32) { inited with rawsrc := 0x80000000#32 } = .next t) ∧
    { inited with rawsrc := 0x80000000#32 }.rawIntr.getLsbD 31 = true :=
  ⟨rfl, rfl, by decide, ⟨_, rfl⟩, by decide⟩
theorem witness_DisableClearsTheLinesBit :
    (0#32).toNat = (0 : Line).val ∧ (31#32).toNat = (31 : Line).val ∧ 32 ≤ (32#32).toNat ∧
    ∃ t, exec (.disable 0#32) threeLines = .next t := ⟨rfl, rfl, by decide, _, rfl⟩
theorem witness_IsEnabledReportsTheEnableBit :
    (0#32).toNat = (0 : Line).val ∧ (31#32).toNat = (31 : Line).val ∧ 32 ≤ (32#32).toNat ∧
    0#32 = (if inited.intEnable.getLsbD 31 then 1#32 else 0#32) ∧
    1#32 = (if threeLines.intEnable.getLsbD 4 then 1#32 else 0#32) := by decide
theorem witness_GetTypeReportsTheSelectBit :
    (0#32).toNat = (0 : Line).val ∧ (31#32).toNat = (31 : Line).val ∧ 32 ≤ (32#32).toNat ∧
    0#32 = (if inited.intSelect.getLsbD 31 then 1#32 else 0#32) ∧
    1#32 = (if { inited with intSelect := 1#32 }.intSelect.getLsbD 0 then 1#32 else 0#32) := by decide

theorem witness_SetTypeWritesTheSelectBit :
    (31#32).toNat = (31 : Line).val ∧ (0#32).toNat < 2 ∧ (1#32).toNat < 2 ∧
    0x80000000#32 = inited.intSelect ||| (1#32 <<< (31 : Line).val) ∧ 32 ≤ (32#32).toNat ∧ 2 ≤ (2#32).toNat := by decide

theorem witness_SetTypeWritesTheSelectBit_pending : (4#32).toNat = (4 : Line).val ∧ (1#32).toNat < 2 ∧
    (∃ t, exec (.setType 4#32 1#32) threeLines = .next t) ∧ threeLines.rawIntr.getLsbD 4 = true ∧
    threeLines.intEnable.getLsbD 4 = true := ⟨rfl, by decide, ⟨_, rfl⟩, by decide, by decide⟩

theorem witness_SoftwareLineIsSetAndCleared : (∃ t, exec .swiTrigger inited = .next t) ∧
    ∃ t : State, exec .swiClear { inited with softInt := 2#32 } = .next t ∧
      { inited with softInt := 2#32 }.softInt.getLsbD (1 : Line).val = true ∧ t.softInt.getLsbD (1 : Line).val = false :=
  ⟨⟨_, rfl⟩, _, rfl, by decide, by decide⟩

theorem witness_OneLineCommandsTouchOneBit : (31#32).toNat = (31 : Line).val ∧ (1#32).toNat < 2 ∧
    (∃ t, exec (.enable 31#32) inited = .next t) ∧ (∃ t, exec (.disable 31#32) inited = .next t) ∧
    ∃ t, exec (.setType 31#32 1#32) inited = .next t := ⟨rfl, by decide, ⟨_, rfl⟩, ⟨_, rfl⟩, _, rfl⟩

theorem witness_LineControlLeavesTheSlotsAlone :
    ([.registerNv 0#32 1#32, .enable 31#32, .disable 32#32, .disableAll, .isEnabled 0#32, .getType 0#32, .setType 0#32 2#32,
      .swiTrigger, .swiClear] : List Instr).all lineControlCommand = true := by decide

theorem witness_RegisterVecIsFirstFitWithReuse :
    (4#32).toNat = (4 : Line).val ∧ 1#32 ≠ 0#32 ∧
    (gap.slotLine[(0 : Slot)] = some 4 ∧ ∀ j : Slot, j < 0 → gap.slotLine[j] ≠ some 4) ∧
    ((∀ j : Slot, gap.slotLine[j] ≠ some 31) ∧ gap.slotLine[(1 : Slot)] = none ∧
      ∀ j : Slot, j < 1 → gap.slotLine[j] ≠ none) ∧
    32 ≤ (32#32).toNat ∧ (∀ j : Slot, garbage.slotLine[j] ≠ none ∧ ∀ l : Line, (31#32).toNat = l.val →
      garbage.slotLine[j] ≠ some l) := by decide

theorem witness_UnregisterVecClearsEverySlotOfTheLine :
    (6#32).toNat = (6 : Line).val ∧ garbage.slotLine[(2 : Slot)] = some 6 ∧ garbage.slotLine[(9 : Slot)] = some 6 ∧
    garbage.slotLine[(15 : Slot)] ≠ some 6 ∧ 32 ≤ (32#32).toNat := by decide
theorem witness_EnableVecSetsOnlyTheEnableBit :
    (6#32).toNat = (6 : Line).val ∧ garbage.slotLine[(2 : Slot)] = some 6 ∧
    (∀ j : Slot, j < 2 → garbage.slotLine[j] ≠ some 6) ∧ (31#32).toNat = (31 : Line).val ∧
    (∀ k : Slot, garbage.slotLine[k] ≠ some 31) ∧ 32 ≤ (32#32).toNat := by decide
theorem witness_DisableVecClearsOnlyTheEnableBit :
    (6#32).toNat = (6 : Line).val ∧ garbage.slotLine[(9 : Slot)] = some 6 ∧ garbage.slotLine[(0 : Slot)] ≠ some 6 ∧
    32 ≤ (32#32).toNat := by decide

theorem witness_SetDefaultVecStoresTheAddress : 1#32 ≠ (0#32 : Word) ∧ 0#32 = (0#32 : Word) ∧
    ∃ t : State, exec (.setDefaultVec 1#32) inited = .next t ∧ t.defVectAddr ≠ inited.defVectAddr :=
  ⟨by decide, rfl, _, rfl, by decide⟩

theorem witness_SlotCommandsLeaveTheLinesAlone :
    ([.registerVec 0#32 1#32, .unregisterVec 31#32, .enableVec 32#32, .disableVec 0#32, .disableAllVec, .unregisterAllVec,
      .setDefaultVec 0#32] : List Instr).all vectorSlotCommand = true ∧
    ∃ t, exec (.registerVec 31#32 1#32) gap = .next t := ⟨by decide, _, rfl⟩

theorem witness_ReRegistrationReusesTheSlot : ∃ t : State, exec (.registerVec 31#32 1#32) gap = .next t ∧
    t.resp ≠ 0xFFFFFFFF#32 ∧ (0x8100#32 : Word) ≠ 0#32 := ⟨_, rfl, by decide, by decide⟩

theorem witness_SixteenLinesThenExhaustion : ∃ regs : List (Word × Word), (∀ k : Slot, inited.slotLine[k] = none) ∧
    regs.length = 16 ∧ (regs.map Prod.fst).Nodup ∧ (∀ p ∈ regs, p.1.toNat < 32 ∧ p.2 ≠ 0#32) ∧
    (15#32).toNat < 32 ∧ 15#32 ∉ regs.map Prod.fst :=
  ⟨(List.range 16).map fun k => (BitVec.ofNat 32 (16 + k), 0x8000#32), by decide, by decide, by decide,
    fun p hp => by
      obtain ⟨k, hk, rfl⟩ := List.mem_map.1 hp
      have := List.mem_range.1 hk
      exact ⟨by simp; omega, by simp⟩, by decide, by decide⟩

theorem witness_FreedSlotIsReusedWhenLowest : (0#32).toNat = (0 : Line).val ∧ (31#32).toNat = (31 : Line).val ∧
    gap.slotLine[(2 : Slot)] = some 0 ∧ ∃ t : State, exec (.unregisterVec 0#32) gap = .next t ∧
      ∀ j : Slot, t.slotLine[j] ≠ some 31 := ⟨rfl, rfl, by decide, _, rfl, by decide⟩

theorem witness_NonVectoredDispatchScansTheSnapshot :
    inited.dispatch = .idle ∧ inited.mode = .nonVectored ∧
    0#32 = (inited.rawsrc ||| inited.softInt) &&& inited.intEnable &&& ~~~inited.intSelect ∧
    0x1210#32 = (threeLines.rawsrc ||| threeLines.softInt) &&& threeLines.intEnable &&& ~~~threeLines.intSelect ∧
    (0x1210#32).getLsbD (4 : Line).val = true ∧ (∀ j : Line, j < 4 → (0x1210#32).getLsbD j.val = false) ∧
    (∀ j : Line, 12 < j → (0x1210#32).getLsbD j.val = false) ∧
    ((9 : Line) < 12 ∧ (0x1210#32).getLsbD (12 : Line).val = true ∧
      ∀ h : Line, 9 < h → h < 12 → (0x1210#32).getLsbD h.val = false) := by decide

theorem witness_WholeNonVectoredDispatch : threeLines.job = none ∧ threeLines.dispatch = .idle ∧ threeLines.mode = .nonVectored ∧
    (linesOf threeLines.irqStatus).length = 3 ∧
    { threeLines with moves := [.present 0x130000000000000000#72, .routineReturn, .routineReturn, .routineReturn] }.moves =
      .present (encode .dispatch) :: (List.replicate 3 .routineReturn ++ []) := by decide

theorem witness_VectoredDispatchReadsCallsWrites : twoSlots.dispatch = .idle ∧ twoSlots.mode = .vectored ∧
    twoSlots.inService = false ∧ { twoSlots with inService := true }.inService = true ∧
    { twoSlots with dispatch := .vectored }.dispatch = .vectored := by decide

theorem witness_MultiplexerPicksTheLowestMatchingSlot :
    (twoSlots.vectCntl[(0 : Slot)].getLsbD 5 = true ∧
      ((twoSlots.rawsrc ||| twoSlots.softInt) &&& twoSlots.intEnable &&& ~~~twoSlots.intSelect).getLsbD
        (twoSlots.vectCntl[(0 : Slot)].extractLsb' 0 5).toNat = true) ∧
    (∀ k : Slot, ¬ inited.vectCntl[k].getLsbD 5 = true) := by decide

theorem witness_ReentryFaults : { inited with dispatch := .vectored }.dispBusy = true := by decide

theorem witness_OnlyAReturnMovesADispatch : ∃ s t : State, s.dispBusy = true ∧ step s = .next t ∧
    s.moves.head? ≠ some .routineReturn :=
  ⟨{ twoSlots with dispatch := .vectored, moves := [.sources 0#32] }, _, by decide, rfl, by decide⟩

theorem witness_RegisteredLineIsServedByItsRoutine : ∃ s t1 t2 : State, s.slotsConsistent ∧ s.slotsDistinct ∧
    s.mode = .vectored ∧ s.dispatch = .idle ∧ s.inService = false ∧ (4#32).toNat = (4 : Line).val ∧
    exec (.registerVec 4#32 0x8000#32) s = .next t1 ∧ t1.resp ≠ 0xFFFFFFFF#32 ∧ exec (.enable 4#32) t1 = .next t2 ∧
    t2.irqStatus = 1#32 <<< (4 : Line).val :=
  ⟨{ inited with mode := .vectored, rawsrc := 0x10#32 }, _, _,
    ⟨by decide, fun k l h => by simp [inited, State.resetWith] at h, by decide⟩,
    fun j k l h => by simp [inited, State.resetWith] at h,
    rfl, rfl, rfl, rfl, rfl, by decide, rfl, by decide⟩

theorem witness_DispatchClearsNothing : (∃ t, exec .dispatch threeLines = .next t) ∧
    ∃ t, routineReturn { twoSlots with dispatch := .vectored } = .next t := ⟨⟨_, rfl⟩, _, rfl⟩

theorem witness_RegReadReturnsTheRegister :
    (0x012#32).toNat % 4 ≠ 0 ∧ ((0x024#32).toNat % 4 = 0 ∧ registerAt inited.params.offsets 0x024#32 = none) ∧
    ((0x030#32).toNat % 4 = 0 ∧ registerAt inited.params.offsets 0x030#32 = some .vectAddr ∧
      inited.inService = false ∧ { inited with inService := true }.inService = true) ∧
    registerAt inited.params.offsets 0x000#32 = some .irqStatus ∧
    registerAt inited.params.offsets 0x23C#32 = some (.vectCntlN 15) := by decide

theorem witness_RegWriteStoresByAccessKind :
    (0x013#32).toNat % 4 ≠ 0 ∧ ((0x240#32).toNat % 4 = 0 ∧ registerAt inited.params.offsets 0x240#32 = none) ∧
    ((0x020#32).toNat % 4 = 0 ∧ registerAt inited.params.offsets 0x020#32 = some .protection) ∧
    registerAt inited.params.offsets 0x100#32 = some (.vectAddrN 0) := by decide

theorem witness_OffsetsThatAreNotRegistersFault :
    inited.params.offsets = defaultRegMap ∧ (0x001#32).toNat % 4 ≠ 0 ∧
    faultOf 0x140000000100000000 inited = some .regMisaligned ∧
    (allRegs.all fun r => offsetOf inited.params.offsets r != 0x024#32) = true ∧
    ([0x024, 0x02C, 0x038, 0x0FC, 0x140, 0x1FC, 0x240] : List Nat).all (fun o =>
      (registerAt inited.params.offsets (BitVec.ofNat 32 o)).isNone) = true ∧
    ([0x020, 0x030, 0x034, 0x100, 0x13C, 0x200, 0x23C] : List Nat).all (fun o =>
      (registerAt inited.params.offsets (BitVec.ofNat 32 o)).isSome) = true := by decide

/-- The four verdicts and the completing case of `RELOCATE`, each with a state. -/
theorem witness_RelocateVerdictsInOrder :
    { inited with dispatch := .vectored }.dispBusy = true ∧
    ({ inited with relocDone := true }.dispBusy = false ∧ { inited with relocDone := true }.relocDone = true) ∧
    (inited.relocDone = false ∧ ¬ relocAligned { params with dstStart := 0x1006#32 }) ∧
    (inited.relocReady ∧ ¬ relocNoOp { params with dstStart := 0x1013FFF4#32 }) ∧ relocNoOp { params with srcB := 0x1000#32, dstStart := 0x1000#32 } := by
  decide

/-- The last word of a 16-byte destination from 0x1013FFF4 is the first word of the register block. -/
theorem witness_RelocateVerdictsInOrder_hitsVic : relocMeetsVic { params with dstStart := 0x1013FFF4#32 } :=
  ⟨0x10140000, by decide, by decide, by decide⟩

theorem witness_relocate_misses_vic : ¬ relocMeetsVic params := by
  rintro ⟨x, h, hlo, -⟩
  simp [params, sourceHi, sourceLo, blockLen] at h hlo
  omega

/-- Both no-op cases, and case (b) at its boundary: 16 bytes from 0xFFFFFFF0 are refused, from 0xFFFFFFEC accepted. -/
theorem witness_RelocateNoOpCases : inited.relocReady ∧ relocNoOp { params with dstStart := 0x1000#32 } ∧
    relocNoOp { params with dstStart := 0xFFFFFFF0#32 } ∧ ¬ relocNoOp { params with dstStart := 0xFFFFFFEC#32 } := by
  decide

theorem witness_RelocateCopiesTheBlock : Memory.wf vectors.mem ∧ vectors.relocReady ∧ ¬ relocNoOp vectors.params ∧
    ¬ relocMeetsVic vectors.params ∧ 4 * 3 < blockLen vectors.params :=
  ⟨by decide, by decide, by decide, witness_relocate_misses_vic, by decide⟩

/-- Backward in `vectors` (0x1000 < 0x1004 < 0x1010); forward from one byte below the source and from its end. -/
theorem witness_RelocateAccessesInOrder : (Memory.wf vectors.mem ∧ vectors.relocReady ∧ ¬ relocNoOp vectors.params ∧
    ¬ relocMeetsVic vectors.params) ∧
    (sourceLo params < params.dstStart.toNat ∧ params.dstStart.toNat < sourceHi params) ∧
    (0x0FFC#32).toNat < sourceLo params ∧ sourceHi params ≤ (0x1010#32).toNat :=
  ⟨⟨by decide, by decide, by decide, witness_relocate_misses_vic⟩, by decide, by decide, by decide⟩

theorem witness_RelocateOnlyOnce : (∃ t : State, exec .relocate vectors = .next t) ∧
    { inited with relocDone := true }.dispBusy = false ∧
    ∃ t : State, { inited with relocDone := true }.relocDone = true ∧ step { inited with relocDone := true } = .next t :=
  ⟨⟨_, rfl⟩, by decide, _, rfl, rfl⟩

theorem witness_ModeTransitionTable : (∃ t, exec .init inited = .next t) ∧ (∃ t, exec (.setMode 0#32) twoSlots = .next t) ∧
    (∃ t, exec (.setMode 1#32) inited = .next t) ∧
    (Instr.setMode 2#32 ≠ .init ∧ Instr.setMode 2#32 ≠ .setMode 0#32 ∧ Instr.setMode 2#32 ≠ .setMode 1#32 ∧
      ∃ t, exec (.setMode 2#32) inited = .next t) ∧
    2 ≤ (2#32).toNat ∧ (∃ t, routineReturn { twoSlots with dispatch := .vectored } = .next t) ∧
    (∃ t, step { inited with moves := [.sources 1#32] } = .next t ∧ { inited with moves := [.sources 1#32] }.nextCommand = none) ∧
    ∃ t, step { inited with moves := [.start 0x020000000000000000#72] } = .next t ∧
      { inited with moves := [.start 0x020000000000000000#72] }.nextCommand = some .init :=
  ⟨⟨_, rfl⟩, ⟨_, rfl⟩, ⟨_, rfl⟩, ⟨by decide, by decide, by decide, _, rfl⟩, by decide, ⟨_, rfl⟩, ⟨_, rfl, rfl⟩, _, rfl, by decide⟩

/-- A read of `VECTADDR`, a write of it, an access of neither kind, and the two kinds of return. -/
theorem witness_InServiceIsTheHandshake :
    (∃ t, exec (.regRead 0x30#32) inited = .next t ∧ Event.regRead .vectAddr 0xD000#32 ∈ t.trace.drop inited.trace.length) ∧
    (∃ t, exec (.regWrite 0x30#32 7#32) inited = .next t ∧
      Event.regWrite .vectAddr 7#32 ∈ t.trace.drop inited.trace.length) ∧
    (∃ t, exec .disableAll inited = .next t ∧ t.trace.drop inited.trace.length =
      [.regWrite .intEnClear 0xFFFFFFFF#32, .response 0#32]) ∧
    (∃ t, routineReturn { twoSlots with dispatch := .vectored } = .next t) ∧
    ∃ t, routineReturn { threeLines with dispatch := .nonVectored 0x1210#32 12 } = .next t :=
  ⟨⟨_, rfl, by decide⟩, ⟨_, rfl, by decide⟩, ⟨_, rfl, by decide⟩, ⟨_, rfl⟩, _, rfl⟩

theorem witness_EachStateHasItsWriters :
    (∃ t, exec (.setType 4#32 1#32) inited = .next t ∧ t.intSelect ≠ inited.intSelect) ∧
    (∃ t, exec (.enable 31#32) inited = .next t ∧ t.intEnable ≠ inited.intEnable) ∧
    (∃ t, exec .swiTrigger inited = .next t ∧ t.softInt ≠ inited.softInt) ∧
    (∃ t, exec (.regWrite 0x20#32 1#32) inited = .next t ∧ t.protection ≠ inited.protection) ∧
    (∃ t, exec (.setDefaultVec 1#32) inited = .next t ∧ t.defVectAddr ≠ inited.defVectAddr) ∧
    (∃ t, exec (.registerVec 4#32 1#32) inited = .next t ∧ t.vectAddr[(0 : Slot)] ≠ inited.vectAddr[(0 : Slot)] ∧
      t.vectCntl[(0 : Slot)] ≠ inited.vectCntl[(0 : Slot)] ∧ t.slotLine ≠ inited.slotLine) ∧
    (∃ t, exec (.regRead 0x30#32) inited = .next t ∧ t.inService ≠ inited.inService) ∧
    (∃ t, exec (.registerNv 4#32 1#32) inited = .next t ∧ t.nvTable ≠ inited.nvTable) ∧
    (∃ t, exec (.setMode 1#32) inited = .next t ∧ t.mode ≠ inited.mode) ∧
    (∃ t, exec .relocate vectors = .next t ∧ t.relocDone ≠ vectors.relocDone ∧ t.mem ≠ vectors.mem) ∧
    (∃ t, exec .relocate { vectors with relocState := .check } = .next t ∧ t.relocState ≠ .check) ∧
    (∃ t, exec .dispatch threeLines = .next t ∧ t.dispatch ≠ threeLines.dispatch) ∧
    (∃ wrote : Reg → Prop, ∀ r, wrote r ↔ ∃ off v, Instr.regWrite 0x20#32 1#32 = .regWrite off v ∧
      registerAt inited.params.offsets off = some r) ∧
    ∃ t, routineReturn { twoSlots with dispatch := .vectored } = .next t :=
  ⟨⟨_, rfl, by decide⟩, ⟨_, rfl, by decide⟩, ⟨_, rfl, by decide⟩, ⟨_, rfl, by decide⟩, ⟨_, rfl, by decide⟩,
    ⟨_, rfl, by decide, by decide, by decide⟩, ⟨_, rfl, by decide⟩, ⟨_, rfl, by decide⟩, ⟨_, rfl, by decide⟩,
    ⟨_, rfl, by decide, by decide⟩, ⟨_, rfl, by decide⟩, ⟨_, rfl, by decide⟩, ⟨_, fun _ => .rfl⟩, _, rfl⟩

theorem witness_OnlyRelocateStores : (∃ t : State, ∃ i : Instr, i ≠ .relocate ∧ exec i inited = .next t) ∧
    ∃ t, routineReturn { twoSlots with dispatch := .vectored } = .next t := ⟨⟨_, .init, by decide, rfl⟩, _, rfl⟩

theorem witness_AccessKindsAreRespected : (∃ t, exec .init inited = .next t) ∧ (∀ off, Instr.init ≠ .regRead off) ∧
    (∀ off v, Instr.init ≠ .regWrite off v) ∧ ∃ t, routineReturn { twoSlots with dispatch := .vectored } = .next t :=
  ⟨⟨_, rfl⟩, by simp, by simp, _, rfl⟩

theorem witness_OutputsFollowThePendingLines :
    0x1210#32 = (threeLines.rawsrc ||| threeLines.softInt) &&& threeLines.intEnable &&& ~~~threeLines.intSelect ∧
    0#32 = (threeLines.rawsrc ||| threeLines.softInt) &&& threeLines.intEnable &&& threeLines.intSelect := by decide

theorem witness_OneResponsePerCommand : (∃ t, exec .disableAll inited = .next t) ∧
    (∃ t : State, exec .dispatch inited = .next t ∧ t.dispBusy = false) ∧
    ∃ t : State, exec .dispatch threeLines = .next t ∧ t.dispBusy = true :=
  ⟨⟨_, rfl⟩, ⟨_, rfl, by decide⟩, _, rfl, by decide⟩

theorem witness_RejectedOperandsDoNothing : 2 ≤ (2#32).toNat ∧ 32 ≤ (32#32).toNat ∧
    (∀ j : Slot, ∃ m : Line, garbage.slotLine[j] = some m ∧ m.val ≠ (31#32).toNat) ∧
    (∀ (j : Slot) (m : Line), gap.slotLine[j] = some m → m.val ≠ (31#32).toNat) ∧
    (threeLines.dispatch = .idle ∧ threeLines.mode = .nonVectored) ∧ twoSlots.inService = false ∧
    (vectors.relocReady ∧ relocNoOp { params with dstStart := 0x1000#32 }) := by decide

/-- A command that completes in one step, and one between two of its accesses. -/
theorem witness_StepKeepsTheInvariant : (∃ s t : State, s.Inv ∧ step s = .next t) ∧
    ∃ s t : State, s.Inv ∧ s.job ≠ none ∧ step s = .next t :=
  ⟨⟨{ vectors with moves := [.present 0x000000000000000000#72] }, _, ⟨by decide, fun _ => rfl, rfl, rfl⟩, rfl⟩,
    { midCopy with moves := [.proceed] }, _, ⟨by decide, nofun, rfl, by decide⟩, nofun, rfl⟩

theorem witness_EngineKeepsTheSlotInvariants : ∃ s t : State, s.params.dummyAddr ≠ 0#32 ∧ s.settled.slotsConsistent ∧
    s.settled.slotsDistinct ∧ step s = .next t ∧ (∀ i, s.nextCommand = some i → rawSlotWrite s.params i = false) :=
  ⟨{ inited with moves := [.start 0x0A0000000400008000#72] }, _, by decide,
    ⟨by decide, fun k l h => by simp [State.settled, inited, State.resetWith] at h, by decide⟩,
    fun j k l h => by simp [State.settled, inited, State.resetWith] at h, rfl, fun i h => by
      simp [State.nextCommand, show decode 0x0A0000000400008000#72 = .ok (.registerVec 4#32 0x8000#32) by decide] at h
      subst h; rfl⟩

/-- A call of a non-vectored `DISPATCH`, and one of a vectored one with the slots as the engine keeps them. -/
theorem witness_InvokedAddressesAreNeverNull :
    (∃ s t : State, s.params.dummyAddr ≠ 0#32 ∧ s.settled.tableNonNull ∧ step s = .next t ∧
      Event.call 0x8000#32 ∈ t.trace.drop s.trace.length ∧ t.dispatch ≠ .vectored) ∧
    ∃ s t : State, s.params.dummyAddr ≠ 0#32 ∧ s.settled.tableNonNull ∧ s.slotsConsistent ∧ step s = .next t ∧
      Event.call 0xD000#32 ∈ t.trace.drop s.trace.length ∧ t.dispatch = .vectored :=
  ⟨⟨{ threeLines with moves := [.present 0x130000000000000000#72] }, _, by decide, by decide, rfl, by decide, by decide⟩,
    { inited with mode := .vectored, moves := [.present 0x130000000000000000#72] }, _, by decide, by decide,
    ⟨by decide, fun k l h => by simp [inited, State.resetWith] at h, by decide⟩, rfl, by decide, by decide⟩

end Sys2Proof.Machine.Tests
end

section
/-!
PROOFS of the statements about what a step is (00_scope R2, R15, 20_memory R90): the machine's answer to each move of the
environment, and a command run access by access with changes of `RAWSRC` in its gaps.
-/
namespace Sys2Proof.Machine

/-! ## What a step answers to each move -/

theorem whenFree_busy {s : State} (r : Result) (h : s.job ≠ none) : whenFree s r = .refused .commandInProgress := by
  obtain ⟨j, hj⟩ := Option.ne_none_iff_exists'.1 h
  simp [whenFree, hj]

theorem step_idle {s : State} (h : s.moves = []) : step s = .next s := by
  simp [step, takeMove, h]

section
variable {s : State} {cw : CommandWord} {rest : List Move}

theorem step_present (h : s.moves = .present cw :: rest) :
    step s = whenFree { s with moves := rest } (acceptCommand cw { s with moves := rest }) := by
  simp [step, takeMove, h]

theorem step_start (h : s.moves = .start cw :: rest) :
    step s = whenFree { s with moves := rest } (startCommand cw { s with moves := rest }) := by
  simp [step, takeMove, h]

theorem step_proceed (h : s.moves = .proceed :: rest) : step s = proceedCommand { s with moves := rest } := by
  simp [step, takeMove, h]

theorem step_sources {v : Word} (h : s.moves = .sources v :: rest) :
    step s = .next { s with moves := rest, rawsrc := v } := by
  simp [step, takeMove, h, driveSources]

theorem step_routineReturn (h : s.moves = .routineReturn :: rest) :
    step s = whenFree { s with moves := rest } (routineReturn { s with moves := rest }) := by
  simp [step, takeMove, h]

/-- A command presented to be run whole, with the block free, is executed. -/
theorem step_present_decoded {i : Instr} (hj : s.job = none) (h : s.moves = .present cw :: rest)
    (hd : decode cw = .ok i) : step s = exec i { s with moves := rest } := by
  rw [step_present h, acceptCommand, hd]
  exact whenFree_free _ hj

/-- A command presented to be run access by access, with the block free, performs its first access. -/
theorem step_start_decoded {i : Instr} {t : State} (hj : s.job = none) (h : s.moves = .start cw :: rest)
    (hd : decode cw = .ok i) (hi : i ≠ .dispatch) (ht : exec i { s with moves := rest } = .next t) :
    step s = .next (nextAccess (jobOf { s with moves := rest } t) { s with moves := rest }) := by
  rw [step_start h, startCommand, hd]
  simp only [startInstr, if_neg hi, ht]
  exact whenFree_free _ hj

/-- A command or a return presented inside a command is refused (00_scope R15). -/
theorem step_busy (h : s.moves = .present cw :: rest ∨ s.moves = .start cw :: rest ∨ s.moves = .routineReturn :: rest)
    (hj : s.job ≠ none) : step s = .refused .commandInProgress := by
  rcases h with h | h | h
  · exact (step_present h).trans (whenFree_busy _ hj)
  · exact (step_start h).trans (whenFree_busy _ hj)
  · exact (step_routineReturn h).trans (whenFree_busy _ hj)

theorem step_routineReturn_free (h : s.moves = .routineReturn :: rest) (hj : s.job = none) :
    step s = routineReturn { s with moves := rest } :=
  (step_routineReturn h).trans (whenFree_free _ hj)

theorem step_proceed_busy {j : CommandJob} (h : s.moves = .proceed :: rest) (hj : s.job = some j) :
    step s = .next (nextAccess j { s with moves := rest }) := by
  simp [step_proceed h, proceedCommand, hj]

theorem step_proceed_free (h : s.moves = .proceed :: rest) (hj : s.job = none) :
    step s = .refused .nothingInProgress := by
  simp [step_proceed h, proceedCommand, hj]

end

theorem routineReturn_idle {s : State} (h : s.dispatch = .idle) : routineReturn s = .refused .returnWithoutInvoke := by
  simp [routineReturn, h]

/-- Settles O5: the step of a presented word is the command it decodes to, once the guard for a free block is passed. -/
theorem stepRunsThePresentedCommand : Obligations.StepRunsThePresentedCommand :=
  fun _ _ _ _ hj hm hd => step_present_decoded hj hm hd

/-- Settles O6: one of the lemmas about `step` for each move, with the block free and with a command in progress. -/
theorem stepTakesTheOtherMoves : Obligations.StepTakesTheOtherMoves := by
  intro s rest cw v
  refine ⟨step_idle, step_sources, step_routineReturn_free, fun hm hj hd => ?_, step_busy, step_proceed_free⟩
  rw [step_routineReturn_free hm hj]
  exact routineReturn_idle hd

/-! ## A command run access by access

Between the first access of a command and its response the run is a sequence of gaps: changes of `RAWSRC`, then one access
(20_memory R90). Each gap consumes its own moves and one pending access, and leaves a `MidCommand`. -/

/-- `n` steps from `s` to `u` that observe `es` while the sources drive `vs`, with no response given and the sequencer left
as it was: what a stretch of a command run access by access does before its response. -/
structure StretchOf (n : Nat) (es : List Event) (vs : List Word) (s u : State) : Prop where
  run : runsTo n s u
  trace : u.trace = s.trace ++ es
  rawsrc : u.rawsrc = vs.getLastD s.rawsrc
  resp : u.resp = s.resp
  dispatch : u.dispatch = s.dispatch

/-- What the sources drove last, over two stretches. -/
theorem getLastD_append {α : Type} (vs ws : List α) (d : α) : (vs ++ ws).getLastD d = ws.getLastD (vs.getLastD d) := by
  simp [List.getLastD_eq_getLast?, List.getLast?_append]

theorem StretchOf.refl (s : State) : StretchOf 0 [] [] s s := ⟨rfl, by simp, rfl, rfl, rfl⟩

theorem StretchOf.trans {m n : Nat} {es fs : List Event} {vs ws : List Word} {s u w : State}
    (h : StretchOf m es vs s u) (k : StretchOf n fs ws u w) : StretchOf (m + n) (es ++ fs) (vs ++ ws) s w where
  run := run_add m n h.run k.run
  trace := by rw [k.trace, h.trace, List.append_assoc]
  rawsrc := by rw [k.rawsrc, h.rawsrc, getLastD_append]
  resp := k.resp.trans h.resp
  dispatch := k.dispatch.trans h.dispatch

/-- The sources drive `vs`, one value after another: `RAWSRC` is the last of them. -/
theorem stretchOf_sources {rest : List Move} (vs : List Word) {s : State} (hm : s.moves = vs.map .sources ++ rest) :
    StretchOf vs.length [] vs s { s with rawsrc := vs.getLastD s.rawsrc, moves := rest } := by
  induction vs generalizing s with
  | nil =>
    have hs : { s with rawsrc := [].getLastD s.rawsrc, moves := rest } = s := by
      rw [show rest = s.moves from hm.symm]; rfl
    rw [hs]
    exact .refl s
  | cons v vs ih =>
    have first : StretchOf 1 [] [v] s { s with moves := vs.map .sources ++ rest, rawsrc := v } :=
      ⟨run_one (step_sources hm), by simp, rfl, rfl, rfl⟩
    rw [List.length_cons, Nat.add_comm, List.getLastD_cons]
    exact first.trans (ih rfl)

/-- One gap: the sources drive `vs`, then the next access is performed. -/
theorem MidCommand.gap {t s : State} {v : Word} {e : Event} {es : List Event} {vs : List Word} {rest : List Move}
    (h : MidCommand t v (e :: es) s) (hm : s.moves = gapMoves vs ++ rest) :
    ∃ u : State, StretchOf (gapMoves vs).length [e] vs s u ∧ MidCommand t v es u ∧ u.moves = rest := by
  have driven := stretchOf_sources vs (rest := .proceed :: rest) (by simpa [gapMoves] using hm)
  obtain ⟨j, u, hj, hn, hu, htr, hraw, hmv, hresp, hdisp⟩ := (h.sources (vs.getLastD s.rawsrc) rest).next
  have access : StretchOf 1 [e] [] { s with rawsrc := vs.getLastD s.rawsrc, moves := .proceed :: rest } u :=
    ⟨run_one (hn ▸ step_proceed_busy rfl hj), htr, hraw, hresp, hdisp⟩
  exact ⟨u, by simpa [gapMoves] using driven.trans access, hu, hmv⟩

/-- As many gaps as there are accesses in `es`: these are performed, and `fs` are still to come. -/
theorem MidCommand.gaps {t : State} {v : Word} {fs : List Event} {rest : List Move} (gaps : List (List Word))
    {es : List Event} {s : State} (h : MidCommand t v (es ++ fs) s) (hl : gaps.length = es.length)
    (hm : s.moves = gaps.flatMap gapMoves ++ rest) :
    ∃ u : State, StretchOf (gaps.flatMap gapMoves).length es gaps.flatten s u ∧ MidCommand t v fs u ∧ u.moves = rest := by
  induction gaps generalizing es s with
  | nil =>
    obtain rfl := List.length_eq_zero_iff.1 hl.symm
    exact ⟨s, .refl s, h, hm⟩
  | cons vs gaps ih =>
    obtain ⟨e, es, rfl⟩ := List.exists_cons_of_length_eq_add_one hl.symm
    obtain ⟨s', hs', hmid, hmv⟩ := h.gap (by simpa using hm)
    obtain ⟨u, hu, hfs, hrest⟩ := ih hmid (Nat.succ.inj hl) hmv
    exact ⟨u, by simpa using hs'.trans hu, hfs, hrest⟩

/-- The last gap: the sources drive `vs`, then the response ends the command as the whole command ends. -/
theorem MidCommand.finish {t s : State} {v : Word} {vs : List Word} {rest : List Move} (h : MidCommand t v [] s)
    (ht : t.job = none) (hm : s.moves = gapMoves vs ++ rest) :
    runsTo (gapMoves vs).length s { t with rawsrc := vs.getLastD s.rawsrc, moves := rest } := by
  have driven := stretchOf_sources vs (rest := .proceed :: rest) (by simpa [gapMoves] using hm)
  obtain ⟨j, hj, hn⟩ := (h.sources (vs.getLastD s.rawsrc) rest).last ht
  have response := run_one (hn ▸ step_proceed_busy (s := { s with
    rawsrc := vs.getLastD s.rawsrc, moves := .proceed :: rest }) rfl hj)
  simpa [gapMoves] using run_add _ _ driven.run response

/-- A command in progress with one gap for each access to come and one for the response ends as the whole command ends. -/
theorem MidCommand.runs_to_end {t : State} {v : Word} {rest : List Move} (ht : t.job = none) (gaps : List (List Word))
    {es : List Event} {s : State} (h : MidCommand t v es s) (hl : gaps.length = es.length + 1)
    (hm : s.moves = gaps.flatMap gapMoves ++ rest) :
    runsTo (gaps.flatMap gapMoves).length s { t with rawsrc := gaps.flatten.getLastD s.rawsrc, moves := rest } := by
  induction es generalizing gaps s with
  | nil =>
    obtain ⟨vs, rfl⟩ := List.length_eq_one_iff.1 hl
    simpa only [List.flatMap_singleton, List.flatten_singleton] using h.finish ht (by simpa using hm)
  | cons e es ih =>
    obtain ⟨vs, gaps, rfl⟩ := List.exists_cons_of_length_eq_add_one hl
    obtain ⟨s', hs', hmid, hmv⟩ := h.gap (by simpa using hm)
    have hrun := run_add _ _ hs'.run (ih gaps hmid (Nat.succ.inj hl) hmv)
    rwa [hs'.rawsrc, ← getLastD_append, ← List.length_append, ← List.flatMap_cons, ← List.flatten_cons] at hrun

/-- What a whole command other than `DISPATCH` leaves of the environment's side of the state. -/
theorem exec_keeps_environment {i : Instr} {s t : State} (hi : i ≠ .dispatch) (h : exec i s = .next t) :
    t.job = s.job ∧ t.moves = s.moves ∧ t.rawsrc = s.rawsrc := by
  obtain ⟨-, v, u, rfl, -, -, hjob, hmoves, hraw, -⟩ := exec_replays hi h
  exact ⟨hjob, hmoves, hraw⟩

/-- The step that takes a command to be run access by access: it is the whole command, or its first access, with the rest
of them still to come (20_memory R90). -/
theorem step_start_cases {s t : State} {cw : CommandWord} {i : Instr} {ms : List Move} (hj : s.job = none)
    (hm : s.moves = .start cw :: ms) (hd : decode cw = .ok i) (hi : i ≠ .dispatch)
    (ht : exec i { s with moves := ms } = .next t) :
    (step s = .next t ∧ (t.trace.drop s.trace.length).length = 1) ∨
    ∃ (e : Event) (es : List Event) (v : Word) (s1 : State), t.trace.drop s.trace.length = e :: es ++ [.response v] ∧
      StretchOf 1 [e] [] s s1 ∧ MidCommand t v es s1 ∧ s1.moves = ms := by
  have hstep := step_start_decoded hj hm hd hi ht
  rcases start_first hi ht hj with ⟨hwhole, hone⟩ | ⟨e, es, v, hdrop, hmid, htrace, hraw, hmoves, hresp, hdisp⟩
  · exact .inl ⟨by rw [hstep, hwhole], hone⟩
  · exact .inr ⟨e, es, v, _, hdrop, ⟨run_one hstep, htrace, hraw, hresp, hdisp⟩, hmid, hmoves⟩

/-- Settles O60: a command whose only access is its response has no gap; any other is, after its first access, a
`MidCommand`, which `MidCommand.runs_to_end` takes to its end and `MidCommand.gaps` to each state in between. -/
theorem accessByAccessIsTheWholeCommand : Obligations.AccessByAccessIsTheWholeCommand := by
  intro s t cw i rest gaps hj hd hi hm ht hlen
  obtain ⟨hjob, hmoves, hraw⟩ := exec_keeps_environment hi ht
  rcases step_start_cases hj hm hd hi ht with ⟨hstep, hone⟩ | ⟨e, es, v, s1, hdrop, first, hmid, hs1⟩
  · obtain rfl : gaps = [] := List.length_eq_zero_iff.1 (by omega)
    have hfinal : t = { t with rawsrc := s.rawsrc, moves := rest } := by
      rw [show s.rawsrc = t.rawsrc from hraw.symm, show rest = t.moves from hmoves.symm]
    exact ⟨(run_one hstep).trans (congrArg _ hfinal), nofun⟩
  · have hl : gaps.length = es.length + 1 := by simpa [hdrop] using hlen
    constructor
    · have hend := hmid.runs_to_end (hjob.trans hj) gaps hl hs1
      rw [first.rawsrc] at hend
      exact run_add _ _ first.run hend
    · intro k hk
      rw [← List.take_append_drop k es] at hmid
      rw [← List.take_append_drop k gaps, List.flatMap_append, List.append_assoc] at hs1
      obtain ⟨u, hu, hmidk, -⟩ := hmid.gaps (gaps.take k) (by simp; omega) hs1
      have hsofar := first.trans hu
      have hobserved : (t.trace.drop s.trace.length).take (k + 1) = [e] ++ es.take k := by
        rw [hdrop, List.cons_append, List.take_succ_cons, List.take_append_of_le_length (by omega)]
        rfl
      exact ⟨u, hsofar.run, by rw [hsofar.trace, hobserved], hsofar.rawsrc, by simp [hmidk.job], hsofar.resp,
        hsofar.dispatch⟩

end Sys2Proof.Machine
end

section
/-!
PROOFS of what each command may change (10_state R20 to R43): one constructor per command, and the writers of each piece of
state read off it.
-/
namespace Sys2Proof.Machine

/-! ## The footprint of a command -/

/-- What a command may change: after the command, every field but those named holds what it held before. -/
inductive Footprint (s : State) : Instr → State → Prop
  | relocate {mem ph d tr v} :
      Footprint s .relocate { s with mem := mem, relocState := ph, relocDone := d, trace := tr, resp := v }
  | setMode {a m tr v} : Footprint s (.setMode a) { s with mode := m, trace := tr, resp := v }
  | init {sel en soft dva addr cntl nv sl m tr v} : Footprint s .init { s with
      intSelect := sel, intEnable := en, softInt := soft, defVectAddr := dva, vectAddr := addr, vectCntl := cntl,
      nvTable := nv, slotLine := sl, mode := m, trace := tr, resp := v }
  | registerNv {line routine nv tr v} :
      Footprint s (.registerNv line routine) { s with nvTable := nv, trace := tr, resp := v }
  | enable {line en tr v} : Footprint s (.enable line) { s with intEnable := en, trace := tr, resp := v }
  | disable {line en tr v} : Footprint s (.disable line) { s with intEnable := en, trace := tr, resp := v }
  | disableAll {en tr v} : Footprint s .disableAll { s with intEnable := en, trace := tr, resp := v }
  | isEnabled {line tr v} : Footprint s (.isEnabled line) { s with trace := tr, resp := v }
  | getType {line tr v} : Footprint s (.getType line) { s with trace := tr, resp := v }
  | setType {line kind sel tr v} : Footprint s (.setType line kind) { s with intSelect := sel, trace := tr, resp := v }
  | registerVec {line routine addr cntl sl tr v} : Footprint s (.registerVec line routine) { s with
      vectAddr := addr, vectCntl := cntl, slotLine := sl, trace := tr, resp := v }
  | unregisterVec {line addr cntl sl tr v} : Footprint s (.unregisterVec line) { s with
      vectAddr := addr, vectCntl := cntl, slotLine := sl, trace := tr, resp := v }
  | enableVec {line cntl tr v} : Footprint s (.enableVec line) { s with vectCntl := cntl, trace := tr, resp := v }
  | disableVec {line cntl tr v} : Footprint s (.disableVec line) { s with vectCntl := cntl, trace := tr, resp := v }
  | disableAllVec {cntl tr v} : Footprint s .disableAllVec { s with vectCntl := cntl, trace := tr, resp := v }
  | unregisterAllVec {addr cntl sl tr v} : Footprint s .unregisterAllVec { s with
      vectAddr := addr, vectCntl := cntl, slotLine := sl, trace := tr, resp := v }
  | setDefaultVec {routine dva tr v} :
      Footprint s (.setDefaultVec routine) { s with defVectAddr := dva, trace := tr, resp := v }
  | swiTrigger {soft tr v} : Footprint s .swiTrigger { s with softInt := soft, trace := tr, resp := v }
  | swiClear {soft tr v} : Footprint s .swiClear { s with softInt := soft, trace := tr, resp := v }
  | dispatch {b d tr v} : Footprint s .dispatch { s with inService := b, dispatch := d, trace := tr, resp := v }
  | regRead {off r} (h : registerAt s.params.offsets off = some r) :
      Footprint s (.regRead off) ((s.afterRead r).respond (s.readValue r))
  | regWrite {off v r} (h : registerAt s.params.offsets off = some r) :
      Footprint s (.regWrite off v) ((s.regWrite r v).respond 0#32)

/-- A loop over the slots changes slots and observations alone. -/
theorem eq_of_offSlots {s t : State} (h : t.offSlots = s.offSlots) : ∃ sl cntl addr tr,
    t = { s with slotLine := sl, vectCntl := cntl, vectAddr := addr, trace := tr } :=
  ⟨_, _, _, _, (offSlots_eq_iff s t).1 h⟩

/-- A loop over the enable bits changes control registers and observations alone. -/
theorem eq_of_offCntl {s t : State} (h : t.offCntl = s.offCntl) : ∃ cntl tr,
    t = { s with vectCntl := cntl, trace := tr } :=
  ⟨_, _, (offCntl_eq_iff s t).1 h⟩

/-- The table loop of `INIT` changes the table alone. -/
theorem eq_of_offTable {s t : State} (h : t.offTable = s.offTable) : ∃ nv, t = { s with nvTable := nv } :=
  ⟨_, (offTable_eq_iff s t).1 h⟩

/-- The four single writes of `INIT` (41_mode_and_init R163). -/
theorem initRegisters_frame (s : State) : ∃ sel en soft dva tr, initRegisters s =
    { s with intSelect := sel, intEnable := en, softInt := soft, defVectAddr := dva, trace := tr } := by
  simp only [initRegisters, State.regWrite, State.writeEffect, State.observe]
  exact ⟨_, _, _, _, _, rfl⟩

/-- The four single writes and the two loops of `INIT` (41_mode_and_init R163). -/
theorem initLoops_frame (s : State) : ∃ sel en soft dva sl cntl addr tr nv,
    allLines.foldl initLine (allSlots.foldl initSlot (initRegisters s)) = { s with
      intSelect := sel, intEnable := en, softInt := soft, defVectAddr := dva, slotLine := sl, vectCntl := cntl,
      vectAddr := addr, trace := tr, nvTable := nv } := by
  obtain ⟨sel, en, soft, dva, _, hregs⟩ := initRegisters_frame s
  obtain ⟨sl, cntl, addr, tr, hslots⟩ := eq_of_offSlots (foldl_initSlot_rest (initRegisters s))
  obtain ⟨nv, hlines⟩ := eq_of_offTable (foldl_initLine_rest (allSlots.foldl initSlot (initRegisters s)))
  exact ⟨sel, en, soft, dva, sl, cntl, addr, tr, nv, by rw [hlines, hslots, hregs]⟩

/-- `DISPATCH` changes the handshake, the sequencer, the response and the observations alone (44_dispatch R211 to R213). -/
theorem dispatch_frame {s t : State} (h : exec .dispatch s = .next t) : ∃ b d tr v,
    t = { s with inService := b, dispatch := d, trace := tr, resp := v } := by
  rcases dispatch_next h with ⟨-, ⟨-, ht⟩ | ⟨-, -, ht⟩⟩
  · obtain ⟨es, d, v, hscan, -⟩ := scanFrom_frame s.irqStatus 0 (s.observe (.regRead .irqStatus s.irqStatus))
    exact ⟨s.inService, d, _, v, ht.trans hscan⟩
  · exact ⟨true, .vectored, _, s.resp, ht⟩

/-- Every command stays in its footprint. -/
theorem exec_footprint {i : Instr} {s t : State} (h : exec i s = .next t) : Footprint s i t := by
  cases i with
  | relocate =>
    obtain ⟨-, -, ht, -⟩ := relocate_next h
    rw [ht]; exact .relocate
  | dispatch =>
    obtain ⟨b, d, tr, v, rfl⟩ := dispatch_frame h
    exact .dispatch
  | regRead off =>
    obtain ⟨r, hr, -, rfl⟩ := regRead_next h
    exact .regRead hr
  | regWrite off v =>
    obtain ⟨r, hr, rfl⟩ := regWrite_next h
    exact .regWrite hr
  | setMode a =>
    simp only [exec, execSetMode] at h
    split at h <;> cases h <;> exact .setMode
  | init =>
    obtain ⟨sel, en, soft, dva, sl, cntl, addr, tr, nv, hloops⟩ := initLoops_frame s
    simp only [exec, execInit, hloops] at h
    cases h
    exact .init
  | registerNv line routine =>
    simp only [exec, execRegisterNv] at h
    split at h
    · split at h <;> cases h <;> exact .registerNv
    · cases h; exact .registerNv
  | enable line =>
    simp only [exec, execEnable] at h
    split at h <;> cases h <;> exact .enable
  | disable line =>
    simp only [exec, execDisable] at h
    split at h <;> cases h <;> exact .disable
  | disableAll => cases h; exact .disableAll
  | isEnabled line =>
    simp only [exec, execIsEnabled] at h
    split at h <;> cases h <;> exact .isEnabled
  | getType line =>
    simp only [exec, execGetType] at h
    split at h <;> cases h <;> exact .getType
  | setType line kind =>
    simp only [exec, execSetType] at h
    split at h <;> cases h <;> exact .setType
  | registerVec line routine =>
    simp only [exec, execRegisterVec] at h
    split at h
    · split at h
      · cases h; exact .registerVec
      · split at h
        · next l _ _ _ k _ =>
          obtain ⟨sl, cntl, addr, tr, hbind⟩ := eq_of_offSlots (bindSlot_rest s k l routine)
          rw [hbind] at h
          cases h; exact .registerVec
        · cases h; exact .registerVec
    · cases h; exact .registerVec
  | unregisterVec line =>
    simp only [exec, execUnregisterVec] at h
    split at h
    · next l _ =>
      obtain ⟨sl, cntl, addr, tr, hloop⟩ := eq_of_offSlots (forAssigned_release_rest s l)
      rw [hloop] at h
      cases h; exact .unregisterVec
    · cases h; exact .unregisterVec
  | enableVec line =>
    simp only [exec, execEnableVec] at h
    split at h
    · next l _ =>
      obtain ⟨cntl, tr, hloop⟩ := eq_of_offCntl (forAssigned_enable_rest s l)
      rw [hloop] at h
      cases h; exact .enableVec
    · cases h; exact .enableVec
  | disableVec line =>
    simp only [exec, execDisableVec] at h
    split at h
    · next l _ =>
      obtain ⟨cntl, tr, hloop⟩ := eq_of_offCntl (forAssigned_disable_rest s l)
      rw [hloop] at h
      cases h; exact .disableVec
    · cases h; exact .disableVec
  | disableAllVec =>
    obtain ⟨cntl, tr, hloop⟩ := eq_of_offCntl (forEverySlot_disable_rest s)
    simp only [exec, execDisableAllVec, hloop] at h
    cases h; exact .disableAllVec
  | unregisterAllVec =>
    obtain ⟨sl, cntl, addr, tr, hloop⟩ := eq_of_offSlots (forEverySlot_release_rest s)
    simp only [exec, execUnregisterAllVec, hloop] at h
    cases h; exact .unregisterAllVec
  | setDefaultVec routine =>
    simp only [exec, execSetDefaultVec] at h
    split at h <;> cases h <;> exact .setDefaultVec
  | swiTrigger => cases h; exact .swiTrigger
  | swiClear => cases h; exact .swiClear

/-- A return changes the handshake, the sequencer, the response and the observations alone (44_dispatch R216). -/
theorem return_frame {s t : State} (h : routineReturn s = .next t) :
    t = { s with inService := t.inService, dispatch := t.dispatch, resp := t.resp, trace := t.trace } := by
  rcases return_next h with ⟨snap, i, -, ht⟩ | ⟨-, ht⟩
  · obtain ⟨es, d, v, hscan, -⟩ := scanFrom_frame snap (i.val + 1) (s.observe .ret)
    rw [ht, hscan]; rfl
  · rw [ht]

/-! ## The writers of each register -/

/-- An entry that a write of entry `k` changed is entry `k`. -/
theorem eq_of_set_ne {α : Type} {n : Nat} {xs : Vector α n} {j k : Fin n} {x : α}
    (h : (xs.set k x)[j] ≠ xs[j]) : j = k := by
  by_contra hne
  exact h (Vector.getElem_set_ne _ _ fun e => hne (Fin.ext e.symm))

/-- Settles O51: each clause is read off the footprint of the command; a `REG_WRITE` changes what its register names. -/
theorem eachStateHasItsWriters : Obligations.EachStateHasItsWriters := by
  refine ⟨fun i s t wrote h hw => ?_, fun s t => return_frame⟩
  cases exec_footprint h with
  | @regRead off r hr => cases r <;> simp [State.afterRead, State.readEffect, hr]
  | @regWrite off v r hr =>
    have hwrote : wrote r := (hw r).2 ⟨off, v, rfl, hr⟩
    cases r with
    | vectAddrN k => simpa using fun j hj => eq_of_set_ne hj ▸ hwrote
    | vectCntlN k => simpa using fun j hj => eq_of_set_ne hj ▸ hwrote
    | _ => simp [hwrote]
  | _ => simp
end Sys2Proof.Machine
end

section
/-!
PROOFS of the engine's slot invariants (10_state R46, R47), slot by slot: what each command of 43_vector_slots makes of a
slot keeps it sound, and no other command touches one.
-/
namespace Sys2Proof.Machine

/-! ## A sound slot -/

/-- 10_state R46 for one slot, `d` the address of the dummy routine. -/
def SlotView.Sound (d : Word) (v : SlotView) : Prop :=
  (v.1 = none → v.2.1 = 0#6 ∧ v.2.2 = d) ∧ ∀ l, v.1 = some l → cntlSource v.2.1 = l ∧ v.2.2 ≠ 0#32

/-- 10_state R46 and R47 together. -/
def State.SlotsSound (s : State) : Prop := s.slotsConsistent ∧ s.slotsDistinct

theorem State.slotsConsistent_iff (s : State) :
    s.slotsConsistent ↔ (∀ k, (s.slot k).Sound s.params.dummyAddr) ∧ s.defVectAddr ≠ 0#32 :=
  ⟨fun ⟨hfree, hbound, hdef⟩ => ⟨fun k => ⟨hfree k, hbound k⟩, hdef⟩,
    fun ⟨hslot, hdef⟩ => ⟨fun k => (hslot k).1, fun k => (hslot k).2, hdef⟩⟩

theorem sound_cleared (d : Word) : SlotView.Sound d (none, 0#6, d) := ⟨fun _ => ⟨rfl, rfl⟩, nofun⟩

theorem sound_bound (d : Word) (l : Line) {r : Word} (hr : r ≠ 0#32) :
    SlotView.Sound d (some l, BitVec.ofNat 6 l.val ||| 0x20#6, r) :=
  ⟨nofun, fun _ hl => ⟨(cntlSource_bound l).trans (Option.some.inj hl), hr⟩⟩

/-- Setting the enable bit of an assigned slot keeps its line field (43_vector_slots R195). -/
theorem SlotView.Sound.enable {d : Word} {l : Line} {c : BitVec 6} {a : Word} (h : SlotView.Sound d (some l, c, a)) :
    SlotView.Sound d (some l, c ||| 0x20#6, a) :=
  ⟨nofun, fun l' hl => by rw [cntlSource_enable]; exact h.2 l' hl⟩

/-- Clearing the enable bit of a slot keeps its line field, and keeps a cleared register cleared (43_vector_slots R199). -/
theorem SlotView.Sound.disable {d : Word} {o : Option Line} {c : BitVec 6} {a : Word} (h : SlotView.Sound d (o, c, a)) :
    SlotView.Sound d (o, c &&& 0x1F#6, a) := by
  refine ⟨fun ho => ?_, fun l hl => by rw [cntlSource_disable]; exact h.2 l hl⟩
  obtain ⟨hc, ha⟩ := h.1 ho
  exact ⟨by rw [show c = 0#6 from hc]; rfl, ha⟩

/-! ## What keeps the slots sound -/

/-- The line a slot is assigned to is the slot's first part. -/
theorem slotLine_of_slot {s : State} {k : Slot} {v : SlotView} (h : s.slot k = v) : s.slotLine[k] = v.1 :=
  congrArg Prod.fst h

/-- A loop over the slots keeps the configuration and the default address. -/
theorem keeps_of_offSlots {s t : State} (h : t.offSlots = s.offSlots) :
    t.params = s.params ∧ t.defVectAddr = s.defVectAddr := by
  rw [(offSlots_eq_iff s t).1 h]
  exact ⟨rfl, rfl⟩

theorem keeps_of_offCntl {s t : State} (h : t.offCntl = s.offCntl) :
    t.params = s.params ∧ t.defVectAddr = s.defVectAddr := by
  rw [(offCntl_eq_iff s t).1 h]
  exact ⟨rfl, rfl⟩

section
variable {s t : State} (hs : s.SlotsSound)
include hs

theorem State.SlotsSound.slot (k : Slot) : (s.slot k).Sound s.params.dummyAddr := ((s.slotsConsistent_iff).1 hs.1).1 k

theorem State.SlotsSound.defVectAddr : s.defVectAddr ≠ 0#32 := ((s.slotsConsistent_iff).1 hs.1).2

/-- Sound slots none of which gained a line are sound together. -/
theorem State.SlotsSound.of_slots (hp : t.params = s.params) (hdef : t.defVectAddr = s.defVectAddr)
    (hslot : ∀ k, (t.slot k).Sound s.params.dummyAddr)
    (hline : ∀ k : Slot, t.slotLine[k] = s.slotLine[k] ∨ t.slotLine[k] = none) : t.SlotsSound := by
  refine ⟨(t.slotsConsistent_iff).2 ⟨by rwa [hp], hdef ▸ hs.defVectAddr⟩, fun j k l hj hk => ?_⟩
  have hbefore : ∀ i : Slot, t.slotLine[i] = some l → s.slotLine[i] = some l := fun i hi =>
    (hline i).elim (fun h => h ▸ hi) (fun h => absurd (h.symm.trans hi) nofun)
  exact hs.2 j k l (hbefore j hj) (hbefore k hk)

/-- A state with the same slots and default address. -/
theorem State.SlotsSound.congr (hp : t.params = s.params) (hdef : t.defVectAddr = s.defVectAddr)
    (hslot : ∀ k, t.slot k = s.slot k) : t.SlotsSound :=
  hs.of_slots hp hdef (fun k => hslot k ▸ hs.slot k) fun k => .inl (slotLine_of_slot (hslot k))

/-- A change of the sources, the observations and the pending moves. -/
theorem State.SlotsSound.of_sameButInputs (h : SameButInputs s t) : t.SlotsSound := by
  obtain ⟨v, tr, ms, rfl⟩ := h
  exact hs

end

/-! ## The commands that touch a slot -/

/-- `INIT` clears every slot and defaults the default address (41_mode_and_init R163). -/
theorem init_slots {s t : State} (h : exec .init s = .next t) : t.params = s.params ∧
    t.defVectAddr = s.params.dummyAddr ∧ ∀ k, t.slot k = (none, 0#6, s.params.dummyAddr) := by
  obtain ⟨nv, hlines⟩ := eq_of_offTable (foldl_initLine_rest (allSlots.foldl initSlot (initRegisters s)))
  obtain ⟨hp, hdef⟩ := keeps_of_offSlots (foldl_initSlot_rest (initRegisters s))
  have hslot := foldl_initSlot_slot (initRegisters s)
  simp only [exec, execInit] at h
  rw [hlines] at h
  generalize allSlots.foldl initSlot (initRegisters s) = u at h hp hdef hslot
  obtain rfl := Host.Outcome.next.inj h
  exact ⟨hp, hdef, hslot⟩

/-- `INIT` establishes the slot invariants from any state (10_state R46). -/
theorem init_slotsSound {s t : State} (hd : s.params.dummyAddr ≠ 0#32) (h : exec .init s = .next t) : t.SlotsSound := by
  obtain ⟨hp, hdef, hslot⟩ := init_slots h
  refine ⟨(t.slotsConsistent_iff).2 ⟨fun k => ?_, by rwa [hdef]⟩, fun j k l hj => ?_⟩
  · rw [hslot, hp]; exact sound_cleared _
  · exact absurd ((slotLine_of_slot (hslot j)).symm.trans hj) nofun

/-- First-fit gives a line the one slot that may already hold it (43_vector_slots R191). -/
theorem allocate_holds {s : State} (hs : s.slotsDistinct) {l : Line} {t : Slot} (h : s.allocate l = some t) (j : Slot)
    (hj : s.slotLine[j] = some l) : j = t := by
  rcases (allocate_eq_some_iff s l t).1 h with ⟨ht, -⟩ | ⟨hnone, -⟩
  · exact hs j t l hj ht
  · exact absurd hj (hnone j)

/-- Binding a slot to a line that no other slot holds (43_vector_slots R191). -/
theorem State.SlotsSound.bindSlot {s : State} (hs : s.SlotsSound) {t : Slot} {l : Line} {r : Word} (hr : r ≠ 0#32)
    (hl : ∀ j : Slot, s.slotLine[j] = some l → j = t) : (s.bindSlot t l r).SlotsSound := by
  have hself := bindSlot_self s t l r
  have hother := fun j h => bindSlot_other s j t l r h
  obtain ⟨hp, hdef⟩ := keeps_of_offSlots (bindSlot_rest s t l r)
  have hline : ∀ (j : Slot) (m : Line), (s.bindSlot t l r).slotLine[j] = some m →
      (j = t ∧ m = l) ∨ (j ≠ t ∧ s.slotLine[j] = some m) := by
    intro j m hj
    by_cases h : j = t
    · subst h
      exact .inl ⟨rfl, Option.some.inj (hj.symm.trans (slotLine_of_slot hself))⟩
    · exact .inr ⟨h, (slotLine_of_slot (hother j h)).symm.trans hj⟩
  refine ⟨(State.slotsConsistent_iff _).2 ⟨fun j => ?_, hdef ▸ hs.defVectAddr⟩, fun j k m hj hk => ?_⟩
  · rw [hp]
    by_cases h : j = t
    · subst h; rw [hself]; exact sound_bound _ l hr
    · rw [hother j h]; exact hs.slot j
  · rcases hline j m hj with ⟨hjt, hml⟩ | ⟨hjt, hj⟩ <;> rcases hline k m hk with ⟨hkt, hml'⟩ | ⟨hkt, hk⟩
    · exact hjt.trans hkt.symm
    · exact absurd (hl k (hml ▸ hk)) hkt
    · exact absurd (hl j (hml' ▸ hj)) hjt
    · exact hs.2 j k m hj hk

section
variable {s : State} (hs : s.SlotsSound)
include hs

/-- Releasing every slot (43_vector_slots R201). -/
theorem State.SlotsSound.releaseAll : (s.forEverySlot State.releaseSlot).SlotsSound := by
  obtain ⟨hp, hdef⟩ := keeps_of_offSlots (forEverySlot_release_rest s)
  have hslot := forEverySlot_release_slot s
  exact hs.of_slots hp hdef (fun k => hslot k ▸ sound_cleared _) fun k => .inr (slotLine_of_slot (hslot k))

/-- Disabling every slot (43_vector_slots R199). -/
theorem State.SlotsSound.disableAll : (s.forEverySlot State.disableSlot).SlotsSound := by
  obtain ⟨hp, hdef⟩ := keeps_of_offCntl (forEverySlot_disable_rest s)
  have hslot := forEverySlot_disable_slot s
  exact hs.of_slots hp hdef (fun k => hslot k ▸ (hs.slot k).disable) fun k => .inl (slotLine_of_slot (hslot k))

/-- Releasing the slots of a line (43_vector_slots R193). -/
theorem State.SlotsSound.releaseLine (l : Line) : (s.forAssigned l State.releaseSlot).SlotsSound := by
  obtain ⟨hp, hdef⟩ := keeps_of_offSlots (forAssigned_release_rest s l)
  have hslot := forAssigned_release_slot s l
  refine hs.of_slots hp hdef (fun k => ?_) fun k => ?_
  · rw [hslot]
    split
    · exact sound_cleared _
    · exact hs.slot k
  · have hk := slotLine_of_slot (hslot k)
    split at hk
    · exact .inr hk
    · exact .inl hk

/-- Enabling the slots of a line (43_vector_slots R195). -/
theorem State.SlotsSound.enableLine (l : Line) : (s.forAssigned l State.enableSlot).SlotsSound := by
  obtain ⟨hp, hdef⟩ := keeps_of_offCntl (forAssigned_enable_rest s l)
  have hslot := forAssigned_enable_slot s l
  refine hs.of_slots hp hdef (fun k => ?_) fun k => .inl ?_
  · rw [hslot]
    split
    · next hl => rw [hl]; exact SlotView.Sound.enable (hl ▸ hs.slot k)
    · exact hs.slot k
  · have hk := slotLine_of_slot (hslot k)
    split at hk <;> exact hk

/-- Disabling the slots of a line (43_vector_slots R197). -/
theorem State.SlotsSound.disableLine (l : Line) : (s.forAssigned l State.disableSlot).SlotsSound := by
  obtain ⟨hp, hdef⟩ := keeps_of_offCntl (forAssigned_disable_rest s l)
  have hslot := forAssigned_disable_slot s l
  refine hs.of_slots hp hdef (fun k => ?_) fun k => .inl ?_
  · rw [hslot]
    split
    · exact (hs.slot k).disable
    · exact hs.slot k
  · have hk := slotLine_of_slot (hslot k)
    split at hk <;> exact hk

/-- A response. -/
theorem State.SlotsSound.respond (v : Word) : (s.respond v).SlotsSound := hs

/-- A raw register write that R46's premise admits. -/
theorem State.SlotsSound.regWrite {off v : Word} {r : Reg} (hr : registerAt s.params.offsets off = some r)
    (hraw : rawSlotWrite s.params (.regWrite off v) = false) : (s.regWrite r v).SlotsSound := by
  simp only [rawSlotWrite, hr] at hraw
  cases r with
  | vectAddrN _ | vectCntlN _ | defVectAddr => exact absurd hraw nofun
  | _ => exact hs

/-- Every command but such a raw write keeps the slot invariants (10_state R46, R47). -/
theorem exec_slotsSound {i : Instr} {t : State} (hd : s.params.dummyAddr ≠ 0#32) (h : exec i s = .next t)
    (hraw : rawSlotWrite s.params i = false) : t.SlotsSound := by
  cases i with
  | init => exact init_slotsSound hd h
  | registerVec line routine =>
    simp only [exec, execRegisterVec] at h
    split at h
    · split at h
      · cases h; exact hs
      · next l _ hnull =>
        split at h
        · next k halloc =>
          cases h
          exact (hs.bindSlot (by simpa [isNull] using hnull) (allocate_holds hs.2 halloc)).respond _
        · cases h; exact hs
    · cases h; exact hs
  | unregisterVec line =>
    simp only [exec, execUnregisterVec] at h
    split at h
    · obtain rfl := Host.Outcome.next.inj h
      exact (hs.releaseLine _).respond _
    · cases h; exact hs
  | enableVec line =>
    simp only [exec, execEnableVec] at h
    split at h
    · obtain rfl := Host.Outcome.next.inj h
      exact (hs.enableLine _).respond _
    · cases h; exact hs
  | disableVec line =>
    simp only [exec, execDisableVec] at h
    split at h
    · obtain rfl := Host.Outcome.next.inj h
      exact (hs.disableLine _).respond _
    · cases h; exact hs
  | disableAllVec =>
    obtain rfl := Host.Outcome.next.inj h
    exact hs.disableAll.respond _
  | unregisterAllVec =>
    obtain rfl := Host.Outcome.next.inj h
    exact hs.releaseAll.respond _
  | setDefaultVec routine =>
    simp only [exec, execSetDefaultVec] at h
    split at h
    · cases h; exact hs
    · next hnull =>
      cases h
      obtain ⟨⟨hfree, hbound, -⟩, hdistinct⟩ := hs
      exact ⟨⟨hfree, hbound, by simpa [isNull] using hnull⟩, hdistinct⟩
  | regRead off =>
    obtain ⟨r, -, -, rfl⟩ := regRead_next h
    exact hs.congr (by simp) (by simp) fun k => by simp [State.slot]
  | regWrite off v =>
    obtain ⟨r, hr, rfl⟩ := regWrite_next h
    exact (hs.regWrite hr hraw).respond _
  | _ => cases exec_footprint h; exact hs

/-- A return touches no slot. -/
theorem return_slotsSound {t : State} (h : routineReturn s = .next t) : t.SlotsSound := by
  rw [return_frame h]; exact hs

end

/-! ## The step -/

/-- Every command leaves no other command in progress than it met. -/
theorem exec_job {i : Instr} {s t : State} (h : exec i s = .next t) : t.job = s.job := by
  cases exec_footprint h <;> simp

theorem return_job {s t : State} (h : routineReturn s = .next t) : t.job = s.job := by
  rw [return_frame h]

/-- A step that is no raw slot write keeps the slot invariants of the settled state: a command, whole or access by access,
leaves what `exec` leaves, and every other move leaves the slots to be left alone (log 3). -/
theorem step_slotsSound {s t : State} (hd : s.params.dummyAddr ≠ 0#32) (hs : s.settled.SlotsSound)
    (h : step s = .next t) (hraw : ∀ i, s.nextCommand = some i → rawSlotWrite s.params i = false) :
    t.settled.SlotsSound := by
  have hfree : ∀ ms, s.job = none → State.SlotsSound { s with moves := ms } := fun ms hj => by
    rw [settled_free hj] at hs; exact hs
  rcases step_next h with ⟨-, rfl⟩ | ⟨cw, rest, i, hm, hj, hcw, hi⟩ | ⟨cw, rest, i, hm, hj, hcw, hi⟩ |
    ⟨rest, j, hm, hj, rfl⟩ | ⟨v, rest, hm, rfl⟩ | ⟨rest, hm, hj, hr⟩
  · exact hs
  · rw [settled_free ((exec_job hi).trans hj)]
    exact exec_slotsSound (hfree rest hj) hd hi (hraw i (by simp [State.nextCommand, hm, hcw]))
  · have hadmitted := hraw i (by simp [State.nextCommand, hm, hcw])
    rcases startInstr_next hi with ⟨rfl, hdisp⟩ | ⟨hne, u, hu, rfl⟩
    · rw [settled_free ((exec_job hdisp).trans hj)]
      exact exec_slotsSound (hfree rest hj) hd hdisp hadmitted
    · rw [settled_start hne hu hj]
      exact exec_slotsSound (hfree rest hj) hd hu hadmitted
  · rw [settled_nextAccess (s := { s with moves := rest }) hj]
    exact hs.of_sameButInputs (settled_sameButInputs ⟨s.rawsrc, s.trace, rest, rfl⟩)
  · exact hs.of_sameButInputs (settled_sameButInputs ⟨v, s.trace, rest, rfl⟩)
  · rw [settled_free ((return_job hr).trans hj)]
    exact return_slotsSound (hfree rest hj) hr

/-- Settles O58: `init_slotsSound` and `step_slotsSound`. -/
theorem engineKeepsTheSlotInvariants : Obligations.EngineKeepsTheSlotInvariants :=
  ⟨fun _ _ hd h => init_slotsSound hd h, fun _ _ hd hcons hdist h hraw => step_slotsSound hd ⟨hcons, hdist⟩ h hraw⟩

end Sys2Proof.Machine
end

section
/-!
PROOFS about the handshake bit `in_service` (10_state R34, R38): a command or a return that does not access `VECTADDR`
commutes with any change of the bit.
-/
namespace Sys2Proof.Machine

/-! ## What does not access `VECTADDR` does not see `in_service` -/

/-- A state with the handshake bit at `b`. -/
def State.setInService (b : Bool) (s : State) : State := { s with inService := b }

/-- An answer with its next state changed. -/
def mapNext (g : State → State) : Result → Result
  | .next t    => .next (g t)
  | .fault f   => .fault f
  | .refused r => .refused r

@[simp] theorem mapNext_next (g : State → State) (t : State) : mapNext g (.next t) = .next (g t) := rfl

section
variable (b : Bool) (s : State)

@[simp] theorem setInService_params : (s.setInService b).params = s.params := rfl

@[simp] theorem respond_setInService (v : Word) : (s.setInService b).respond v = (s.respond v).setInService b := rfl

theorem regWrite_setInService {r : Reg} (h : r ≠ .vectAddr) (v : Word) :
    (s.setInService b).regWrite r v = (s.regWrite r v).setInService b := by
  cases r with
  | vectAddr => exact absurd rfl h
  | _ => rfl

theorem afterRead_setInService {r : Reg} (h : r ≠ .vectAddr) :
    (s.setInService b).afterRead r = (s.afterRead r).setInService b := by
  cases r with
  | vectAddr => exact absurd rfl h
  | _ => rfl

theorem readValue_setInService (r : Reg) : (s.setInService b).readValue r = s.readValue r := by cases r <;> rfl

theorem copyWord_setInService (ph : RelocState) (k : Nat) :
    copyWord ph (s.setInService b) k = (copyWord ph s k).setInService b := rfl

theorem runCopy_setInService : runCopy (s.setInService b) = (runCopy s).setInService b := by
  have hloop := fun (ph : Nat → RelocState) ks =>
    foldl_commutes (State.setInService b) (fun t k => copyWord (ph k) t k)
      (fun t k => copyWord_setInService b t (ph k) k) ks s
  unfold runCopy copyForward copyBackward
  split
  · next h => rw [if_pos (show copiesForward s.params = true from h)]; exact hloop .copyFwd _
  · next h => rw [if_neg (show ¬ copiesForward s.params = true from h)]; exact hloop .copyBwd _

theorem scanFrom_setInService (snap : Word) (start : Nat) :
    scanFrom snap start (s.setInService b) = (scanFrom snap start s).setInService b := by
  unfold scanFrom
  cases nextLine snap start <;> rfl

theorem execInit_setInService : execInit (s.setInService b) = mapNext (State.setInService b) (execInit s) := by
  have hslots := foldl_commutes (State.setInService b) initSlot (fun _ _ => rfl) allSlots (initRegisters s)
  have hlines := foldl_commutes (State.setInService b) initLine (fun _ _ => rfl) allLines
    (allSlots.foldl initSlot (initRegisters s))
  simp only [execInit, show initRegisters (s.setInService b) = (initRegisters s).setInService b from rfl, hslots, hlines]
  generalize allLines.foldl initLine (allSlots.foldl initSlot (initRegisters s)) = u
  rfl

theorem execRelocate_setInService : execRelocate (s.setInService b) = mapNext (State.setInService b) (execRelocate s) := by
  have hcopy : runCopy { s.setInService b with relocState := .check } =
      (runCopy { s with relocState := .check }).setInService b := runCopy_setInService b { s with relocState := .check }
  unfold execRelocate
  rw [hcopy]
  generalize runCopy { s with relocState := .check } = u
  simp only [apply_ite (mapNext (State.setInService b))]
  rfl

theorem releaseSlot_setInService (k : Slot) :
    (s.setInService b).releaseSlot k = (s.releaseSlot k).setInService b := rfl

theorem enableSlot_setInService (k : Slot) : (s.setInService b).enableSlot k = (s.enableSlot k).setInService b := rfl

theorem disableSlot_setInService (k : Slot) : (s.setInService b).disableSlot k = (s.disableSlot k).setInService b := rfl

theorem forAssigned_setInService (l : Line) (f : State → Slot → State)
    (h : ∀ s k, f (s.setInService b) k = (f s k).setInService b) :
    (s.setInService b).forAssigned l f = (s.forAssigned l f).setInService b :=
  forAssigned_commutes (State.setInService b) l f h (fun _ => rfl) s

theorem forEverySlot_setInService (f : State → Slot → State)
    (h : ∀ s k, f (s.setInService b) k = (f s k).setInService b) :
    (s.setInService b).forEverySlot f = (s.forEverySlot f).setInService b :=
  foldl_commutes (State.setInService b) f h allSlots s

/-- The commands of 41_mode_and_init, 42_line_control and 43_vector_slots do not see `in_service`. -/
theorem exec_quiet_setInService {i : Instr} (hq : quietCommand i = true) :
    exec i (s.setInService b) = mapNext (State.setInService b) (exec i s) := by
  cases i with
  | setMode a => simp only [exec, execSetMode]; cases modeOf a <;> rfl
  | init => exact execInit_setInService b s
  | registerNv line routine =>
    simp only [exec, execRegisterNv]
    cases lineOf line with
    | none => rfl
    | some l => cases isNull routine <;> rfl
  | enable line => simp only [exec, execEnable]; cases lineOf line <;> rfl
  | disable line => simp only [exec, execDisable]; cases lineOf line <;> rfl
  | disableAll => rfl
  | isEnabled line => simp only [exec, execIsEnabled]; cases lineOf line <;> rfl
  | getType line => simp only [exec, execGetType]; cases lineOf line <;> rfl
  | setType line kind =>
    simp only [exec, execSetType]
    cases lineOf line with
    | none => rfl
    | some l => cases kindOf kind <;> rfl
  | registerVec line routine =>
    simp only [exec, execRegisterVec]
    cases lineOf line with
    | none => rfl
    | some l =>
      cases isNull routine with
      | true => rfl
      | false =>
        simp only [show (s.setInService b).allocate l = s.allocate l from rfl]
        cases s.allocate l <;> rfl
  | unregisterVec line =>
    simp only [exec, execUnregisterVec]
    cases lineOf line with
    | none => rfl
    | some l => simp [forAssigned_setInService b s l State.releaseSlot (releaseSlot_setInService b)]
  | enableVec line =>
    simp only [exec, execEnableVec]
    cases lineOf line with
    | none => rfl
    | some l =>
      have hfind : (s.setInService b).findSlot l = s.findSlot l := rfl
      simp [forAssigned_setInService b s l State.enableSlot (enableSlot_setInService b), hfind]
  | disableVec line =>
    simp only [exec, execDisableVec]
    cases lineOf line with
    | none => rfl
    | some l => simp [forAssigned_setInService b s l State.disableSlot (disableSlot_setInService b)]
  | disableAllVec =>
    simp [exec, execDisableAllVec, forEverySlot_setInService b s State.disableSlot (disableSlot_setInService b)]
  | unregisterAllVec =>
    simp [exec, execUnregisterAllVec, forEverySlot_setInService b s State.releaseSlot (releaseSlot_setInService b)]
  | setDefaultVec routine => simp only [exec, execSetDefaultVec]; cases isNull routine <;> rfl
  | swiTrigger => rfl
  | swiClear => rfl
  | relocate | dispatch | regRead _ | regWrite _ _ => exact absurd hq nofun

/-- A `REG_READ` of another register does not see `in_service` (45_regfile_access R231). -/
theorem execRegRead_setInService {off : Word} (h : registerAt s.params.offsets off ≠ some .vectAddr) :
    execRegRead off (s.setInService b) = mapNext (State.setInService b) (execRegRead off s) := by
  cases hm : misaligned off with
  | true => simp [execRegRead, hm, mapNext]
  | false =>
    cases hr : registerAt s.params.offsets off with
    | none => simp [execRegRead, hm, hr, mapNext]
    | some r =>
      have hne : r ≠ .vectAddr := fun e => h (by rw [hr, e])
      simp only [execRegRead, hm, setInService_params, hr, State.regRead, hne, false_and, if_false, readValue_setInService,
        afterRead_setInService b s hne]
      rfl

/-- A `REG_WRITE` of another register does not see `in_service` (45_regfile_access R232). -/
theorem execRegWrite_setInService {off v : Word} (h : registerAt s.params.offsets off ≠ some .vectAddr) :
    execRegWrite off v (s.setInService b) = mapNext (State.setInService b) (execRegWrite off v s) := by
  cases hm : misaligned off with
  | true => simp [execRegWrite, hm, mapNext]
  | false =>
    cases hr : registerAt s.params.offsets off with
    | none => simp [execRegWrite, hm, hr, mapNext]
    | some r =>
      have hne : r ≠ .vectAddr := fun e => h (by rw [hr, e])
      simp only [execRegWrite, hm, setInService_params, hr, regWrite_setInService b s hne]
      rfl

/-- A non-vectored `DISPATCH` does not see `in_service` (44_dispatch R212). -/
theorem execDispatch_setInService (h : s.mode = .nonVectored) :
    execDispatch (s.setInService b) = mapNext (State.setInService b) (execDispatch s) := by
  have hmode : (s.setInService b).mode = .nonVectored := h
  have hscan := scanFrom_setInService b (s.afterRead .irqStatus) s.irqStatus 0
  simp only [execDispatch, hmode, h, apply_ite (mapNext (State.setInService b))]
  exact congrArg (fun t => if s.dispBusy = true then Host.Outcome.fault Fault.dispatchReentered else .next t) hscan

end

/-! ## What a command does with the handshake -/

/-- A read or a write of `VECTADDR`. -/
def Event.accessesVectAddr : Event → Bool
  | .regRead .vectAddr _ | .regWrite .vectAddr _ => true
  | _ => false

/-- `es` holds no access of `VECTADDR`, and the command `i` leaves `in_service` as it is and does the same with the other. -/
structure OffHandshake (i : Instr) (s t : State) (es : List Event) : Prop where
  events : ∀ e ∈ es, e.accessesVectAddr = false
  inService : t.inService = s.inService
  other : ∀ b, exec i (s.setInService b) = .next (t.setInService b)

@[simp] theorem accessesVectAddr_response (v : Word) : (Event.response v).accessesVectAddr = false := rfl

theorem accessesVectAddr_mem {e : Event} (h : e.isMemAccess = true) : e.accessesVectAddr = false := by
  cases e with
  | regRead r v | regWrite r v => exact absurd h nofun
  | _ => rfl

theorem accessesVectAddr_regRead {r : Reg} (h : r ≠ .vectAddr) (v : Word) :
    (Event.regRead r v).accessesVectAddr = false := by
  cases r with
  | vectAddr => exact absurd rfl h
  | _ => rfl

theorem accessesVectAddr_regWrite {r : Reg} (h : r ≠ .vectAddr) (v : Word) :
    (Event.regWrite r v).accessesVectAddr = false := by
  cases r with
  | vectAddr => exact absurd rfl h
  | _ => rfl

theorem accessesVectAddr_plain {e : Event} (h : e.isPlainAccess = true) : e.accessesVectAddr = false := by
  cases e with
  | regRead r v => exact accessesVectAddr_regRead (by rintro rfl; exact absurd h nofun) v
  | regWrite r v => exact accessesVectAddr_regWrite (by rintro rfl; exact absurd h nofun) v
  | _ => rfl

theorem regWrite_inService {r : Reg} (h : r ≠ .vectAddr) (s : State) (v : Word) :
    (s.regWrite r v).inService = s.inService := by
  cases r with
  | vectAddr => exact absurd rfl h
  | _ => rfl

/-- The observations of a scan are a response or a call. -/
theorem scanFrom_accesses (snap : Word) (start : Nat) (s : State) : ∃ es : List Event,
    (scanFrom snap start s).trace = s.trace ++ es ∧ (scanFrom snap start s).inService = s.inService ∧
    ∀ e ∈ es, e.accessesVectAddr = false := by
  obtain ⟨es, d, v, hscan, hes⟩ := scanFrom_frame snap start s
  rw [hscan]
  refine ⟨es, rfl, rfl, ?_⟩
  rcases hes with ⟨rfl, -⟩ | ⟨-, i, -, -, rfl, -⟩ <;> simp [Event.accessesVectAddr]

/-- Everything a command can do with the handshake: it accesses no `VECTADDR`, or reads it, or writes it (10_state R38). -/
theorem exec_handshake {i : Instr} {s t : State} (h : exec i s = .next t) : ∃ es : List Event, t.trace = s.trace ++ es ∧
    (OffHandshake i s t es ∨
    (t.inService = true ∧ (∃ v, .regRead .vectAddr v ∈ es) ∧ ∀ v, .regWrite .vectAddr v ∉ es) ∨
    (t.inService = false ∧ (∃ v, .regWrite .vectAddr v ∈ es) ∧ ∀ v, .regRead .vectAddr v ∉ es)) := by
  rcases instr_cases i with hq | rfl | rfl | ⟨off, rfl⟩ | ⟨off, v, rfl⟩
  · have hother := fun b => exec_quiet_setInService b s hq
    obtain ⟨u, v, hu, rfl⟩ := quiet_next hq h
    obtain ⟨es, htr, hplain, -⟩ := hu.trace
    refine ⟨es ++ [.response v], by simp [htr], .inl ⟨?_, hu.inService, fun b => by rw [hother, h, mapNext_next]⟩⟩
    exact List.forall_mem_append.2 ⟨fun e he => accessesVectAddr_plain (hplain e he), by simp⟩
  · obtain ⟨-, -, ht, es, htr, hmem, -⟩ := relocate_next h
    refine ⟨es ++ [.response 0#32], by rw [htr, List.append_assoc], .inl ⟨?_, by rw [ht], fun b => ?_⟩⟩
    · exact List.forall_mem_append.2 ⟨fun e he => accessesVectAddr_mem (hmem e he), by simp⟩
    · exact (execRelocate_setInService b s).trans (congrArg (mapNext (State.setInService b)) h)
  · rcases dispatch_next h with ⟨-, ⟨hmode, ht⟩ | ⟨-, -, rfl⟩⟩
    · obtain ⟨es, htr, hin, hes⟩ := scanFrom_accesses s.irqStatus 0 (s.observe (.regRead .irqStatus s.irqStatus))
      rw [← ht] at htr hin
      refine ⟨.regRead .irqStatus s.irqStatus :: es, by simp [htr],
        .inl ⟨List.forall_mem_cons.2 ⟨rfl, hes⟩, hin, fun b => ?_⟩⟩
      exact (execDispatch_setInService b s hmode).trans (congrArg (mapNext (State.setInService b)) h)
    · exact ⟨_, rfl, .inr (.inl ⟨rfl, ⟨s.curVect, by simp⟩, by simp⟩)⟩
  · obtain ⟨r, hr, -, rfl⟩ := regRead_next h
    refine ⟨[.regRead r (s.readValue r), .response (s.readValue r)], by simp, ?_⟩
    by_cases hv : r = .vectAddr
    · subst hv; exact .inr (.inl ⟨rfl, ⟨_, .head _⟩, by simp⟩)
    · refine .inl ⟨?_, by simp [State.afterRead_inService, hv], fun b => ?_⟩
      · simp [accessesVectAddr_regRead hv]
      · exact (execRegRead_setInService b s (by simpa [hr] using hv)).trans
          (congrArg (mapNext (State.setInService b)) h)
  · obtain ⟨r, hr, rfl⟩ := regWrite_next h
    refine ⟨[.regWrite r v, .response 0#32], by simp, ?_⟩
    by_cases hv : r = .vectAddr
    · subst hv; exact .inr (.inr ⟨rfl, ⟨_, .head _⟩, by simp⟩)
    · refine .inl ⟨?_, regWrite_inService hv s v, fun b => ?_⟩
      · simp [accessesVectAddr_regWrite hv]
      · exact (execRegWrite_setInService b s (by simpa [hr] using hv)).trans
          (congrArg (mapNext (State.setInService b)) h)

/-! ## What a return does with the handshake -/

/-- The return of a vectored `DISPATCH` writes `VECTADDR` (44_dispatch R213). -/
theorem routineReturn_vectored {s : State} (h : s.dispatch = .vectored) : routineReturn s = .next { s with
    inService := false, dispatch := .idle, resp := 0#32,
    trace := s.trace ++ [.ret, .regWrite .vectAddr s.params.eoiSentinel, .response 0#32] } := by
  simp [routineReturn, h, State.regWrite, State.writeEffect, State.observe, State.finishDispatch, State.respond]

/-- The return of a non-vectored `DISPATCH` scans on (44_dispatch R212). -/
theorem routineReturn_nonVectored {s : State} {snap : Word} {i : Line} (h : s.dispatch = .nonVectored snap i) :
    routineReturn s = .next (scanFrom snap (i.val + 1) (s.observe .ret)) := by
  simp [routineReturn, h]

/-- Settles O50: a command by `exec_handshake`, a return by the two lemmas above; the outputs and the multiplexer do not
read the bit. -/
theorem inServiceIsTheHandshake : Obligations.InServiceIsTheHandshake := by
  refine ⟨fun i s t h => ?_, fun s t h => ?_, fun s b => ⟨rfl, rfl, rfl, fun hin => by simp [State.regRead, hin]⟩⟩
  · obtain ⟨es, htr, hcases⟩ := exec_handshake h
    have hdrop : t.trace.drop s.trace.length = es := by rw [htr, List.drop_left]
    rw [hdrop]
    rcases hcases with ⟨hes, hin, hother⟩ | ⟨hin, ⟨v, hread⟩, hwrite⟩ | ⟨hin, ⟨v, hwrite⟩, hread⟩
    · exact ⟨fun ⟨v, hv⟩ => absurd (hes _ hv) nofun, fun ⟨v, hv⟩ => absurd (hes _ hv) nofun, fun _ => ⟨hin, hother⟩⟩
    · exact ⟨fun _ => hin, fun ⟨v, hv⟩ => absurd hv (hwrite v), fun hnone => absurd hread (hnone v).1⟩
    · exact ⟨fun ⟨v, hv⟩ => absurd hv (hread v), fun _ => hin, fun hnone => absurd hwrite (hnone v).2⟩
  · refine ⟨fun hd => ?_, fun hd => ?_⟩
    · cases (routineReturn_vectored hd).symm.trans h
      exact ⟨rfl, fun b => routineReturn_vectored (s := s.setInService b) hd⟩
    · rcases return_next h with ⟨snap, i, hi, rfl⟩ | ⟨hv, -⟩
      · obtain ⟨-, -, hin, -⟩ := scanFrom_accesses snap (i.val + 1) (s.observe .ret)
        refine ⟨hin, fun b => ?_⟩
        exact (routineReturn_nonVectored (s := s.setInService b) hi).trans
          (congrArg Host.Outcome.next (scanFrom_setInService b (s.observe .ret) snap (i.val + 1)))
      · exact absurd hv hd

end Sys2Proof.Machine
end

section
/-!
PROOFS about what the block answers without changing it, and about reset: the multiplexer (10_state R34), the outputs (R25,
R26, R39), the reset values and the invariants at reset (R48, 70_reset_and_hazards R270).
-/
namespace Sys2Proof.Machine

/-! ## The multiplexer -/

/-- A slot matches when its enable bit is 1 and the line in its control register is pending (10_state R34, R37). -/
theorem slotMatches_iff (s : State) (k : Slot) : s.slotMatches k = true ↔ s.vectCntl[k].getLsbD 5 = true ∧
    ((s.rawsrc ||| s.softInt) &&& s.intEnable &&& ~~~s.intSelect).getLsbD
      (s.vectCntl[k].extractLsb' 0 5).toNat = true :=
  Bool.and_eq_true_iff

/-- A first read of `VECTADDR` (10_state R34). -/
theorem regRead_vectAddr {s : State} (h : s.inService = false) : s.regRead .vectAddr =
    .ok (s.curVect, { s with inService := true, trace := s.trace ++ [.regRead .vectAddr s.curVect] }) := by
  simp [State.regRead, h, State.readValue, State.afterRead, State.readEffect, State.observe]

/-- A second read of `VECTADDR` (10_state R34, R38). -/
theorem regRead_vectAddr_twice {s : State} (h : s.inService = true) :
    s.regRead .vectAddr = .error .vectaddrReadTwice := by
  simp [State.regRead, h]

/-- Settles O36: `live` is `slotMatches`, so `curVect_of_lowest` and `curVect_of_none` apply. -/
theorem multiplexerPicksTheLowestMatchingSlot : Obligations.MultiplexerPicksTheLowestMatchingSlot := by
  intro s live hlive
  have hmatch : ∀ k, s.slotMatches k = true ↔ live k := fun k => (slotMatches_iff s k).trans (hlive k).symm
  have hoff : ∀ k, ¬ live k → s.slotMatches k = false := fun k hk =>
    Bool.eq_false_iff.2 fun hm => hk ((hmatch k).1 hm)
  exact ⟨fun k hk hlow => curVect_of_lowest s k ((hmatch k).2 hk) fun j hj => hoff j (hlow j hj),
    fun hnone => curVect_of_none s fun k => hoff k (hnone k), regRead_vectAddr_twice, regRead_vectAddr, fun _ => rfl⟩

/-! ## The outputs -/

theorem irqOut_iff (s : State) : s.irqOut = true ↔ s.irqStatus ≠ 0#32 := decide_eq_true_iff

theorem fiqOut_iff (s : State) : s.fiqOut = true ↔ s.fiqStatus ≠ 0#32 := decide_eq_true_iff

/-- No line is in both status words (10_state R25, R26). -/
theorem irqStatus_and_fiqStatus (s : State) : s.irqStatus &&& s.fiqStatus = 0#32 := by
  by_contra h
  obtain ⟨i, hi⟩ := (word_ne_zero_iff _).1 h
  rw [BitVec.getLsbD_and, irqStatus_getLsbD, fiqStatus_getLsbD] at hi
  simp only [Bool.and_eq_true, Bool.not_eq_true'] at hi
  obtain ⟨⟨-, hirq⟩, -, hfiq⟩ := hi
  exact absurd (hirq.symm.trans hfiq) nofun

/-- Settles O55: an output is 1 when its status word has a bit, and the bits are those of `irqStatus_getLsbD` and
`fiqStatus_getLsbD`. -/
theorem outputsFollowThePendingLines : Obligations.OutputsFollowThePendingLines := by
  intro s
  refine ⟨?_, ?_, irqStatus_and_fiqStatus s, ?_, ?_⟩
  · simp only [irqOut_iff, word_ne_zero_iff, irqStatus_getLsbD, Bool.and_eq_true, Bool.or_eq_true, Bool.not_eq_true',
      and_assoc]
  · simp only [fiqOut_iff, word_ne_zero_iff, fiqStatus_getLsbD, Bool.and_eq_true, Bool.or_eq_true, and_assoc]
  · rintro v rfl
    exact ⟨rfl, irqOut_iff s⟩
  · rintro v rfl
    exact ⟨rfl, fiqOut_iff s⟩

/-! ## Reset -/

/-- Settles O7: the fields of `State.resetWith`, and no move is pending. -/
theorem resetLeavesTheDefinedValues : Obligations.ResetLeavesTheDefinedValues := by
  refine ⟨?_, resetParams, Config.resetDraw, rfl⟩
  rintro p d s rfl
  exact ⟨rfl, fun i => Vector.getElem_replicate i.isLt, rfl, rfl, rfl, rfl, rfl, rfl, rfl, rfl, rfl, rfl, rfl, rfl, rfl,
    rfl, step_idle rfl⟩

/-- Nothing is in progress at reset, and memory is empty (10_state R48; log 8). -/
theorem resetWith_inv (p : Params) (d : ResetDraw) : (State.resetWith p d).Inv :=
  ⟨Memory.wf_nil, fun _ => rfl, rfl, rfl⟩

/-- Every table entry is `DUMMY_ADDR` at reset (10_state R48, 44_dispatch R215). -/
theorem resetWith_tableNonNull {p : Params} (d : ResetDraw) (h : p.dummyAddr ≠ 0#32) :
    (State.resetWith p d).tableNonNull := fun i => by
  rw [show (State.resetWith p d).nvTable[i] = p.dummyAddr from Vector.getElem_replicate i.isLt]
  exact h

/-- `DUMMY_ADDR` of the reset configuration is non-zero, whatever value is drawn for it (00_scope R5; log 5). -/
theorem resetDummyAddr_ne_zero : resetDummyAddr ≠ 0#32 := by
  unfold resetDummyAddr
  split
  · decide
  · assumption

/-- Settles O8: the facts about `State.resetWith`; `State.reset` is one such state, with a non-zero `DUMMY_ADDR`. -/
theorem resetMeetsTheInvariant : Obligations.ResetMeetsTheInvariant :=
  ⟨resetWith_inv, resetWith_inv _ _, fun _ d h => resetWith_tableNonNull d h,
    resetWith_tableNonNull _ resetDummyAddr_ne_zero⟩

end Sys2Proof.Machine
end

section
/-!
PROOFS about system memory and the invariant of every step (20_memory R80, R81, 40_relocator R152, 44_dispatch R212): what
stays off the memory port, and what a command, an access of one, and a return keep.
-/
namespace Sys2Proof.Machine

/-! ## Off the memory port -/

/-- From `s` to `t` memory is left alone and no access of the memory port is observed (00_scope R10). -/
def OffPort (s t : State) : Prop :=
  t.mem = s.mem ∧ ∃ es : List Event, t.trace = s.trace ++ es ∧ ∀ e ∈ es, e.isMemAccess = false

theorem OffPort.trans {s t u : State} (h : OffPort s t) (k : OffPort t u) : OffPort s u := by
  obtain ⟨hmem, es, htr, hes⟩ := h
  obtain ⟨kmem, fs, ktr, hfs⟩ := k
  exact ⟨kmem.trans hmem, es ++ fs, by rw [ktr, htr, List.append_assoc], List.forall_mem_append.2 ⟨hes, hfs⟩⟩

theorem offPort_observe (s : State) {e : Event} (h : e.isMemAccess = false) : OffPort s (s.observe e) :=
  ⟨rfl, [e], rfl, by simpa using h⟩

theorem offPort_respond (s : State) (v : Word) : OffPort s (s.respond v) := offPort_observe s (e := .response v) rfl

theorem offPort_afterRead (s : State) (r : Reg) : OffPort s (s.afterRead r) :=
  ⟨by simp, [.regRead r (s.readValue r)], by simp, by simp [Event.isMemAccess]⟩

theorem offPort_regWrite (s : State) (r : Reg) (v : Word) : OffPort s (s.regWrite r v) :=
  ⟨by simp, [.regWrite r v], by simp, by simp [Event.isMemAccess]⟩

theorem isMemAccess_plain {e : Event} (h : e.isPlainAccess = true) : e.isMemAccess = false := by
  cases e with
  | memRead a v | memWrite a v => exact absurd h nofun
  | _ => rfl

theorem Quiet.offPort {s t : State} (h : Quiet s t) : OffPort s t := by
  obtain ⟨es, htr, hplain, -⟩ := h.trace
  exact ⟨h.mem, es, htr, fun e he => isMemAccess_plain (hplain e he)⟩

/-- A scan calls or responds (44_dispatch R212). -/
theorem offPort_scanFrom (snap : Word) (start : Nat) (s : State) : OffPort s (scanFrom snap start s) := by
  rcases scanFrom_cases snap start s with ⟨i, -, h⟩ | ⟨-, h⟩ <;> rw [h]
  · exact offPort_observe s (e := .call s.nvTable[i]) rfl
  · exact offPort_observe s (e := .response 0#32) rfl

/-- Every command but `RELOCATE` (20_memory R80). -/
theorem exec_offPort {i : Instr} {s t : State} (hi : i ≠ .relocate) (h : exec i s = .next t) : OffPort s t := by
  rcases instr_cases i with hq | rfl | rfl | ⟨off, rfl⟩ | ⟨off, v, rfl⟩
  · obtain ⟨u, v, hu, rfl⟩ := quiet_next hq h
    exact hu.offPort.trans (offPort_respond u v)
  · exact absurd rfl hi
  · rcases dispatch_next h with ⟨-, ⟨-, rfl⟩ | ⟨-, -, rfl⟩⟩
    · exact (offPort_observe s rfl).trans (offPort_scanFrom _ _ _)
    · exact ⟨rfl, _, rfl, by simp [Event.isMemAccess]⟩
  · obtain ⟨r, -, -, rfl⟩ := regRead_next h
    exact (offPort_afterRead s r).trans (offPort_respond _ _)
  · obtain ⟨r, -, rfl⟩ := regWrite_next h
    exact (offPort_regWrite s r v).trans (offPort_respond _ _)

/-- The return of a routine (44_dispatch R212, R213). -/
theorem return_offPort {s t : State} (h : routineReturn s = .next t) : OffPort s t := by
  rcases return_next h with ⟨snap, i, -, rfl⟩ | ⟨-, rfl⟩
  · exact (offPort_observe s rfl).trans (offPort_scanFrom _ _ _)
  · exact ⟨rfl, _, rfl, by simp [Event.isMemAccess]⟩

/-- Settles O52: `exec_offPort` and `return_offPort`. -/
theorem onlyRelocateStores : Obligations.OnlyRelocateStores := by
  intro s t h
  have hoff : OffPort s t := by
    rcases h with ⟨i, hi, h⟩ | h
    · exact exec_offPort hi h
    · exact return_offPort h
  obtain ⟨hmem, hobs⟩ := hoff
  exact ⟨fun a => by rw [State.byteAt, State.byteAt, hmem], hobs⟩

/-! ## The position of a `DISPATCH` -/

/-- A scan stops at a line of its snapshot (44_dispatch R212). -/
theorem positionSound_scanFrom (snap : Word) (start : Nat) (s : State) :
    (scanFrom snap start s).positionSound = true := by
  rcases scanFrom_cases snap start s with ⟨i, hi, h⟩ | ⟨-, h⟩ <;> rw [h]
  · obtain ⟨-, hbit, -⟩ := (nextLine_eq_some snap start i).1 hi
    exact hbit
  · rfl

theorem dispatch_positionSound {s t : State} (h : exec .dispatch s = .next t) : t.positionSound = true := by
  rcases dispatch_next h with ⟨-, ⟨-, rfl⟩ | ⟨-, -, rfl⟩⟩
  · exact positionSound_scanFrom _ _ _
  · rfl

theorem return_positionSound {s t : State} (h : routineReturn s = .next t) : t.positionSound = true := by
  rcases return_next h with ⟨snap, i, -, rfl⟩ | ⟨-, rfl⟩
  · exact positionSound_scanFrom _ _ _
  · rfl

/-! ## A command in progress -/

/-- The accesses to come end with a response, store at aligned addresses, and leave the relocator idle: `State.jobSound` of
one job. -/
def CommandJob.Sound (j : CommandJob) : Prop :=
  (∃ es v, j.todo = es ++ [.response v] ∧ ∀ e ∈ es, e.storesAligned = true) ∧ j.relocState = .idle

/-- A list of observations ends with a response when its last one is one. -/
theorem getLast_isResponse_iff (xs : List Event) :
    xs.getLast?.any Event.isResponse = true ↔ ∃ es v, xs = es ++ [.response v] := by
  constructor
  · intro h
    obtain ⟨e, he, hresp⟩ := (Option.any_eq_true _ _).1 h
    obtain ⟨es, rfl⟩ := List.getLast?_eq_some_iff.1 he
    cases e with
    | response v => exact ⟨es, v, rfl⟩
    | _ => exact absurd hresp nofun
  · rintro ⟨es, v, rfl⟩
    simp [Event.isResponse]

theorem jobSound_iff {s : State} {j : CommandJob} (h : s.job = some j) : s.jobSound = true ↔ j.Sound := by
  simp only [State.jobSound, h, Bool.and_eq_true, decide_eq_true_eq, List.all_eq_true, getLast_isResponse_iff]
  constructor
  · rintro ⟨⟨haligned, es, v, htodo⟩, hidle⟩
    exact ⟨⟨es, v, htodo, fun e he => haligned e (by simp [htodo, he])⟩, hidle⟩
  · rintro ⟨⟨es, v, htodo, haligned⟩, hidle⟩
    refine ⟨⟨?_, es, v, htodo⟩, hidle⟩
    rw [htodo]
    exact List.forall_mem_append.2 ⟨haligned, by simp [Event.storesAligned]⟩

/-- A whole command other than `DISPATCH`, cut into its accesses, is a sound job. -/
theorem jobOf_sound {i : Instr} {s t : State} (hidle : s.relocState = .idle) (hi : i ≠ .dispatch)
    (h : exec i s = .next t) : (jobOf s t).Sound := by
  obtain ⟨es, v, u, rfl, htr, hes, -, -, -, -, hphase, -⟩ := exec_replays hi h
  exact ⟨⟨es, v, by simp [jobOf, htr], fun e he => (hes e he).2⟩, hphase hidle⟩

/-- An aligned word store keeps memory canonical (20_memory R81, R86). -/
theorem memWrite_wf {s : State} {a v : Word} (hwf : Memory.wf s.mem) (ha : a.toNat % 4 = 0) :
    Memory.wf (s.memWrite a v).mem := by
  have hlt := a.isLt
  exact Memory.wf_writeWord _ _ _ hwf (by unfold Memory.size; omega)

/-- An access keeps memory canonical when it stores at an aligned address alone. -/
theorem performEvent_wf (j : CommandJob) {s : State} {e : Event} (hwf : Memory.wf s.mem)
    (he : e.storesAligned = true) : Memory.wf (performEvent j s e).mem := by
  cases e with
  | memWrite a v => exact memWrite_wf hwf (by simpa [Event.storesAligned] using he)
  | regRead r v => rw [performEvent, State.afterRead_mem]; exact hwf
  | regWrite r v => rw [performEvent, State.regWrite_mem]; exact hwf
  | _ => exact hwf

/-- The response of a command in progress leaves no command in progress and the relocator as the job has it. -/
theorem endJob_inv {j : CommandJob} {s : State} (v : Word) (hwf : Memory.wf s.mem) (hpos : s.positionSound = true)
    (hidle : j.relocState = .idle) : (endJob j v s).Inv :=
  ⟨hwf, fun _ => hidle, hpos, rfl⟩

/-- The position depends on the sequencer alone. -/
theorem positionSound_congr {s t : State} (h : t.dispatch = s.dispatch) : t.positionSound = s.positionSound := by
  rw [State.positionSound, State.positionSound, h]

/-- The next access of a sound job: the response ends the command, any other access leaves a sound job. -/
theorem nextAccess_inv {j : CommandJob} {s : State} (hj : j.Sound) (hwf : Memory.wf s.mem)
    (hpos : s.positionSound = true) : (nextAccess j s).Inv := by
  obtain ⟨⟨es, v, htodo, haligned⟩, hidle⟩ := hj
  cases es with
  | nil =>
    rw [nextAccess, htodo]
    exact endJob_inv v hwf hpos hidle
  | cons e es =>
    obtain ⟨he, hes⟩ := List.forall_mem_cons.1 haligned
    rw [nextAccess, htodo]
    cases hresp : e.isResponse with
    | true =>
      cases e with
      | response w => exact endJob_inv w hwf hpos hidle
      | _ => exact absurd hresp nofun
    | false =>
      have hjob := performEvent_job j { s with job := some { j with todo := es ++ [.response v] } } e hresp
      refine ⟨performEvent_wf j hwf he, fun hnone => ?_, ?_, (jobSound_iff hjob).2 ⟨⟨es, v, rfl, hes⟩, hidle⟩⟩
      · exact absurd (hjob.symm.trans hnone) nofun
      · exact (positionSound_congr (performEvent_dispatch j _ e)).trans hpos

/-! ## The step -/

section
variable {s t : State} (hs : s.Inv)
include hs

/-- What changes the sequencer, beside the handshake, the response and the observations, keeps the invariant when it stops
at a sound position. -/
theorem State.Inv.of_sequencer {b : Bool} {d : DispatchState} {v : Word} {tr : List Event}
    (ht : t = { s with inService := b, dispatch := d, resp := v, trace := tr }) (hpos : t.positionSound = true) :
    t.Inv := by
  obtain ⟨hwf, hidle, -, hjob⟩ := hs
  subst ht
  exact ⟨hwf, hidle, hpos, hjob⟩

/-- Every command keeps the invariant. -/
theorem exec_inv {i : Instr} (h : exec i s = .next t) : t.Inv := by
  cases i with
  | relocate =>
    obtain ⟨hwf, -, hpos, hjob⟩ := hs
    obtain ⟨-, hmem, ht, -⟩ := relocate_next h
    rw [ht]
    exact ⟨hmem hwf, fun _ => rfl, hpos, hjob⟩
  | dispatch =>
    obtain ⟨b, d, tr, v, ht⟩ := dispatch_frame h
    exact hs.of_sequencer ht (dispatch_positionSound h)
  | _ => cases exec_footprint h; exact hs.congr (by simp) (by simp) (by simp) (by simp)

theorem return_inv (h : routineReturn s = .next t) : t.Inv :=
  hs.of_sequencer (return_frame h) (return_positionSound h)

/-- The first access of a command keeps the invariant, as a whole `DISPATCH` does. -/
theorem startInstr_inv {i : Instr} (hfree : s.job = none) (h : startInstr i s = .next t) : t.Inv := by
  rcases startInstr_next h with ⟨rfl, hdisp⟩ | ⟨hi, u, hu, rfl⟩
  · exact exec_inv hs hdisp
  · obtain ⟨hwf, hidle, hpos, -⟩ := hs
    exact nextAccess_inv (jobOf_sound (hidle hfree) hi hu) hwf hpos

end

/-- Settles O57: each move of `step_next` keeps the invariant, by `exec_inv`, `startInstr_inv`, `nextAccess_inv` and
`return_inv`. -/
theorem stepKeepsTheInvariant : Obligations.StepKeepsTheInvariant := by
  intro s t hs h
  have taken : ∀ rest, State.Inv { s with moves := rest } := fun _ => hs.congr rfl rfl rfl rfl
  rcases step_next h with ⟨-, rfl⟩ | ⟨cw, rest, i, -, -, -, hi⟩ | ⟨cw, rest, i, -, hfree, -, hi⟩ |
    ⟨rest, j, -, hj, rfl⟩ | ⟨v, rest, -, rfl⟩ | ⟨rest, -, -, hr⟩
  · exact hs
  · exact exec_inv (taken rest) hi
  · exact startInstr_inv (taken rest) hfree hi
  · obtain ⟨hwf, -, hpos, hjob⟩ := hs
    exact nextAccess_inv ((jobSound_iff hj).1 hjob) hwf hpos
  · exact hs.congr rfl rfl rfl rfl
  · exact return_inv (taken rest) hr

end Sys2Proof.Machine
end

section
/-!
PROOFS about the encoding (30_encoding R110 to R118): the decoder answers a command exactly when the word holds its
opcode and the operands it uses, and rejects the reserved opcodes by name.
-/
namespace Sys2Proof.Machine

/-! ## The decoder's table (30_encoding R112) -/

theorem opcode_lt (i : Instr) : i.opcode.toNat < 0x16 := by cases i <;> simp [Instr.opcode]

/-- The fields `a` and `b` hold the operands of the command; a field it does not use may hold anything (30_encoding
R111). -/
structure ReadsFrom (i : Instr) (a b : Word) : Prop where
  operandA : i.usesA = true → a = i.operandA
  operandB : i.usesB = true → b = i.operandB

/-- A command's opcode and the operands it uses decode to it, whatever an unused field holds. -/
theorem decodeFields_opcode {i : Instr} {a b : Word} (h : ReadsFrom i a b) : decodeFields i.opcode a b = .ok i := by
  obtain ⟨ha, hb⟩ := h
  cases i with
  | relocate | init | disableAll | disableAllVec | unregisterAllVec | swiTrigger | swiClear | dispatch => rfl
  | setMode | enable | disable | isEnabled | getType | unregisterVec | enableVec | disableVec | regRead =>
    cases ha rfl; rfl
  | registerNv | setType | registerVec | regWrite => cases ha rfl; cases hb rfl; rfl
  | setDefaultVec => cases hb rfl; rfl

/-- The decoder's two answers: a command with that opcode, read from the fields, or a reserved opcode (R112, R117). -/
theorem decodeFields_cases (op : BitVec 8) (a b : Word) :
    (∃ i, decodeFields op a b = .ok i ∧ op = i.opcode ∧ ReadsFrom i a b) ∨
    (0x16 ≤ op.toNat ∧ decodeFields op a b = .error (.illegalOpcode op)) := by
  unfold decodeFields
  split
  case h_23 => exact .inr ⟨by grind, rfl⟩
  all_goals
    next hop =>
      exact .inl ⟨_, rfl, BitVec.eq_of_toNat_eq hop, by simp [Instr.usesA, Instr.operandA],
        by simp [Instr.usesB, Instr.operandB]⟩

/-! ## The fields of a word (30_encoding R110) -/

theorem packFields_fields (cw : CommandWord) : packFields (opField cw) (aField cw) (bField cw) = cw := by
  simp only [packFields, opField, aField, bField]
  ext i hi
  grind

theorem packFields_and (op op' : BitVec 8) (a b a' b' : Word) :
    packFields op a b &&& packFields op' a' b' = packFields (op &&& op') (a &&& a') (b &&& b') :=
  BitVec.and_append.trans (congrArg (· ++ (b &&& b')) BitVec.and_append)

/-- The mask of 30_encoding R111 keeps the opcode field alone. -/
theorem and_opMask (cw : CommandWord) : cw &&& opMask = packFields (opField cw) 0#32 0#32 :=
  calc cw &&& opMask = packFields (opField cw) (aField cw) (bField cw) &&& packFields (BitVec.allOnes 8) 0#32 0#32 := by
        rw [packFields_fields]; rfl
    _ = packFields (opField cw) 0#32 0#32 := by
        rw [packFields_and, BitVec.and_allOnes, BitVec.and_zero, BitVec.and_zero]

theorem opField_of_and_opMask {cw : CommandWord} {op : BitVec 8} (h : cw &&& opMask = packFields op 0#32 0#32) :
    opField cw = op := by
  rw [and_opMask] at h
  simpa only [opField_packFields] using congrArg opField h

/-! ## Decoding a word -/

theorem decode_packFields (op : BitVec 8) (a b : Word) : decode (packFields op a b) = decodeFields op a b := by
  rw [decode, opField_packFields, aField_packFields, bField_packFields]

/-- A word decodes to a command exactly when it holds its opcode and the operands it uses (30_encoding R111). -/
theorem decode_eq_ok_iff {cw : CommandWord} {i : Instr} :
    decode cw = .ok i ↔ opField cw = i.opcode ∧ ReadsFrom i (aField cw) (bField cw) := by
  constructor
  · intro h
    rcases decodeFields_cases (opField cw) (aField cw) (bField cw) with ⟨j, hj, hop, hreads⟩ | ⟨-, herr⟩
    · cases hj.symm.trans h
      exact ⟨hop, hreads⟩
    · exact nomatch herr.symm.trans h
  · rintro ⟨hop, hreads⟩
    rw [decode, hop]
    exact decodeFields_opcode hreads

/-- A word decodes to no command exactly when its opcode is reserved (30_encoding R117). -/
theorem decode_eq_error_iff {cw : CommandWord} :
    decode cw = .error (.illegalOpcode (opField cw)) ↔ 0x16 ≤ (opField cw).toNat := by
  rcases decodeFields_cases (opField cw) (aField cw) (bField cw) with ⟨i, hi, hop, -⟩ | ⟨hge, herr⟩
  · have hlt : (opField cw).toNat < 0x16 := hop ▸ opcode_lt i
    exact ⟨fun h => (nomatch hi.symm.trans h), fun hge => absurd hlt (Nat.not_lt.2 hge)⟩
  · exact ⟨fun _ => hge, fun _ => herr⟩

theorem exists_decode_eq_ok {cw : CommandWord} (h : (opField cw).toNat < 0x16) : ∃ i, decode cw = .ok i := by
  rcases decodeFields_cases (opField cw) (aField cw) (bField cw) with ⟨i, hi, -⟩ | ⟨hge, -⟩
  · exact ⟨i, hi⟩
  · omega

/-- Settles O1: the decoder evaluated on the nine words. -/
theorem writtenOutWordsDecode : Obligations.WrittenOutWordsDecode := by
  unfold Obligations.WrittenOutWordsDecode
  decide

/-- Settles O2: the encoding holds the command's opcode and operands in its fields. -/
theorem decodeOfEncodeIsTheCommand : Obligations.DecodeOfEncodeIsTheCommand := by
  intro i
  rw [encode, decode_packFields]
  exact decodeFields_opcode ⟨fun _ => rfl, fun _ => rfl⟩

/-- Settles O3: by `decode_eq_ok_iff`, the mask keeps the opcode field, and the used fields are all that is read. -/
theorem opcodeAloneSelectsTheCommand : Obligations.OpcodeAloneSelectsTheCommand := by
  intro cw i h
  obtain ⟨hop, ha, hb⟩ := decode_eq_ok_iff.1 h
  refine ⟨by rw [and_opMask, hop], fun cw' hmask hsameA hsameB => ?_⟩
  have hreads : ReadsFrom i (aField cw') (bField cw') :=
    ⟨fun hu => (hsameA hu).trans (ha hu), fun hu => (hsameB hu).trans (hb hu)⟩
  exact decode_eq_ok_iff.2 ⟨opField_of_and_opMask hmask, hreads⟩

/-- A reserved word presented with the block free is refused, to be run whole or access by access (30_encoding R117). -/
theorem step_illegalOpcode {s : State} {cw : CommandWord} {rest : List Move} {op : BitVec 8} (hj : s.job = none)
    (hm : s.moves = .present cw :: rest ∨ s.moves = .start cw :: rest) (hd : decode cw = .error (.illegalOpcode op)) :
    step s = .refused (.illegalOpcode op) := by
  rcases hm with hm | hm
  · rw [step_present hm, acceptCommand, hd]
    exact whenFree_free _ hj
  · rw [step_start hm, startCommand, hd]
    exact whenFree_free _ hj

/-- Settles O4: the decoder by the two lemmas on its answers, the machine by `step_illegalOpcode`. -/
theorem reservedOpcodesAreRefused : Obligations.ReservedOpcodesAreRefused :=
  fun _ => ⟨decode_eq_error_iff.symm, exists_decode_eq_ok,
    fun _ _ hj hm hop => step_illegalOpcode hj hm (decode_eq_error_iff.2 hop)⟩

end Sys2Proof.Machine
end

section
/-!
PROOFS about the response of a command (30_encoding R116): one response, the last observation, unless the command is a
`DISPATCH` that waits for a routine.
-/
namespace Sys2Proof.Machine

/-- `t` follows `s` by accesses and one response, its last observation and what `RESP` holds (30_encoding R116). -/
def Responded (s t : State) : Prop :=
  ∃ es : List Event, t.trace = s.trace ++ es ++ [.response t.resp] ∧ ∀ e ∈ es, e.isResponse = false

/-- `t` follows `s` with no response, and `RESP` as it was. -/
def Unanswered (s t : State) : Prop :=
  ∃ es : List Event, t.trace = s.trace ++ es ∧ t.resp = s.resp ∧ ∀ e ∈ es, e.isResponse = false

/-- Every command but `DISPATCH` answers in the step that runs it. -/
theorem exec_responded {i : Instr} {s t : State} (hi : i ≠ .dispatch) (h : exec i s = .next t) : Responded s t := by
  obtain ⟨es, v, u, rfl, htrace, hes, -⟩ := exec_replays hi h
  exact ⟨es, by simp [htrace], fun e he => (hes e he).1⟩

theorem Responded.of_observe {s t : State} {e : Event} (he : e.isResponse = false) (h : Responded (s.observe e) t) :
    Responded s t := by
  obtain ⟨es, htrace, hes⟩ := h
  exact ⟨e :: es, by simp [htrace], List.forall_mem_cons.2 ⟨he, hes⟩⟩

theorem Unanswered.of_observe {s t : State} {e : Event} (he : e.isResponse = false) (h : Unanswered (s.observe e) t) :
    Unanswered s t := by
  obtain ⟨es, htrace, hresp, hes⟩ := h
  exact ⟨e :: es, by simp [htrace], hresp, List.forall_mem_cons.2 ⟨he, hes⟩⟩

/-- A scan answers when it is over, and not while it waits for a routine (44_dispatch R212, R216). -/
theorem scanFrom_responded_or_waits (snap : Word) (start : Nat) (s : State) :
    ((scanFrom snap start s).dispBusy = false ∧ Responded s (scanFrom snap start s)) ∨
    ((scanFrom snap start s).dispBusy = true ∧ Unanswered s (scanFrom snap start s)) := by
  obtain ⟨es, d, v, hscan, ⟨rfl, -, rfl⟩ | ⟨rfl, i, -, -, rfl, rfl⟩⟩ := scanFrom_frame snap start s
  · exact .inl (by rw [hscan]; exact ⟨rfl, [], by simp, nofun⟩)
  · exact .inr (by rw [hscan]; exact ⟨rfl, [.call s.nvTable[i]], rfl, rfl, by simp [Event.isResponse]⟩)

/-- `DISPATCH` answers when it is over, and not while it waits for a routine (44_dispatch R211, R216). -/
theorem dispatch_responded_or_waits {s t : State} (h : exec .dispatch s = .next t) :
    (t.dispBusy = false ∧ Responded s t) ∨ (t.dispBusy = true ∧ Unanswered s t) := by
  rcases dispatch_next h with ⟨-, ⟨-, rfl⟩ | ⟨-, -, rfl⟩⟩
  · exact (scanFrom_responded_or_waits _ _ _).imp (.imp_right (.of_observe rfl)) (.imp_right (.of_observe rfl))
  · exact .inr ⟨rfl, _, rfl, rfl, by simp [Event.isResponse]⟩

/-- Settles O54: a `DISPATCH` by its two ends, any other command by its replay. -/
theorem oneResponsePerCommand : Obligations.OneResponsePerCommand := by
  intro i s t h
  by_cases hi : i = .dispatch
  · subst hi
    rcases dispatch_responded_or_waits h with ⟨hfree, hover⟩ | ⟨hbusy, hwaits⟩
    · exact ⟨fun _ => hover, fun _ hbusy => absurd hbusy (by simp [hfree])⟩
    · exact ⟨fun hor => absurd hor (by simp [hbusy]), fun _ _ => hwaits⟩
  · exact ⟨fun _ => exec_responded hi h, fun hd => absurd hd hi⟩

end Sys2Proof.Machine
end

section
/-!
PROOFS about `RELOCATE` (40_relocator R141 to R154): its verdicts in the order of its tests, what a copy reads and leaves, and
that it completes once.
-/
namespace Sys2Proof.Machine

/-! ## The verdicts (40_relocator R141) -/

section
variable {s : State}

theorem relocate_inHandler (h : s.dispBusy = true) : exec .relocate s = .fault .relocateInHandler := by
  simp [exec, execRelocate, h]

theorem relocate_twice (hfree : s.dispBusy = false) (hdone : s.relocDone = true) :
    exec .relocate s = .fault .relocateTwice := by
  simp [exec, execRelocate, hfree, hdone]

theorem relocate_misaligned (hfree : s.dispBusy = false) (hdone : s.relocDone = false) (h : ¬ relocAligned s.params) :
    exec .relocate s = .fault .relocMisaligned := by
  simp [exec, execRelocate, hfree, hdone, (relocMisaligned_iff _).2 h]

/-- Past the first three tests: the two no-ops, the register block, the copy. -/
theorem relocate_ready (h : s.relocReady) : exec .relocate s =
    if copySkipped s.params then .next (finishRelocate s)
    else if copyHitsVic s.params then .fault .relocHitsVic
    else .next (finishRelocate (runCopy { s with relocState := .check })) := by
  obtain ⟨hidle, hdone, haligned⟩ := h
  have hal : ¬ relocMisaligned s.params = true := by simpa only [relocMisaligned_iff, not_not] using haligned
  simp only [exec, execRelocate, (dispBusy_eq_false s).2 hidle, hdone, hal, Bool.false_eq_true, if_false]

theorem relocate_noOp (hr : s.relocReady) (hn : relocNoOp s.params) : exec .relocate s = .next (finishRelocate s) := by
  rw [relocate_ready hr, if_pos ((copySkipped_iff _).2 hn)]

theorem relocate_hitsVic (hr : s.relocReady) (hn : ¬ relocNoOp s.params) (hv : relocMeetsVic s.params) :
    exec .relocate s = .fault .relocHitsVic := by
  rw [relocate_ready hr, if_neg ((copySkipped_iff _).not.2 hn), if_pos ((copyHitsVic_iff _).2 hv)]

theorem relocate_copies (hr : s.relocReady) (hn : ¬ relocNoOp s.params) (hv : ¬ relocMeetsVic s.params) :
    exec .relocate s = .next (finishRelocate (runCopy { s with relocState := .check })) := by
  rw [relocate_ready hr, if_neg ((copySkipped_iff _).not.2 hn), if_neg ((copyHitsVic_iff _).not.2 hv)]

theorem relocate_completes (hr : s.relocReady) (h : relocNoOp s.params ∨ ¬ relocMeetsVic s.params) :
    ∃ t : State, exec .relocate s = .next t := by
  by_cases hn : relocNoOp s.params
  · exact ⟨_, relocate_noOp hr hn⟩
  · exact ⟨_, relocate_copies hr hn (h.resolve_left hn)⟩

end

/-- Settles O44: one lemma per verdict; a `RELOCATE` that completes changes what `relocate_next` says. -/
theorem relocateVerdictsInOrder : Obligations.RelocateVerdictsInOrder := by
  refine ⟨fun a b => decode_packFields _ a b, fun s => ⟨relocate_inHandler, relocate_twice, relocate_misaligned,
    relocate_hitsVic, fun hr h => ?_⟩⟩
  obtain ⟨t, ht⟩ := relocate_completes hr h
  obtain ⟨-, -, hrest, -⟩ := relocate_next ht
  exact ⟨t, ht, hrest⟩

/-- Settles O45: a no-op is `finishRelocate` alone; the end of an accepted destination range is a multiple of 4 below
`2 ^ 32` (`copy_bounds`). -/
theorem relocateNoOpCases : Obligations.RelocateNoOpCases := by
  intro s hr
  have hdst := s.params.dstStart.isLt
  refine ⟨relocate_noOp hr, by omega, fun hn => ?_⟩
  obtain ⟨hdst4, -, hlen4, hend, -⟩ := copy_bounds hr hn
  omega

/-! ## The copy (40_relocator R145 to R148) -/

@[simp] theorem finishRelocate_wordAt (s : State) (a : Nat) : (finishRelocate s).wordAt a = s.wordAt a := rfl

@[simp] theorem finishRelocate_byteAt (s : State) (a : Nat) : (finishRelocate s).byteAt a = s.byteAt a := rfl

@[simp] theorem finishRelocate_trace (s : State) : (finishRelocate s).trace = s.trace ++ [.response 0#32] := rfl

/-- Settles O46: the words and bytes by `runCopy_spec`, the rest of the state by `relocate_next`. -/
theorem relocateCopiesTheBlock : Obligations.RelocateCopiesTheBlock := by
  intro s hw hr hn hv
  have hexec := relocate_copies hr hn hv
  obtain ⟨hcopied, -, -⟩ := runCopy_spec (s := { s with relocState := .check }) hw hr hn
  obtain ⟨-, hwf, hrest, -⟩ := relocate_next hexec
  obtain ⟨-, -, hlen4, -⟩ := copy_bounds hr hn
  refine ⟨_, hexec, hwf hw, fun k hk => ?_, fun a ha => ?_, hrest⟩
  · rw [finishRelocate_wordAt]
    exact hcopied.words k (Nat.zero_le k) (by dsimp only; omega)
  · rw [finishRelocate_byteAt]
    exact hcopied.bytes a (by dsimp only; omega)

/-- Settles O47: the two directions of `runCopy_spec`, then the response. -/
theorem relocateAccessesInOrder : Obligations.RelocateAccessesInOrder := by
  intro s hw hr hn hv
  have hexec := relocate_copies hr hn hv
  obtain ⟨-, hforward, hbackward⟩ := runCopy_spec (s := { s with relocState := .check }) hw hr hn
  refine ⟨fun hdir => ⟨_, hexec, ?_⟩, fun ⟨hlo, hhi⟩ => ⟨_, hexec, ?_⟩⟩
  · rw [finishRelocate_trace, hforward hdir]; rfl
  · rw [finishRelocate_trace, hbackward hlo hhi]; rfl

/-! ## `reloc_done` (40_relocator R150, 10_state R43) -/

section
variable {s t : State} (hdone : s.relocDone = true)
include hdone

theorem exec_keeps_relocDone {i : Instr} (h : exec i s = .next t) : t.relocDone = true := by
  by_cases hi : i = .dispatch
  · subst hi
    obtain ⟨b, d, tr, v, rfl⟩ := dispatch_frame h
    exact hdone
  · obtain ⟨-, v, u, rfl, -, -, -, -, -, hkept, -⟩ := exec_replays hi h
    simpa [hdone] using hkept.symm

theorem nextAccess_keeps_relocDone (j : CommandJob) : (nextAccess j s).relocDone = true := by
  obtain ⟨-, -, hkept | hset, -⟩ := nextAccess_frame j s
  · exact hkept.trans hdone
  · rw [hset, hdone, Bool.true_or]

theorem startInstr_keeps_relocDone {i : Instr} (h : startInstr i s = .next t) : t.relocDone = true := by
  rcases startInstr_next h with ⟨-, hdispatch⟩ | ⟨-, u, -, rfl⟩
  · exact exec_keeps_relocDone hdone hdispatch
  · exact nextAccess_keeps_relocDone hdone _

theorem return_keeps_relocDone (h : routineReturn s = .next t) : t.relocDone = true := by
  rw [return_frame h]; exact hdone

theorem step_keeps_relocDone (h : step s = .next t) : t.relocDone = true := by
  have taken : ∀ rest, State.relocDone { s with moves := rest } = true := fun _ => hdone
  rcases step_next h with ⟨-, rfl⟩ | ⟨cw, rest, i, -, -, -, hi⟩ | ⟨cw, rest, i, -, -, -, hi⟩ |
    ⟨rest, j, -, -, rfl⟩ | ⟨v, rest, -, rfl⟩ | ⟨rest, -, -, hret⟩
  · exact hdone
  · exact exec_keeps_relocDone (taken rest) hi
  · exact startInstr_keeps_relocDone (taken rest) hi
  · exact nextAccess_keeps_relocDone (taken rest) j
  · exact hdone
  · exact return_keeps_relocDone (taken rest) hret

end

/-- A `RELOCATE` that completes leaves `reloc_done` set and the sequencer idle, as it was (40_relocator R141, R150). -/
theorem relocate_sets_relocDone {s t : State} (h : exec .relocate s = .next t) :
    t.relocDone = true ∧ t.dispBusy = false := by
  obtain ⟨⟨hidle, -, -⟩, -, hrest, -⟩ := relocate_next h
  rw [hrest]
  exact ⟨rfl, (dispBusy_eq_false _).2 hidle⟩

/-- Settles O48: by `relocate_sets_relocDone`, `relocate_twice` and `step_keeps_relocDone`. -/
theorem relocateOnlyOnce : Obligations.RelocateOnlyOnce := by
  refine ⟨fun s t h => ?_, fun s hdone hfree => relocate_twice hfree hdone,
    fun s t hdone h => step_keeps_relocDone hdone h⟩
  obtain ⟨hdone, hfree⟩ := relocate_sets_relocDone h
  exact ⟨hdone, relocate_twice hfree hdone⟩

end Sys2Proof.Machine
end

section
/-!
PROOFS about `SET_MODE` and `INIT` (41_mode_and_init R161 to R164): the whole next state of each.
-/
namespace Sys2Proof.Machine

/-! ## `SET_MODE` (R161) -/

theorem exec_setMode_of_some {a : Word} {m : Mode} (h : modeOf a = some m) (s : State) :
    exec (.setMode a) s = .next ({ s with mode := m }.respond 0#32) := by
  simp only [exec, execSetMode, h]

theorem exec_setMode_of_none {a : Word} (h : modeOf a = none) (s : State) :
    exec (.setMode a) s = .next (s.respond 0#32) := by
  simp only [exec, execSetMode, h]

/-- Settles O9: the opcode's row of the decoder's table, and the operand's three cases by `modeOf`. -/
theorem setModeSelectsTheMode : Obligations.SetModeSelectsTheMode := by
  intro a s
  refine ⟨fun b => ?_, ?_, ?_, fun ha => exec_setMode_of_none (modeOf_eq_none ha) s⟩
  · rw [decode_packFields]
    exact decodeFields_opcode (i := .setMode a) ⟨fun _ => rfl, nofun⟩
  · rintro rfl
    exact exec_setMode_of_some (m := .nonVectored) rfl s
  · rintro rfl
    exact exec_setMode_of_some (m := .vectored) rfl s

/-! ## `INIT` (R163, R164) -/

/-- The state after `INIT`. -/
def State.afterInit (s : State) : State :=
  { s with
    intSelect := 0#32, intEnable := 0#32, softInt := 0#32, defVectAddr := s.params.dummyAddr,
    vectCntl := Vector.replicate 16 0#6, vectAddr := Vector.replicate 16 s.params.dummyAddr,
    slotLine := Vector.replicate 16 none, nvTable := Vector.replicate 32 s.params.dummyAddr, mode := .nonVectored,
    resp := 0#32, trace := s.trace ++ initTrace s.params ++ [.response 0#32] }

theorem initRegisters_eq (s : State) : initRegisters s = { s with
    intSelect := 0#32, intEnable := 0#32, softInt := 0#32, defVectAddr := s.params.dummyAddr,
    trace := s.trace ++ [.regWrite .intSelect 0#32, .regWrite .intEnClear 0xFFFFFFFF#32,
      .regWrite .softIntClear 0xFFFFFFFF#32, .regWrite .defVectAddr s.params.dummyAddr] } := by
  simp [initRegisters, State.regWrite, State.writeEffect, State.observe]

theorem foldl_initSlot_eq (s : State) : allSlots.foldl initSlot s = { s with
    slotLine := Vector.replicate 16 none, vectCntl := Vector.replicate 16 0#6,
    vectAddr := Vector.replicate 16 s.params.dummyAddr,
    trace := s.trace ++ allSlots.flatMap (clearSlotTrace s.params) } := by
  have hslot := foldl_initSlot_slot s
  have htrace := foldl_initSlot_trace s
  have hrest := (offSlots_eq_iff _ _).1 (foldl_initSlot_rest s)
  generalize allSlots.foldl initSlot s = u at hslot htrace hrest
  have hline : u.slotLine = Vector.replicate 16 none :=
    Vector.ext fun k hk => by simpa [State.slot] using congrArg Prod.fst (hslot ⟨k, hk⟩)
  have hcntl : u.vectCntl = Vector.replicate 16 0#6 :=
    Vector.ext fun k hk => by simpa [State.slot] using congrArg (·.2.1) (hslot ⟨k, hk⟩)
  have haddr : u.vectAddr = Vector.replicate 16 s.params.dummyAddr :=
    Vector.ext fun k hk => by simpa [State.slot] using congrArg (·.2.2) (hslot ⟨k, hk⟩)
  rw [hrest, hline, hcntl, haddr, htrace]
  rfl

theorem foldl_initLine_eq (s : State) :
    allLines.foldl initLine s = { s with nvTable := Vector.replicate 32 s.params.dummyAddr } := by
  have htable : (allLines.foldl initLine s).nvTable = Vector.replicate 32 s.params.dummyAddr :=
    Vector.ext fun i hi => by simpa [mem_allLines] using foldl_initLine allLines s ⟨i, hi⟩
  rw [(offTable_eq_iff _ _).1 (foldl_initLine_rest s), htable]

/-- `INIT` completes in every state, and what it leaves (41_mode_and_init R163). -/
theorem exec_init (s : State) : exec .init s = .next s.afterInit := by
  simp [exec, execInit, initRegisters_eq, foldl_initSlot_eq, foldl_initLine_eq, State.respond, State.observe,
    State.afterInit, initTrace]

section
variable (s : State)

@[simp] theorem afterInit_irqStatus : s.afterInit.irqStatus = 0#32 := by
  simp [State.irqStatus, State.afterInit]

@[simp] theorem afterInit_fiqStatus : s.afterInit.fiqStatus = 0#32 := by
  simp [State.fiqStatus, State.afterInit]

@[simp] theorem afterInit_rawIntr : s.afterInit.rawIntr = s.rawsrc := by
  simp [State.rawIntr, State.afterInit]

/-- No slot is enabled after `INIT`, so the multiplexer gives the default address (10_state R34). -/
theorem afterInit_curVect : s.afterInit.curVect = s.params.dummyAddr :=
  curVect_of_none s.afterInit fun k => by simp [State.slotMatches, State.afterInit, cntlEnabled]

end

/-- Four single writes and two for each slot (41_mode_and_init R163). -/
theorem initTrace_length (p : Params) : (initTrace p).length = 36 := by
  simp [initTrace, clearSlotTrace, allSlots]

/-- Settles O10: `exec_init` gives the whole state, and the derived outputs are read off it. -/
theorem initSetsTheDefaults : Obligations.InitSetsTheDefaults := by
  refine ⟨fun a b => ?_, fun s => ⟨s.afterInit, exec_init s, rfl, rfl, rfl, rfl, fun k => ?_, fun i => ?_, rfl,
    afterInit_irqStatus s, afterInit_fiqStatus s, ?_, ?_, afterInit_rawIntr s, afterInit_curVect s,
    initTrace_length s.params, rfl⟩⟩
  · rw [decode_packFields]
    exact decodeFields_opcode (i := .init) ⟨nofun, nofun⟩
  · simp [State.afterInit]
  · simp [State.afterInit]
  · simp [State.irqOut]
  · simp [State.fiqOut]

/-- Settles O11: `exec_init` twice; what `afterInit` sets does not depend on what it overwrites. -/
theorem initIsIdempotent : Obligations.InitIsIdempotent :=
  fun s => ⟨s.afterInit, s.afterInit.afterInit, exec_init s, exec_init s.afterInit, rfl, rfl⟩

end Sys2Proof.Machine
end

section
/-!
PROOFS about the mode (41_mode_and_init R160): the commands that set it, what a step leaves of it, and that every other
command, the return of a routine and the multiplexer commute with any change of it.
-/
namespace Sys2Proof.Machine

/-! ## Who sets the mode -/

/-- A command other than `INIT` and `SET_MODE` leaves the mode. -/
theorem exec_mode {i : Instr} {s t : State} (hinit : i ≠ .init) (hset : ∀ a, i ≠ .setMode a)
    (h : exec i s = .next t) : t.mode = s.mode := by
  cases exec_footprint h with
  | init => exact absurd rfl hinit
  | setMode => exact absurd rfl (hset _)
  | _ => simp

/-- A `SET_MODE` whose operand names no mode leaves the mode. -/
theorem setMode_mode_of_none {a : Word} {s t : State} (ha : modeOf a = none) (h : exec (.setMode a) s = .next t) :
    t.mode = s.mode := by
  cases (exec_setMode_of_none ha s).symm.trans h
  rfl

/-- A `SET_MODE` whose operand names a mode gives it. -/
theorem setMode_mode_of_some {a : Word} {m : Mode} {s t : State} (ha : modeOf a = some m)
    (h : exec (.setMode a) s = .next t) : t.mode = m := by
  cases (exec_setMode_of_some ha s).symm.trans h
  rfl

/-- A command other than `INIT`, `SET_MODE 0` and `SET_MODE 1` leaves the mode. -/
theorem exec_mode_of_ne {i : Instr} {s t : State} (hinit : i ≠ .init) (h0 : i ≠ .setMode 0#32) (h1 : i ≠ .setMode 1#32)
    (h : exec i s = .next t) : t.mode = s.mode := by
  by_cases hset : ∃ a, i = .setMode a
  · obtain ⟨a, rfl⟩ := hset
    have ha0 : a ≠ 0#32 := fun ha => h0 (ha ▸ rfl)
    have ha1 : a ≠ 1#32 := fun ha => h1 (ha ▸ rfl)
    exact setMode_mode_of_none (modeOf_eq_none (by bv_omega)) h
  · exact exec_mode hinit (fun a ha => hset ⟨a, ha⟩) h

/-! ## What a step leaves of the mode (log 3) -/

/-- A command run access by access sets the mode of the whole command with its response, or holds it until then. -/
theorem startInstr_mode {i : Instr} {s t : State} (hfree : s.job = none) (h : startInstr i s = .next t) :
    ∃ u, exec i s = .next u ∧ (t.mode = u.mode ∨ (t.mode = s.mode ∧ ∃ j, t.job = some j ∧ j.mode = u.mode)) := by
  rcases startInstr_next h with ⟨rfl, hdispatch⟩ | ⟨hne, u, hu, rfl⟩
  · exact ⟨t, hdispatch, .inl rfl⟩
  · refine ⟨u, hu, ?_⟩
    rcases nextAccess_job (jobOf s u) s with hover | ⟨e, rest, -, hjob⟩
    · have hwhole : nextAccess (jobOf s u) s = u := (settled_free hover).symm.trans (settled_start hne hu hfree)
      exact .inl (by rw [hwhole])
    · obtain ⟨-, -, -, hmode | ⟨hmode, -⟩⟩ := nextAccess_frame (jobOf s u) s
      · exact .inr ⟨hmode, _, hjob, rfl⟩
      · exact .inl hmode

/-- The step that takes a command gives the command's mode, at once or with its last access. -/
theorem step_mode_of_command {i : Instr} {s t : State} (h : step s = .next t) (hi : s.nextCommand = some i) :
    ∃ u, exec i { s with moves := s.moves.tail } = .next u ∧
      (t.mode = u.mode ∨ (t.mode = s.mode ∧ ∃ j, t.job = some j ∧ j.mode = u.mode)) := by
  rcases step_next h with ⟨hm, -⟩ | ⟨cw, rest, i', hm, -, hcw, hexec⟩ | ⟨cw, rest, i', hm, hj, hcw, hstart⟩ |
    ⟨rest, j, hm, -⟩ | ⟨v, rest, hm, -⟩ | ⟨rest, hm, -⟩
  · simp [State.nextCommand, hm] at hi
  · obtain rfl : i' = i := by simpa [State.nextCommand, hm, hcw] using hi
    rw [hm]
    exact ⟨t, hexec, .inl rfl⟩
  · obtain rfl : i' = i := by simpa [State.nextCommand, hm, hcw] using hi
    rw [hm]
    exact startInstr_mode (s := { s with moves := rest }) hj hstart
  · simp [State.nextCommand, hm] at hi
  · simp [State.nextCommand, hm] at hi
  · simp [State.nextCommand, hm] at hi

/-- A step that takes no command leaves the mode, but for the last access of a command run access by access. -/
theorem step_mode_of_no_command {s t : State} (h : step s = .next t) (hi : s.nextCommand = none) :
    t.mode = s.mode ∨ ∃ j, s.job = some j ∧ t.job = none ∧ t.mode = j.mode := by
  rcases step_next h with ⟨-, rfl⟩ | ⟨cw, rest, i, hm, -, hcw, -⟩ | ⟨cw, rest, i, hm, -, hcw, -⟩ |
    ⟨rest, j, -, hj, rfl⟩ | ⟨v, rest, -, rfl⟩ | ⟨rest, -, -, hret⟩
  · exact .inl rfl
  · simp [State.nextCommand, hm, hcw] at hi
  · simp [State.nextCommand, hm, hcw] at hi
  · obtain ⟨-, -, -, hmode | ⟨hmode, hover⟩⟩ := nextAccess_frame j { s with moves := rest }
    · exact .inl hmode
    · exact .inr ⟨j, hj, hover, hmode⟩
  · exact .inl rfl
  · exact .inl (by rw [return_frame hret])

/-! ## What does not see the mode -/

/-- A state in the mode `m`. -/
def State.withMode (m : Mode) (s : State) : State := { s with mode := m }

section
variable (m : Mode) (s : State)

@[simp] theorem withMode_params : (s.withMode m).params = s.params := rfl

@[simp] theorem withMode_inService : (s.withMode m).inService = s.inService := rfl

@[simp] theorem respond_withMode (v : Word) : (s.withMode m).respond v = (s.respond v).withMode m := rfl

@[simp] theorem regWrite_withMode (r : Reg) (v : Word) :
    (s.withMode m).regWrite r v = (s.regWrite r v).withMode m := by cases r <;> rfl

@[simp] theorem afterRead_withMode (r : Reg) : (s.withMode m).afterRead r = (s.afterRead r).withMode m := by
  cases r <;> rfl

@[simp] theorem readValue_withMode (r : Reg) : (s.withMode m).readValue r = s.readValue r := by cases r <;> rfl

@[simp] theorem findSlot_withMode (l : Line) : (s.withMode m).findSlot l = s.findSlot l := rfl

@[simp] theorem allocate_withMode (l : Line) : (s.withMode m).allocate l = s.allocate l := rfl

/-- A loop over the slots assigned to a line does not see the mode when its turns do not. -/
theorem forAssigned_withMode (l : Line) {f : State → Slot → State}
    (h : ∀ s k, f (s.withMode m) k = (f s k).withMode m) :
    (s.withMode m).forAssigned l f = (s.forAssigned l f).withMode m :=
  forAssigned_commutes (State.withMode m) l f h (fun _ => rfl) s

@[simp] theorem releaseAssigned_withMode (l : Line) :
    (s.withMode m).forAssigned l State.releaseSlot = (s.forAssigned l State.releaseSlot).withMode m :=
  forAssigned_withMode m s l fun _ _ => rfl

@[simp] theorem enableAssigned_withMode (l : Line) :
    (s.withMode m).forAssigned l State.enableSlot = (s.forAssigned l State.enableSlot).withMode m :=
  forAssigned_withMode m s l fun _ _ => rfl

@[simp] theorem disableAssigned_withMode (l : Line) :
    (s.withMode m).forAssigned l State.disableSlot = (s.forAssigned l State.disableSlot).withMode m :=
  forAssigned_withMode m s l fun _ _ => rfl

@[simp] theorem releaseEvery_withMode :
    (s.withMode m).forEverySlot State.releaseSlot = (s.forEverySlot State.releaseSlot).withMode m :=
  foldl_commutes (State.withMode m) _ (fun _ _ => rfl) allSlots s

@[simp] theorem disableEvery_withMode :
    (s.withMode m).forEverySlot State.disableSlot = (s.forEverySlot State.disableSlot).withMode m :=
  foldl_commutes (State.withMode m) _ (fun _ _ => rfl) allSlots s

theorem runCopy_withMode : runCopy (s.withMode m) = (runCopy s).withMode m := by
  have hloop (ph : Nat → RelocState) (ks : List Nat) :=
    foldl_commutes (State.withMode m) (fun t k => copyWord (ph k) t k) (fun _ _ => rfl) ks s
  have hforward (n : Nat) : copyForward n (s.withMode m) = (copyForward n s).withMode m := hloop .copyFwd _
  have hbackward (n : Nat) : copyBackward n (s.withMode m) = (copyBackward n s).withMode m := hloop .copyBwd _
  simp only [runCopy, withMode_params, hforward, hbackward, apply_ite (State.withMode m)]

theorem scanFrom_withMode (snap : Word) (start : Nat) :
    scanFrom snap start (s.withMode m) = (scanFrom snap start s).withMode m := by
  unfold scanFrom
  cases nextLine snap start <;> rfl

theorem routineReturn_withMode : routineReturn (s.withMode m) = mapNext (State.withMode m) (routineReturn s) := by
  have hscan := scanFrom_withMode m (s.observe .ret)
  unfold routineReturn
  rw [show (s.withMode m).dispatch = s.dispatch from rfl]
  cases s.dispatch with
  | idle | vectored => rfl
  | nonVectored snap i => exact congrArg Host.Outcome.next (hscan snap (i.val + 1))

theorem execRelocate_withMode : execRelocate (s.withMode m) = mapNext (State.withMode m) (execRelocate s) := by
  have hcopy : runCopy { s.withMode m with relocState := .check } =
      (runCopy { s with relocState := .check }).withMode m := runCopy_withMode m { s with relocState := .check }
  simp only [execRelocate, hcopy, apply_ite (mapNext (State.withMode m))]
  rfl

theorem execRegRead_withMode (off : Word) :
    execRegRead off (s.withMode m) = mapNext (State.withMode m) (execRegRead off s) := by
  simp only [execRegRead, State.regRead, withMode_params, withMode_inService, readValue_withMode, afterRead_withMode]
  cases misaligned off with
  | true => rfl
  | false =>
    cases registerAt s.params.offsets off with
    | none => rfl
    | some r =>
      by_cases htwice : r = .vectAddr ∧ s.inService = true
      · simp only [if_pos htwice]; rfl
      · simp only [if_neg htwice]; rfl

/-- Every command but `INIT`, `SET_MODE` and `DISPATCH` does the same in the other mode (41_mode_and_init R160). -/
theorem exec_withMode {i : Instr} (hinit : i ≠ .init) (hset : ∀ a, i ≠ .setMode a) (hdispatch : i ≠ .dispatch) :
    exec i (s.withMode m) = mapNext (State.withMode m) (exec i s) := by
  cases i with
  | init => exact absurd rfl hinit
  | setMode a => exact absurd rfl (hset a)
  | dispatch => exact absurd rfl hdispatch
  | relocate => exact execRelocate_withMode m s
  | regRead off => exact execRegRead_withMode m s off
  | regWrite off v =>
    simp only [exec, execRegWrite, withMode_params, regWrite_withMode, respond_withMode]
    cases misaligned off with
    | true => rfl
    | false => cases registerAt s.params.offsets off <;> rfl
  | disableAll | swiTrigger | swiClear => rfl
  | disableAllVec => simp [exec, execDisableAllVec]
  | unregisterAllVec => simp [exec, execUnregisterAllVec]
  | enable line => simp only [exec, execEnable]; cases lineOf line <;> rfl
  | disable line => simp only [exec, execDisable]; cases lineOf line <;> rfl
  | isEnabled line => simp only [exec, execIsEnabled]; cases lineOf line <;> rfl
  | getType line => simp only [exec, execGetType]; cases lineOf line <;> rfl
  | unregisterVec line => simp only [exec, execUnregisterVec]; cases lineOf line <;> simp
  | enableVec line => simp only [exec, execEnableVec]; cases lineOf line <;> simp
  | disableVec line => simp only [exec, execDisableVec]; cases lineOf line <;> simp
  | setDefaultVec routine => simp only [exec, execSetDefaultVec]; cases isNull routine <;> rfl
  | registerNv line routine =>
    simp only [exec, execRegisterNv]
    cases lineOf line with
    | none => rfl
    | some l => cases isNull routine <;> rfl
  | setType line kind =>
    simp only [exec, execSetType]
    cases lineOf line with
    | none => rfl
    | some l => cases kindOf kind <;> rfl
  | registerVec line routine =>
    simp only [exec, execRegisterVec, allocate_withMode]
    cases lineOf line with
    | none => rfl
    | some l =>
      cases isNull routine with
      | true => rfl
      | false =>
        simp only [Bool.false_eq_true, if_false]
        cases s.allocate l <;> rfl

end

/-- Settles O49: who sets the mode by the lemmas of the first part, a step by those of the second, and what does not see
the mode by `routineReturn_withMode` and `exec_withMode`. -/
theorem modeTransitionTable : Obligations.ModeTransitionTable := by
  refine ⟨rfl, fun s t => ⟨fun h => ?_, setMode_mode_of_some rfl, setMode_mode_of_some rfl,
    fun i => exec_mode_of_ne, fun a ha => setMode_mode_of_none (modeOf_eq_none ha), step_mode_of_no_command,
    fun i => step_mode_of_command, fun m => ⟨rfl, fun h => ?_, fun i hinit hset hdispatch h => ?_⟩⟩⟩
  · cases (exec_init s).symm.trans h
    rfl
  · exact (routineReturn_withMode m s).trans (congrArg (mapNext (State.withMode m)) h)
  · exact (exec_withMode m s hinit hset hdispatch).trans (congrArg (mapNext (State.withMode m)) h)

end Sys2Proof.Machine
end

section
/-!
PROOFS about the per-line control commands (42_line_control R170 to R179): the whole next state of each command, the bit it
changes, and what of it a status word shows.
-/
namespace Sys2Proof.Machine

/-! ## One line's bit in a word (R180) -/

section
variable (w : Word) (l j : Line)

theorem or_lineBit_getLsbD : (w ||| lineBit l).getLsbD j.val = (decide (j = l) || w.getLsbD j.val) := by
  rw [BitVec.getLsbD_or, lineBit_getLsbD, Bool.or_comm]

theorem and_not_lineBit_getLsbD :
    (w &&& ~~~lineBit l).getLsbD j.val = (decide (j ≠ l) && w.getLsbD j.val) := by
  rw [BitVec.getLsbD_and, BitVec.getLsbD_not, lineBit_getLsbD, decide_eq_true j.isLt, Bool.true_and, ← decide_not,
    Bool.and_comm]

/-- Setting the type of a line changes its own bit to the type and no other (R177). -/
theorem withType_getLsbD (fiq : Bool) :
    (withType w l fiq).getLsbD j.val = if j = l then fiq else w.getLsbD j.val := by
  cases fiq with
  | false => exact (and_not_lineBit_getLsbD w l j).trans (by by_cases h : j = l <;> simp [h])
  | true => exact (or_lineBit_getLsbD w l j).trans (by by_cases h : j = l <;> simp [h])

end

/-! ## A requested line in the status words (10_state R25, R26) -/

section
variable {s : State} {l : Line} (h : s.rawIntr.getLsbD l.val = true)
include h

theorem irqStatus_of_requested :
    s.irqStatus.getLsbD l.val = (s.intEnable.getLsbD l.val && !s.intSelect.getLsbD l.val) := by
  rw [State.irqStatus, BitVec.getLsbD_and, BitVec.getLsbD_and, BitVec.getLsbD_not, h, decide_eq_true l.isLt,
    Bool.true_and, Bool.true_and]

theorem fiqStatus_of_requested :
    s.fiqStatus.getLsbD l.val = (s.intEnable.getLsbD l.val && s.intSelect.getLsbD l.val) := by
  rw [State.fiqStatus, BitVec.getLsbD_and, BitVec.getLsbD_and, h, Bool.true_and]

end

/-- A type operand that is no FIQ is IRQ (R177). -/
theorem not_fiq_eq_irq {kind : Word} (h : kind.toNat < 2) : (!decide (kind = 1#32)) = decide (kind = 0#32) := by
  have : kind = 0#32 ∨ kind = 1#32 := by bv_omega
  rcases this with rfl | rfl <;> rfl

/-! ## What each command leaves

Each command completes; the equations give its whole next state, with the accesses it performed in order. -/

/-- A command that performs one access and responds. -/
theorem observe_respond (s : State) (e : Event) (v : Word) :
    (s.observe e).respond v = { s with resp := v, trace := s.trace ++ [e, .response v] } := by
  simp [State.observe, State.respond]

/-- A command that performs two accesses and responds. -/
theorem observe_observe_respond (s : State) (e f : Event) (v : Word) :
    ((s.observe e).observe f).respond v = { s with resp := v, trace := s.trace ++ [e, f, .response v] } := by
  simp [State.observe, State.respond]

/-- The opcode and the operands a command uses decode to it, whatever an unused field holds (30_encoding R111). -/
theorem decode_opcode {i : Instr} {a b : Word} (h : ReadsFrom i a b) : decode (packFields i.opcode a b) = .ok i :=
  (decode_packFields _ _ _).trans (decodeFields_opcode h)

section
variable {line kind routine : Word} {l : Line} (s : State)

theorem exec_registerNv (h : line.toNat = l.val) (hr : routine ≠ 0#32) : exec (.registerNv line routine) s =
    .next { s with nvTable := s.nvTable.set l routine, resp := 0#32, trace := s.trace ++ [.response 0#32] } := by
  simp only [exec, execRegisterNv, lineOf_eq_some h, isNull, decide_eq_false hr]
  rfl

theorem exec_registerNv_noOp (h : 32 ≤ line.toNat ∨ routine = 0#32) :
    exec (.registerNv line routine) s = .next (s.respond 0#32) := by
  rcases h with hline | rfl
  · simp only [exec, execRegisterNv, lineOf_eq_none hline]
  · simp only [exec, execRegisterNv]
    cases lineOf line <;> rfl

theorem exec_enable (h : line.toNat = l.val) : exec (.enable line) s = .next { s with
    intEnable := s.intEnable ||| lineBit l, resp := 0#32,
    trace := s.trace ++ [.regWrite .intEnable (lineBit l), .response 0#32] } := by
  simp only [exec, execEnable, lineOf_eq_some h]
  exact congrArg Host.Outcome.next (observe_respond _ _ _)

theorem exec_enable_noOp (h : 32 ≤ line.toNat) : exec (.enable line) s = .next (s.respond 0#32) := by
  simp only [exec, execEnable, lineOf_eq_none h]

theorem exec_disable (h : line.toNat = l.val) : exec (.disable line) s = .next { s with
    intEnable := s.intEnable &&& ~~~lineBit l, resp := 0#32,
    trace := s.trace ++ [.regWrite .intEnClear (lineBit l), .response 0#32] } := by
  simp only [exec, execDisable, lineOf_eq_some h]
  exact congrArg Host.Outcome.next (observe_respond _ _ _)

theorem exec_disable_noOp (h : 32 ≤ line.toNat) : exec (.disable line) s = .next (s.respond 0#32) := by
  simp only [exec, execDisable, lineOf_eq_none h]

/-- Every bit is written, so none stays enabled (R174). -/
theorem exec_disableAll : exec .disableAll s = .next { s with
    intEnable := 0#32, resp := 0#32,
    trace := s.trace ++ [.regWrite .intEnClear 0xFFFFFFFF#32, .response 0#32] } := by
  have hzero : s.intEnable &&& ~~~0xFFFFFFFF#32 = 0#32 := BitVec.and_zero
  simp only [exec, execDisableAll, State.regWrite, State.writeEffect, hzero]
  exact congrArg Host.Outcome.next (observe_respond _ _ _)

theorem exec_isEnabled (h : line.toNat = l.val) : exec (.isEnabled line) s = .next { s with
    resp := bitWord (s.intEnable.getLsbD l.val),
    trace := s.trace ++ [.regRead .intEnable s.intEnable, .response (bitWord (s.intEnable.getLsbD l.val))] } := by
  simp only [exec, execIsEnabled, lineOf_eq_some h]
  exact congrArg Host.Outcome.next (observe_respond _ _ _)

theorem exec_isEnabled_noOp (h : 32 ≤ line.toNat) : exec (.isEnabled line) s = .next (s.respond 0#32) := by
  simp only [exec, execIsEnabled, lineOf_eq_none h]

theorem exec_getType (h : line.toNat = l.val) : exec (.getType line) s = .next { s with
    resp := bitWord (s.intSelect.getLsbD l.val),
    trace := s.trace ++ [.regRead .intSelect s.intSelect, .response (bitWord (s.intSelect.getLsbD l.val))] } := by
  simp only [exec, execGetType, lineOf_eq_some h]
  exact congrArg Host.Outcome.next (observe_respond _ _ _)

theorem exec_getType_noOp (h : 32 ≤ line.toNat) : exec (.getType line) s = .next (s.respond 0#32) := by
  simp only [exec, execGetType, lineOf_eq_none h]

theorem exec_setType (h : line.toNat = l.val) (hk : kind.toNat < 2) : exec (.setType line kind) s = .next { s with
    intSelect := withType s.intSelect l (decide (kind = 1#32)), resp := 0#32,
    trace := s.trace ++ [.regRead .intSelect s.intSelect,
      .regWrite .intSelect (withType s.intSelect l (decide (kind = 1#32))), .response 0#32] } := by
  simp only [exec, execSetType, lineOf_eq_some h, kindOf_eq_some hk]
  exact congrArg Host.Outcome.next (observe_observe_respond { s with intSelect := _ } _ _ _)

theorem exec_setType_noOp (h : 32 ≤ line.toNat ∨ 2 ≤ kind.toNat) :
    exec (.setType line kind) s = .next (s.respond 0#32) := by
  rcases h with hline | hkind
  · simp only [exec, execSetType, lineOf_eq_none hline]
  · simp only [exec, execSetType, kindOf_eq_none hkind]
    cases lineOf line <;> rfl

theorem exec_swiTrigger : exec .swiTrigger s = .next { s with
    softInt := s.softInt ||| lineBit s.params.swiLine, resp := 0#32,
    trace := s.trace ++ [.regWrite .softInt (lineBit s.params.swiLine), .response 0#32] } :=
  congrArg Host.Outcome.next (observe_respond _ _ _)

theorem exec_swiClear : exec .swiClear s = .next { s with
    softInt := s.softInt &&& ~~~lineBit s.params.swiLine, resp := 0#32,
    trace := s.trace ++ [.regWrite .softIntClear (lineBit s.params.swiLine), .response 0#32] } :=
  congrArg Host.Outcome.next (observe_respond _ _ _)

end

/-! ## `REGISTER_NV`, the enables and their report (R171 to R175) -/

/-- Settles O12: the two equations of `REGISTER_NV`. -/
theorem registerNvStoresTheRoutine : Obligations.RegisterNvStoresTheRoutine :=
  fun _ _ s => ⟨decode_opcode (i := .registerNv _ _) ⟨fun _ => rfl, fun _ => rfl⟩, fun _ => exec_registerNv s,
    exec_registerNv_noOp s⟩

/-- What `ENABLE` leaves of the words a pending line depends on (R172). -/
theorem enable_next {line : Word} {l : Line} {s t : State} (hl : line.toNat = l.val)
    (h : exec (.enable line) s = .next t) :
    t.rawIntr = s.rawIntr ∧ t.intSelect = s.intSelect ∧ t.intEnable = s.intEnable ||| lineBit l := by
  cases (exec_enable s hl).symm.trans h
  exact ⟨rfl, rfl, rfl⟩

/-- Settles O13: the two equations of `ENABLE`; the set bit shows a requested line in the status word of its type. -/
theorem enableSetsTheLinesBit : Obligations.EnableSetsTheLinesBit := by
  refine fun line s => ⟨fun _ => decode_opcode (i := .enable line) ⟨fun _ => rfl, nofun⟩, fun _ => exec_enable s,
    fun l t hl ht hreq => ?_, exec_enable_noOp s⟩
  obtain ⟨hraw, hsel, hen⟩ := enable_next hl ht
  rw [← hraw] at hreq
  rw [irqStatus_of_requested hreq, fiqStatus_of_requested hreq, hsel, hen, or_lineBit_getLsbD]
  simp

/-- What `DISABLE` leaves of the requests and the enable word (R173). -/
theorem disable_next {line : Word} {l : Line} {s t : State} (hl : line.toNat = l.val)
    (h : exec (.disable line) s = .next t) :
    t.rawIntr = s.rawIntr ∧ t.intEnable = s.intEnable &&& ~~~lineBit l := by
  cases (exec_disable s hl).symm.trans h
  exact ⟨rfl, rfl⟩

/-- Settles O14: the two equations of `DISABLE`; a line whose enable bit is 0 is in neither status word. -/
theorem disableClearsTheLinesBit : Obligations.DisableClearsTheLinesBit := by
  refine fun line s => ⟨fun _ => decode_opcode (i := .disable line) ⟨fun _ => rfl, nofun⟩, fun _ => exec_disable s,
    fun l t hl ht => ?_, exec_disable_noOp s⟩
  obtain ⟨hraw, hen⟩ := disable_next hl ht
  refine ⟨hraw, ?_⟩
  rw [irqStatus_getLsbD, fiqStatus_getLsbD, hen, and_not_lineBit_getLsbD]
  simp

/-- Settles O15: the equation of `DISABLE_ALL`. -/
theorem disableAllClearsEveryEnable : Obligations.DisableAllClearsEveryEnable :=
  ⟨fun _ _ => decode_opcode (i := .disableAll) ⟨nofun, nofun⟩, exec_disableAll⟩

/-- Settles O16: the two equations of `IS_ENABLED`; `bitWord` is the response the rule names. -/
theorem isEnabledReportsTheEnableBit : Obligations.IsEnabledReportsTheEnableBit := by
  refine fun line s => ⟨fun _ => decode_opcode (i := .isEnabled line) ⟨fun _ => rfl, nofun⟩, ?_, exec_isEnabled_noOp s⟩
  rintro l _ hl rfl
  exact exec_isEnabled s hl

/-! ## The type of a line (R176, R177) -/

/-- Settles O17: the two equations of `GET_TYPE`; `bitWord` is the response the rule names. -/
theorem getTypeReportsTheSelectBit : Obligations.GetTypeReportsTheSelectBit := by
  refine fun line s => ⟨fun _ => decode_opcode (i := .getType line) ⟨fun _ => rfl, nofun⟩, ?_, exec_getType_noOp s⟩
  rintro l _ hl rfl
  exact exec_getType s hl

/-- What `SET_TYPE` leaves of the words a pending line depends on (R177). -/
theorem setType_next {line kind : Word} {l : Line} {s t : State} (hl : line.toNat = l.val) (hk : kind.toNat < 2)
    (h : exec (.setType line kind) s = .next t) : t.rawIntr = s.rawIntr ∧ t.intEnable = s.intEnable ∧
    ∀ j : Line, t.intSelect.getLsbD j.val = if j = l then decide (kind = 1#32) else s.intSelect.getLsbD j.val := by
  cases (exec_setType s hl hk).symm.trans h
  exact ⟨rfl, rfl, fun j => withType_getLsbD _ _ j _⟩

/-- Settles O18: the two equations of `SET_TYPE`, and what they leave of a line's bits. -/
theorem setTypeWritesTheSelectBit : Obligations.SetTypeWritesTheSelectBit := by
  refine fun line kind s => ⟨decode_opcode (i := .setType line kind) ⟨fun _ => rfl, fun _ => rfl⟩, ?_,
    fun l j t hl hk h => ?_, exec_setType_noOp s⟩
  · rintro l w hl hk hw
    obtain rfl : w = withType s.intSelect l (decide (kind = 1#32)) := by simpa [withType, lineBit] using hw
    exact exec_setType s hl hk
  · obtain ⟨hraw, hen, hsel⟩ := setType_next hl hk h
    refine ⟨hsel j, fun hreq henabled => ?_⟩
    rw [← hraw] at hreq
    rw [irqStatus_of_requested hreq, fiqStatus_of_requested hreq, hen, henabled, hsel l, if_pos rfl, not_fiq_eq_irq hk]
    exact ⟨rfl, rfl⟩

/-- Settles O20: the bit of the word each command writes. -/
theorem oneLineCommandsTouchOneBit : Obligations.OneLineCommandsTouchOneBit := by
  refine fun l j line kind s t hl => ⟨fun h => ?_, fun h => ?_, fun hk h => ?_⟩
  · obtain ⟨-, -, hen⟩ := enable_next hl h
    rw [hen, or_lineBit_getLsbD]
  · obtain ⟨-, hen⟩ := disable_next hl h
    rw [hen, and_not_lineBit_getLsbD]
  · obtain ⟨-, -, hsel⟩ := setType_next hl hk h
    exact hsel j

/-! ## The software line (R178, R179) -/

/-- Only a write to `SOFTINTCLEAR` takes a software request back (10_state R31, R32). -/
theorem regWrite_softInt_kept {s : State} {r : Reg} {v : Word} (hr : r ≠ .softIntClear) {n : Nat}
    (h : s.softInt.getLsbD n = true) : (s.regWrite r v).softInt.getLsbD n = true := by
  cases r with
  | softIntClear => exact absurd rfl hr
  | softInt => simp [h]
  | _ => exact h

/-- No command but `SWI_CLEAR`, `INIT` and a `REG_WRITE` to `SOFTINTCLEAR` takes a software request back (R178). -/
theorem takesBack_of_softInt_cleared {i : Instr} {s t : State} {n : Nat} (h : exec i s = .next t)
    (hset : s.softInt.getLsbD n = true) (hclear : t.softInt.getLsbD n = false) :
    i = .swiClear ∨ i = .init ∨ ∃ off v, i = .regWrite off v ∧ registerAt s.params.offsets off = some .softIntClear := by
  cases exec_footprint h with
  | swiClear => exact .inl rfl
  | init => exact .inr (.inl rfl)
  | @regWrite off v r hr =>
    by_cases hsic : r = .softIntClear
    · exact .inr (.inr ⟨off, v, rfl, hsic ▸ hr⟩)
    · exact absurd (regWrite_softInt_kept hsic hset) (Bool.eq_false_iff.1 hclear)
  | swiTrigger =>
    cases (exec_swiTrigger s).symm.trans h
    simp [hset] at hclear
  | regRead => simp [hset] at hclear
  | _ => exact absurd hset (Bool.eq_false_iff.1 hclear)

/-- Settles O19: the equations of the two commands and the bit they write; a return leaves `SOFTINT` as it is. -/
theorem softwareLineIsSetAndCleared : Obligations.SoftwareLineIsSetAndCleared := by
  refine ⟨fun a b => ⟨decode_opcode (i := .swiTrigger) ⟨nofun, nofun⟩, decode_opcode (i := .swiClear) ⟨nofun, nofun⟩⟩,
    fun s => ⟨exec_swiTrigger s, exec_swiClear s, fun t h => ?_, fun t h => ?_, fun i t j h hset hclear => ?_⟩⟩
  · cases (exec_swiTrigger s).symm.trans h
    have hreq : (s.rawsrc ||| (s.softInt ||| lineBit s.params.swiLine)).getLsbD s.params.swiLine.val = true := by
      rw [BitVec.getLsbD_or, or_lineBit_getLsbD, decide_eq_true rfl, Bool.true_or, Bool.or_true]
    exact ⟨hreq, irqStatus_of_requested hreq⟩
  · cases (exec_swiClear s).symm.trans h
    simp only [State.rawIntr, BitVec.getLsbD_or, and_not_lineBit_getLsbD, ne_eq, not_true_eq_false, decide_false,
      Bool.false_and, Bool.or_false]
  · rcases h with hexec | hreturn
    · exact takesBack_of_softInt_cleared hexec hset hclear
    · have hkept : t.softInt = s.softInt := by rw [return_frame hreturn]
      exact absurd hset (Bool.eq_false_iff.1 (hkept ▸ hclear))

/-! ## What the family leaves alone (R170) -/

/-- The commands of 42_line_control are among those that complete in every state. -/
theorem quietCommand_of_lineControl {i : Instr} (h : lineControlCommand i = true) : quietCommand i = true := by
  cases i with
  | relocate | dispatch | regRead | regWrite => exact h
  | _ => rfl

/-- The commands of 42_line_control change the type and enable words, the software requests, the table, the response and the
observations, and nothing else (R170). -/
theorem lineControl_frame {i : Instr} {s t : State} (hi : lineControlCommand i = true) (h : exec i s = .next t) :
    t = { s with
      intSelect := t.intSelect, intEnable := t.intEnable, softInt := t.softInt, nvTable := t.nvTable, resp := t.resp,
      trace := t.trace } := by
  cases exec_footprint h with
  | registerNv | enable | disable | disableAll | isEnabled | getType | setType | swiTrigger | swiClear => rfl
  | _ => exact absurd hi Bool.false_ne_true

/-- Settles O21: each command completes, as `exec_quiet` says, and stays in the frame of its family. -/
theorem lineControlLeavesTheSlotsAlone : Obligations.LineControlLeavesTheSlotsAlone := by
  intro i s hi
  obtain ⟨u, v, -, h⟩ := exec_quiet i s (quietCommand_of_lineControl hi)
  generalize u.respond v = t at h
  refine ⟨t, h, ?_⟩
  rw [lineControl_frame hi h]
  exact ⟨rfl, rfl, rfl, rfl, rfl, rfl, rfl, rfl, rfl, rfl, fun _ => rfl⟩

end Sys2Proof.Machine
end

section
/-!
PROOFS about the slot commands (43_vector_slots R190 to R204): what each command answers in terms of the slot operations,
the slots it changes, and first-fit over a sequence of commands.
-/
namespace Sys2Proof.Machine

/-! ## Reading a slot after a loop over the slots -/

theorem slot_eq_iff {s : State} {k : Slot} {o : Option Line} {c : BitVec 6} {a : Word} :
    s.slot k = (o, c, a) ↔ s.slotLine[k] = o ∧ s.vectCntl[k] = c ∧ s.vectAddr[k] = a := by
  simp [State.slot]

/-- The control register of a slot is the slot's second part. -/
theorem vectCntl_of_slot {s : State} {k : Slot} {v : SlotView} (h : s.slot k = v) : s.vectCntl[k] = v.2.1 :=
  congrArg (·.2.1) h

/-- The whole state of a command that is one loop over the slots and a response. -/
theorem respond_of_offSlots {s u : State} {es : List Event} (hrest : u.offSlots = s.offSlots)
    (htrace : u.trace = s.trace ++ es) (v : Word) : u.respond v = { s with
      slotLine := u.slotLine, vectCntl := u.vectCntl, vectAddr := u.vectAddr, resp := v,
      trace := s.trace ++ es ++ [.response v] } := by
  obtain ⟨sl, cntl, addr, tr, rfl⟩ := eq_of_offSlots hrest
  exact htrace ▸ rfl

/-- The whole state of a command that is one loop over the enable bits and a response. -/
theorem respond_of_offCntl {s u : State} {es : List Event} (hrest : u.offCntl = s.offCntl)
    (htrace : u.trace = s.trace ++ es) (v : Word) : u.respond v = { s with
      vectCntl := u.vectCntl, resp := v, trace := s.trace ++ es ++ [.response v] } := by
  obtain ⟨cntl, tr, rfl⟩ := eq_of_offCntl hrest
  exact htrace ▸ rfl

/-! ## What a slot command answers -/

theorem findSlot_eq_some_iff {s : State} {l : Line} {k : Slot} :
    s.findSlot l = some k ↔ s.slotLine[k] = some l ∧ ∀ j : Slot, j < k → s.slotLine[j] ≠ some l := by
  simp only [State.findSlot, allSlots, find_finRange_eq_some, beq_iff_eq, beq_eq_false_iff_ne]

theorem findSlot_eq_none_iff {s : State} {l : Line} :
    s.findSlot l = none ↔ ∀ k : Slot, s.slotLine[k] ≠ some l := by
  simp only [State.findSlot, allSlots, find_finRange_eq_none, beq_eq_false_iff_ne]

/-- The response of `ENABLE_VEC` (R195): the lowest slot assigned to the line, or `FAIL`. -/
def State.enableResponse (s : State) (l : Line) : Word :=
  match s.findSlot l with
  | some k => slotWord k
  | none   => failWord

theorem enableResponse_of_lowest {s : State} {l : Line} {k : Slot} (hk : s.slotLine[k] = some l)
    (hlow : ∀ j : Slot, j < k → s.slotLine[j] ≠ some l) : s.enableResponse l = slotWord k := by
  simp only [State.enableResponse, findSlot_eq_some_iff.2 ⟨hk, hlow⟩]

theorem enableResponse_of_none {s : State} {l : Line} (h : ∀ k : Slot, s.slotLine[k] ≠ some l) :
    s.enableResponse l = failWord := by
  simp only [State.enableResponse, findSlot_eq_none_iff.2 h]

section
variable {line routine : Word} {l : Line} (s : State)

/-- `REGISTER_VEC` binds the slot first-fit allocates (R191). -/
theorem exec_registerVec {k : Slot} (hl : line.toNat = l.val) (hr : routine ≠ 0#32) (hk : s.allocate l = some k) :
    exec (.registerVec line routine) s = .next ((s.bindSlot k l routine).respond (slotWord k)) := by
  simp only [exec, execRegisterVec, lineOf_eq_some hl, isNull, decide_eq_false hr, hk]
  rfl

/-- Out of range, null or with no slot to allocate, a registration fails (R191). -/
theorem exec_registerVec_fail
    (h : 32 ≤ line.toNat ∨ routine = 0#32 ∨ ∀ l : Line, line.toNat = l.val → s.allocate l = none) :
    exec (.registerVec line routine) s = .next (s.respond failWord) := by
  simp only [exec, execRegisterVec]
  cases hline : lineOf line with
  | none => rfl
  | some l =>
    have hl := lineOf_some_iff.1 hline
    rcases h with hrange | rfl | hfull
    · omega
    · rfl
    · simp only [hfull l hl, ite_self]

theorem exec_unregisterVec (h : line.toNat = l.val) :
    exec (.unregisterVec line) s = .next ((s.forAssigned l State.releaseSlot).respond 0#32) := by
  simp only [exec, execUnregisterVec, lineOf_eq_some h]

theorem exec_unregisterVec_noLine (h : 32 ≤ line.toNat) : exec (.unregisterVec line) s = .next (s.respond 0#32) := by
  simp only [exec, execUnregisterVec, lineOf_eq_none h]

theorem exec_enableVec (h : line.toNat = l.val) :
    exec (.enableVec line) s = .next ((s.forAssigned l State.enableSlot).respond (s.enableResponse l)) := by
  simp only [exec, execEnableVec, lineOf_eq_some h]
  rfl

theorem exec_enableVec_noLine (h : 32 ≤ line.toNat) : exec (.enableVec line) s = .next (s.respond failWord) := by
  simp only [exec, execEnableVec, lineOf_eq_none h]

theorem exec_disableVec (h : line.toNat = l.val) :
    exec (.disableVec line) s = .next ((s.forAssigned l State.disableSlot).respond 0#32) := by
  simp only [exec, execDisableVec, lineOf_eq_some h]

theorem exec_disableVec_noLine (h : 32 ≤ line.toNat) : exec (.disableVec line) s = .next (s.respond 0#32) := by
  simp only [exec, execDisableVec, lineOf_eq_none h]

theorem exec_disableAllVec :
    exec .disableAllVec s = .next ((s.forEverySlot State.disableSlot).respond 0#32) := rfl

theorem exec_unregisterAllVec :
    exec .unregisterAllVec s = .next ((s.forEverySlot State.releaseSlot).respond 0#32) := rfl

theorem exec_setDefaultVec (h : routine ≠ 0#32) : exec (.setDefaultVec routine) s = .next { s with
    defVectAddr := routine, resp := 0#32,
    trace := s.trace ++ [.regWrite .defVectAddr routine, .response 0#32] } := by
  simp only [exec, execSetDefaultVec, isNull, decide_eq_false h]
  exact congrArg Host.Outcome.next (observe_respond { s with defVectAddr := _ } _ _)

end

/-! ## `REGISTER_VEC` (R191) -/

/-- The whole state after a slot is bound and its index returned (R191). -/
theorem bindSlot_respond (s : State) (k : Slot) (l : Line) (r : Word) :
    (s.bindSlot k l r).respond (slotWord k) = { s with
      slotLine := s.slotLine.set k (some l), vectAddr := s.vectAddr.set k r,
      vectCntl := s.vectCntl.set k (BitVec.ofNat 6 l.val ||| 0x20#6), resp := BitVec.ofNat 32 k.val,
      trace := s.trace ++ [.regWrite (.vectAddrN k) r,
        .regWrite (.vectCntlN k) (BitVec.ofNat 32 l.val ||| 0x20#32), .response (BitVec.ofNat 32 k.val)] } := by
  simp only [State.bindSlot, State.regWrite, State.writeEffect, cntl_bound]
  exact observe_observe_respond { s with slotLine := _, vectAddr := _, vectCntl := _ } _ _ _

/-- Settles O22: `allocate_eq_some_iff` gives the slot, and `allocate_eq_none_iff` says when there is none. -/
theorem registerVecIsFirstFitWithReuse : Obligations.RegisterVecIsFirstFitWithReuse := by
  intro line routine s
  refine ⟨decode_opcode (i := .registerVec line routine) ⟨fun _ => rfl, fun _ => rfl⟩, fun l k hl hr hk => ?_,
    fun hfail => exec_registerVec_fail s (hfail.imp_right (Or.imp_right fun hfull l hl => ?_))⟩
  · rw [← bindSlot_respond]
    exact exec_registerVec s hl hr ((allocate_eq_some_iff s l k).2 hk)
  · refine (allocate_eq_none_iff s l).2 fun j => ?_
    obtain ⟨hused, hother⟩ := hfull j
    exact ⟨hother l hl, hused⟩

/-! ## The loops over the slots (R193 to R201) -/

/-- Settles O23: the loop that releases the slots of a line. -/
theorem unregisterVecClearsEverySlotOfTheLine : Obligations.UnregisterVecClearsEverySlotOfTheLine := by
  refine fun line s => ⟨fun _ => decode_opcode (i := .unregisterVec line) ⟨fun _ => rfl, nofun⟩, fun l hl => ?_,
    exec_unregisterVec_noLine s⟩
  have hexec := exec_unregisterVec s hl
  have hslot := forAssigned_release_slot s l
  have hframe := respond_of_offSlots (forAssigned_release_rest s l) (forAssigned_release_trace s l) 0#32
  generalize s.forAssigned l State.releaseSlot = u at hexec hslot hframe
  exact ⟨_, hexec, fun k hk => slot_eq_iff.1 ((hslot k).trans (if_pos hk)),
    fun k hk => slot_eq_iff.1 ((hslot k).trans (if_neg hk)), hframe⟩

/-- Settles O24: the loop that enables the slots of a line, and the lowest of them by `enableResponse`. -/
theorem enableVecSetsOnlyTheEnableBit : Obligations.EnableVecSetsOnlyTheEnableBit := by
  refine fun line s => ⟨fun _ => decode_opcode (i := .enableVec line) ⟨fun _ => rfl, nofun⟩, fun l hl => ?_,
    exec_enableVec_noLine s⟩
  have hexec := exec_enableVec s hl
  have hslot := forAssigned_enable_slot s l
  have hframe := respond_of_offCntl (forAssigned_enable_rest s l) (forAssigned_enable_trace s l) (s.enableResponse l)
  generalize s.forAssigned l State.enableSlot = u at hexec hslot hframe
  exact ⟨_, hexec, fun k hk => vectCntl_of_slot ((hslot k).trans (if_pos hk)),
    fun k hk => vectCntl_of_slot ((hslot k).trans (if_neg hk)), fun _ => enableResponse_of_lowest, enableResponse_of_none,
    hframe⟩

/-- Settles O25: the loop that disables the slots of a line. -/
theorem disableVecClearsOnlyTheEnableBit : Obligations.DisableVecClearsOnlyTheEnableBit := by
  refine fun line s => ⟨fun _ => decode_opcode (i := .disableVec line) ⟨fun _ => rfl, nofun⟩, fun l hl => ?_,
    exec_disableVec_noLine s⟩
  have hexec := exec_disableVec s hl
  have hslot := forAssigned_disable_slot s l
  have hframe := respond_of_offCntl (forAssigned_disable_rest s l) (forAssigned_disable_trace s l) 0#32
  generalize s.forAssigned l State.disableSlot = u at hexec hslot hframe
  exact ⟨_, hexec, fun k hk => vectCntl_of_slot ((hslot k).trans (if_pos hk)),
    fun k hk => vectCntl_of_slot ((hslot k).trans (if_neg hk)), hframe⟩

/-- Settles O26: the loop that disables every slot. -/
theorem disableAllVecClearsEveryEnableBit : Obligations.DisableAllVecClearsEveryEnableBit := by
  refine ⟨fun _ _ => decode_opcode (i := .disableAllVec) ⟨nofun, nofun⟩, fun s => ?_⟩
  have hexec := exec_disableAllVec s
  have hslot := forEverySlot_disable_slot s
  have hframe := respond_of_offCntl (forEverySlot_disable_rest s) (forEverySlot_disable_trace s) 0#32
  generalize s.forEverySlot State.disableSlot = u at hexec hslot hframe
  exact ⟨_, hexec, fun k => vectCntl_of_slot (hslot k), hframe⟩

/-- Settles O27: the loop that releases every slot. -/
theorem unregisterAllVecFreesEverySlot : Obligations.UnregisterAllVecFreesEverySlot := by
  refine ⟨fun _ _ => decode_opcode (i := .unregisterAllVec) ⟨nofun, nofun⟩, fun s => ?_⟩
  have hexec := exec_unregisterAllVec s
  have hslot := forEverySlot_release_slot s
  have hframe := respond_of_offSlots (forEverySlot_release_rest s) (forEverySlot_release_trace s) 0#32
  generalize s.forEverySlot State.releaseSlot = u at hexec hslot hframe
  exact ⟨_, hexec, fun k => slot_eq_iff.1 (hslot k), hframe⟩

/-! ## `SET_DEFAULT_VEC` (R203) -/

/-- Settles O28: the two answers of the command; the writers of `DEFVECTADDR` are those of `eachStateHasItsWriters`. -/
theorem setDefaultVecStoresTheAddress : Obligations.SetDefaultVecStoresTheAddress := by
  refine fun routine s => ⟨fun _ => decode_opcode (i := .setDefaultVec routine) ⟨nofun, fun _ => rfl⟩, fun i t h => ?_,
    exec_setDefaultVec s, ?_⟩
  · obtain ⟨-, -, -, -, -, -, -, -, hwriters, -⟩ := eachStateHasItsWriters.1 i s t
      (fun r => ∃ off v, i = .regWrite off v ∧ registerAt s.params.offsets off = some r) h fun _ => Iff.rfl
    exact hwriters
  · rintro rfl
    rfl

/-! ## What the family leaves alone (R190) -/

/-- The commands of 43_vector_slots are among those that complete in every state. -/
theorem quietCommand_of_vectorSlot {i : Instr} (h : vectorSlotCommand i = true) : quietCommand i = true := by
  cases i with
  | relocate | dispatch | regRead | regWrite => exact h
  | _ => rfl

/-- The commands of 43_vector_slots change the slots, the default address, the response and the observations, and nothing
else (R190). -/
theorem vectorSlot_frame {i : Instr} {s t : State} (hi : vectorSlotCommand i = true) (h : exec i s = .next t) :
    t = { s with
      slotLine := t.slotLine, vectCntl := t.vectCntl, vectAddr := t.vectAddr, defVectAddr := t.defVectAddr,
      resp := t.resp, trace := t.trace } := by
  cases exec_footprint h with
  | registerVec | unregisterVec | enableVec | disableVec | disableAllVec | unregisterAllVec | setDefaultVec => rfl
  | _ => exact absurd hi Bool.false_ne_true

/-- Settles O29: each command completes, as `exec_quiet` says, stays in the frame of its family, and does not see the mode. -/
theorem slotCommandsLeaveTheLinesAlone : Obligations.SlotCommandsLeaveTheLinesAlone := by
  refine fun i s hi => ⟨?_, fun m t h => ?_⟩
  · obtain ⟨u, v, -, h⟩ := exec_quiet i s (quietCommand_of_vectorSlot hi)
    generalize u.respond v = t at h
    refine ⟨t, h, ?_⟩
    rw [vectorSlot_frame hi h]
    exact ⟨rfl, rfl, rfl, rfl, rfl, rfl, rfl, rfl, rfl, fun _ => rfl⟩
  · have hmode := exec_withMode m s (i := i) (by rintro rfl; exact absurd hi nofun) (by rintro a rfl; exact absurd hi nofun)
      (by rintro rfl; exact absurd hi nofun)
    exact hmode.trans (congrArg (mapNext (State.withMode m)) h)

/-! ## First-fit over a sequence of commands (R192) -/

/-- A `REGISTER_VEC` that gave `t` failed, or bound the slot first-fit allocated to the line (R191). -/
theorem registerVec_next {line r : Word} {s t : State} (h : exec (.registerVec line r) s = .next t) :
    t.resp = failWord ∨ ∃ (l : Line) (k : Slot), line.toNat = l.val ∧ s.allocate l = some k ∧
      t = (s.bindSlot k l r).respond (slotWord k) := by
  have failed (hfail) : t.resp = failWord :=
    congrArg State.resp (Host.Outcome.next.inj (h.symm.trans (exec_registerVec_fail s hfail)))
  rcases Nat.lt_or_ge line.toNat 32 with hline | hline
  · have hl : line.toNat = (⟨line.toNat, hline⟩ : Line).val := rfl
    by_cases hr : r = 0#32
    · exact .inl (failed (.inr (.inl hr)))
    · cases hk : s.allocate ⟨line.toNat, hline⟩ with
      | none => exact .inl (failed (.inr (.inr fun l hl' => Fin.ext (hl.symm.trans hl') ▸ hk)))
      | some k => exact .inr ⟨_, k, hl, hk, Host.Outcome.next.inj (h.symm.trans (exec_registerVec s hl hr hk))⟩
  · exact .inl (failed (.inl hline))

/-- The slots first-fit passes over are not assigned to the line. -/
theorem slotLine_ne_of_lt_allocate {s : State} {l : Line} {j k : Slot} (h : s.allocate l = some k) (hj : j < k) :
    s.slotLine[j] ≠ some l := by
  rcases (allocate_eq_some_iff s l k).1 h with ⟨-, hlow⟩ | ⟨hnone, -⟩
  · exact hlow j hj
  · exact hnone j

/-- A response does not change what first-fit allocates. -/
@[simp] theorem respond_allocate (s : State) (v : Word) (l : Line) : (s.respond v).allocate l = s.allocate l := rfl

/-- A line bound to the slot first-fit allocates has its slot found again (R192 (a)). -/
theorem allocate_bindSlot {s : State} {l : Line} {k : Slot} {r : Word} (h : s.allocate l = some k) :
    (s.bindSlot k l r).allocate l = some k := by
  refine (allocate_eq_some_iff _ _ _).2 (.inl ⟨slotLine_of_slot (bindSlot_self s k l r), fun j hj => ?_⟩)
  rw [slotLine_of_slot (bindSlot_other s j k l r hj.ne)]
  exact slotLine_ne_of_lt_allocate h hj

/-- Settles O30: the slot bound by the first registration is the one the second allocates. -/
theorem reRegistrationReusesTheSlot : Obligations.ReRegistrationReusesTheSlot := by
  intro line r r' s t h hresp hr'
  rcases registerVec_next h with hfail | ⟨l, k, hl, hk, ht⟩
  · exact absurd hfail hresp
  · have hagain : t.allocate l = some k := by rw [ht, respond_allocate, allocate_bindSlot hk]
    exact ⟨_, exec_registerVec t hl hr' hagain, by rw [ht, State.respond_resp, State.respond_resp]⟩

/-- The slots are assigned, from slot 0 on, to the lines `ws` in their order, and the slots above are free. -/
def State.AssignedInOrder (s : State) (ws : List Word) : Prop :=
  ∀ k : Slot, s.slotLine[k].map lineWord = ws[k.val]?

theorem lineWord_of_toNat {line : Word} {l : Line} (h : line.toNat = l.val) : lineWord l = line := by
  rw [lineWord, ← h, BitVec.ofNat_toNat, BitVec.setWidth_eq]

section
variable {s : State} {ws : List Word} (hs : s.AssignedInOrder ws)
include hs

theorem State.AssignedInOrder.free {k : Slot} : s.slotLine[k] = none ↔ ws.length ≤ k.val := by
  rw [← List.getElem?_eq_none_iff, ← hs k, Option.map_eq_none_iff]

theorem State.AssignedInOrder.ne_some {line : Word} {l : Line} (hl : line.toNat = l.val) (hnew : line ∉ ws) (k : Slot) :
    s.slotLine[k] ≠ some l := by
  intro hk
  have hword := hs k
  rw [hk, Option.map_some, lineWord_of_toNat hl] at hword
  exact hnew (List.mem_of_getElem? hword.symm)

/-- A new line gets the slot above those assigned (R191). -/
theorem State.AssignedInOrder.allocate_next {line : Word} {l : Line} (hl : line.toNat = l.val) (hnew : line ∉ ws)
    {k : Slot} (hk : k.val = ws.length) : s.allocate l = some k := by
  refine (allocate_eq_some_iff s l k).2 (.inr ⟨hs.ne_some hl hnew, hs.free.2 hk.ge, fun j hj => ?_⟩)
  exact mt hs.free.1 (not_le.2 (hk ▸ hj))

/-- With 16 lines assigned a new line gets no slot (R191). -/
theorem State.AssignedInOrder.allocate_full {line : Word} {l : Line} (hl : line.toNat = l.val) (hnew : line ∉ ws)
    (hfull : ws.length = 16) : s.allocate l = none :=
  (allocate_eq_none_iff s l).2 fun k => ⟨hs.ne_some hl hnew k, mt hs.free.1 (by omega)⟩

/-- Binding the slot above those assigned appends its line (R191). -/
theorem State.AssignedInOrder.bindSlot {line : Word} {l : Line} (hl : line.toNat = l.val) {k : Slot}
    (hk : k.val = ws.length) (r : Word) : (s.bindSlot k l r).AssignedInOrder (ws ++ [line]) := by
  intro j
  by_cases hj : j = k
  · subst hj
    rw [slotLine_of_slot (bindSlot_self s j l r), Option.map_some, lineWord_of_toNat hl, hk, List.getElem?_concat_length]
  · have hne : j.val ≠ ws.length := fun h => hj (Fin.ext (h.trans hk.symm))
    rw [slotLine_of_slot (bindSlot_other s j k l r hj), List.getElem?_append]
    refine (hs j).trans ?_
    split
    · rfl
    · rw [List.getElem?_eq_none (by omega), List.getElem?_eq_none (by simp; omega)]

/-- Registering a new line when slots are free: it gets the next slot (R191). -/
theorem State.AssignedInOrder.registerNew {line r : Word} (hline : line.toNat < 32) (hr : r ≠ 0#32)
    (hnew : line ∉ ws) (hroom : ws.length < 16) : ∃ t : State, exec (.registerVec line r) s = .next t ∧
      t.resp = BitVec.ofNat 32 ws.length ∧ t.AssignedInOrder (ws ++ [line]) := by
  have hl : line.toNat = (⟨line.toNat, hline⟩ : Line).val := rfl
  have hk : (⟨ws.length, hroom⟩ : Slot).val = ws.length := rfl
  exact ⟨_, exec_registerVec s hl hr (hs.allocate_next hl hnew hk), rfl, hs.bindSlot hl hk r⟩

end

/-- Commands one after another, the first one run (00_scope R15). -/
theorem execAll_cons {i : Instr} {is : List Instr} {s t u : State} {rs : List Word} (h : exec i s = .next t)
    (hrest : execAll is t = some (u, rs)) : execAll (i :: is) s = some (u, t.resp :: rs) := by
  simp only [execAll, h, hrest]

/-- Registrations of distinct new lines get the slots above those assigned, in order, as far as there are slots. -/
theorem State.AssignedInOrder.registerAll (regs : List (Word × Word)) {s : State} {ws : List Word}
    (hs : s.AssignedInOrder ws) (hroom : ws.length + regs.length ≤ 16) (hdistinct : (ws ++ regs.map Prod.fst).Nodup)
    (hlegal : ∀ p ∈ regs, p.1.toNat < 32 ∧ p.2 ≠ 0#32) : ∃ t : State,
      execAll (regs.map fun p => .registerVec p.1 p.2) s =
        some (t, (List.range' ws.length regs.length).map (BitVec.ofNat 32)) ∧
      t.AssignedInOrder (ws ++ regs.map Prod.fst) := by
  induction regs generalizing s ws with
  | nil => exact ⟨s, rfl, by simpa using hs⟩
  | cons p regs ih =>
    obtain ⟨⟨hline, hr⟩, hlegal⟩ := List.forall_mem_cons.1 hlegal
    rw [List.length_cons] at hroom
    have hnew : p.1 ∉ ws := fun hp => (List.nodup_append.1 hdistinct).2.2 p.1 hp p.1 (by simp) rfl
    obtain ⟨t, ht, hresp, hassigned⟩ := hs.registerNew hline hr hnew (by omega)
    rw [List.map_cons, List.append_cons] at hdistinct
    obtain ⟨u, hu, hlast⟩ := ih hassigned (by rw [List.length_append, List.length_singleton]; omega) hdistinct hlegal
    refine ⟨u, ?_, by rwa [List.map_cons, List.append_cons]⟩
    rw [List.length_append, List.length_singleton] at hu
    rw [List.length_cons, List.map_cons, List.range'_succ, List.map_cons, ← hresp]
    exact execAll_cons ht hu

/-- Settles O31: from no line assigned, 16 registrations assign all slots in order, and first-fit then finds none. -/
theorem sixteenLinesThenExhaustion : Obligations.SixteenLinesThenExhaustion := by
  intro s regs hfree hlen hdistinct hlegal
  have hnone : s.AssignedInOrder [] := fun k => by rw [hfree k]; rfl
  obtain ⟨t, hrun, ht⟩ := hnone.registerAll regs (by rw [hlen]; decide) (by simpa using hdistinct) hlegal
  refine ⟨t, by rw [hrun, hlen, List.range_eq_range']; rfl, fun line r _ _ hnew => ?_⟩
  exact exec_registerVec_fail t (.inr (.inr fun l hl => ht.allocate_full hl hnew (by simp [hlen])))

/-- First-fit gives a line without a slot a free slot exactly when no lower slot is free (R191). -/
theorem allocate_free_iff {s : State} {l : Line} {k : Slot} (hl : ∀ j : Slot, s.slotLine[j] ≠ some l)
    (hk : s.slotLine[k] = none) : s.allocate l = some k ↔ ∀ j : Slot, j < k → s.slotLine[j] ≠ none := by
  rw [allocate_eq_some_iff]
  constructor
  · rintro (⟨hheld, -⟩ | ⟨-, -, hlow⟩)
    · exact absurd hheld (hl k)
    · exact hlow
  · exact fun hlow => .inr ⟨hl, hk, hlow⟩

/-- A slot `UNREGISTER_VEC` finds assigned to its line is free after it (R193). -/
theorem unregisterVec_frees {line : Word} {l : Line} {s t : State} {k : Slot} (hl : line.toNat = l.val)
    (hk : s.slotLine[k] = some l) (h : exec (.unregisterVec line) s = .next t) : t.slotLine[k] = none := by
  have hexec := exec_unregisterVec s hl
  have hslot := (forAssigned_release_slot s l k).trans (if_pos hk)
  generalize s.forAssigned l State.releaseSlot = u at hexec hslot
  cases hexec.symm.trans h
  exact slotLine_of_slot hslot

/-- Settles O32: the freed slot leaves first-fit a slot to give, and `allocate_free_iff` says when it is that one. -/
theorem freedSlotIsReusedWhenLowest : Obligations.FreedSlotIsReusedWhenLowest := by
  intro line line' r l l' s t k hline hline' hr hheld h hnone
  have hfreed := unregisterVec_frees hline hheld h
  cases halloc : t.allocate l' with
  | none =>
    obtain ⟨-, hused⟩ := (allocate_eq_none_iff t l').1 halloc k
    exact absurd hfreed hused
  | some m =>
    refine ⟨_, exec_registerVec t hline' hr halloc, ?_⟩
    rw [← allocate_free_iff hnone hfreed, halloc, Option.some.injEq]
    exact ⟨slotWord_injective, congrArg slotWord⟩

end Sys2Proof.Machine
end

section
/-!
PROOFS about `DISPATCH` (44_dispatch R211 to R221): the whole next state of its start and of each return in both modes, a
whole non-vectored `DISPATCH`, and what it leaves alone.
-/
namespace Sys2Proof.Machine

/-! ## The start of a `DISPATCH` and its scan (R212, R213) -/

section
variable {s : State}

theorem exec_dispatch_nonVectored (hidle : s.dispatch = .idle) (hmode : s.mode = .nonVectored) :
    exec .dispatch s = .next (scanFrom s.irqStatus 0 (s.observe (.regRead .irqStatus s.irqStatus))) := by
  simp only [exec, execDispatch, (dispBusy_eq_false s).2 hidle, hmode, Bool.false_eq_true, if_false]
  rfl

theorem exec_dispatch_vectored (hidle : s.dispatch = .idle) (hmode : s.mode = .vectored) (hfree : s.inService = false) :
    exec .dispatch s = .next { s with
      inService := true, dispatch := .vectored,
      trace := s.trace ++ [.regRead .vectAddr s.curVect, .call s.curVect] } := by
  simp [exec, execDispatch, (dispBusy_eq_false s).2 hidle, hmode, dispatchVectored, regRead_vectAddr hfree, State.invoke,
    State.observe]

theorem exec_dispatch_inService (hidle : s.dispatch = .idle) (hmode : s.mode = .vectored) (hbusy : s.inService = true) :
    exec .dispatch s = .fault .vectaddrReadTwice := by
  simp only [exec, execDispatch, (dispBusy_eq_false s).2 hidle, hmode, dispatchVectored, regRead_vectAddr_twice hbusy,
    Bool.false_eq_true, if_false]

theorem exec_dispatch_reentered (h : s.dispBusy = true) : exec .dispatch s = .fault .dispatchReentered := by
  simp only [exec, execDispatch, h, if_true]

end

section
variable {snap : Word} {start : Nat} (s : State) (e : Event)

/-- After an observation a scan calls the table entry of its next line (R212). -/
theorem scanFrom_of_some {i : Line} (h : nextLine snap start = some i) : scanFrom snap start (s.observe e) =
    { s with dispatch := .nonVectored snap i, trace := s.trace ++ [e, .call s.nvTable[i]] } := by
  simp [scanFrom, h, State.invoke, State.observe]

/-- After an observation a scan with no line left ends the command (R212). -/
theorem scanFrom_of_none (h : nextLine snap start = none) : scanFrom snap start (s.observe e) =
    { s with dispatch := .idle, resp := 0#32, trace := s.trace ++ [e, .response 0#32] } := by
  simp [scanFrom, h, State.finishDispatch, State.respond, State.observe]

end

/-- Settles O33: the start and each return are one scan, and `nextLine_eq_some` and `nextLine_eq_none` say where it stops. -/
theorem nonVectoredDispatchScansTheSnapshot : Obligations.NonVectoredDispatchScansTheSnapshot := by
  refine ⟨fun s snap hidle hmode hsnap => ?_, fun s snap i hi => ?_⟩
  · obtain rfl : snap = s.irqStatus := hsnap
    rw [exec_dispatch_nonVectored hidle hmode]
    refine ⟨fun hzero => ?_, fun i hbit hlow => ?_⟩
    · rw [scanFrom_of_none s _ ((nextLine_eq_none _ _).2 fun j _ => by simp [hzero]), ← hidle]
    · rw [scanFrom_of_some s _ ((nextLine_eq_some _ _ i).2 ⟨Nat.zero_le _, hbit, fun j _ => hlow j⟩)]
  · rw [routineReturn_nonVectored hi]
    refine ⟨fun hnone => ?_, fun j hij hbit hbetween => ?_⟩
    · rw [scanFrom_of_none s _ ((nextLine_eq_none _ _).2 hnone)]
    · rw [scanFrom_of_some s _ ((nextLine_eq_some _ _ j).2 ⟨hij, hbit, hbetween⟩)]

/-- Settles O35: the two answers of the start of a vectored `DISPATCH`, and its return. -/
theorem vectoredDispatchReadsCallsWrites : Obligations.VectoredDispatchReadsCallsWrites :=
  ⟨fun _ _ => decode_opcode (i := .dispatch) ⟨nofun, nofun⟩,
    fun _ hidle hmode => ⟨exec_dispatch_vectored hidle hmode, exec_dispatch_inService hidle hmode⟩,
    fun _ => routineReturn_vectored⟩

/-- Settles O37: the first test of each of the two commands. -/
theorem reentryFaults : Obligations.ReentryFaults :=
  fun _ h => ⟨exec_dispatch_reentered h, relocate_inHandler h⟩

/-! ## A whole non-vectored `DISPATCH` (R212, R218) -/

/-- The lines of a snapshot at or above `start`, in ascending order: those a scan from `start` on still serves. -/
def linesFrom (snap : Word) (start : Nat) : List Line :=
  allLines.filter fun i => decide (start ≤ i.val) && snap.getLsbD i.val

theorem linesFrom_zero (snap : Word) : linesFrom snap 0 = linesOf snap := by simp [linesFrom, linesOf]

/-- The next line of a scan is the first of the lines it still serves. -/
theorem nextLine_eq_head (snap : Word) (start : Nat) : nextLine snap start = (linesFrom snap start).head? :=
  List.head?_filter.symm

/-- Above the next line of a scan the lines still to serve are the others. -/
theorem linesFrom_succ {snap : Word} {start : Nat} {i : Line} {ls : List Line} (h : linesFrom snap start = i :: ls) :
    linesFrom snap (i.val + 1) = ls := by
  have hi : start ≤ i.val := by
    have hmem : i ∈ linesFrom snap start := h ▸ List.mem_cons_self
    obtain ⟨-, hkept⟩ := List.mem_filter.1 hmem
    exact of_decide_eq_true (Bool.and_eq_true_iff.1 hkept).1
  have hsorted : (i :: ls).Pairwise (· < ·) := h ▸ (List.pairwise_lt_finRange 32).filter _
  have habove : ∀ j ∈ ls, i < j := (List.pairwise_cons.1 hsorted).1
  calc linesFrom snap (i.val + 1) = (linesFrom snap start).filter (fun j => decide (i < j)) := by
        rw [linesFrom, linesFrom, List.filter_filter]
        refine List.filter_congr fun j _ => ?_
        have hstart : i < j → start ≤ j.val := fun hij => hi.trans (Fin.le_of_lt hij)
        by_cases hij : i < j
        · simp [hij, hstart hij]
        · simp [hij]
    _ = ls := by
        rw [h, List.filter_cons_of_neg (by simp), List.filter_eq_self.2 fun j hj => by simpa using habove j hj]

/-- After an observation a scan whose routines return without a move of their own: one call and one return for each line
still to serve, then the response (R212, R216). -/
theorem scanFrom_runs_to_end {snap : Word} {rest : List Move} (ls : List Line) {start : Nat} {s : State} (e : Event)
    (hls : linesFrom snap start = ls) (hj : s.job = none)
    (hm : s.moves = List.replicate ls.length .routineReturn ++ rest) :
    runsTo ls.length (scanFrom snap start (s.observe e)) { s with
      dispatch := .idle, moves := rest, resp := 0#32,
      trace := s.trace ++ [e] ++ ls.flatMap (fun i => [.call s.nvTable[i], .ret]) ++ [.response 0#32] } := by
  have hnext := nextLine_eq_head snap start
  rw [hls] at hnext
  induction ls generalizing start s e with
  | nil =>
    obtain rfl : s.moves = rest := hm
    rw [scanFrom_of_none s e hnext]
    simp [runsTo, Host.Core.run]
  | cons i ls ih =>
    rw [scanFrom_of_some s e hnext]
    have hm' : s.moves = .routineReturn :: (List.replicate ls.length .routineReturn ++ rest) := hm
    have hreturn := (step_routineReturn_free
      (s := { s with dispatch := .nonVectored snap i, trace := s.trace ++ [e, .call s.nvTable[i]] }) hm' hj).trans
      (routineReturn_nonVectored rfl)
    have habove := linesFrom_succ hls
    have hrun := run_add _ _ (run_one hreturn)
      (ih .ret habove hj rfl (by rw [nextLine_eq_head, habove]))
    rw [List.length_cons, Nat.add_comm]
    simpa using hrun

/-- Settles O34: the start of the command is a scan of the whole snapshot. -/
theorem wholeNonVectoredDispatch : Obligations.WholeNonVectoredDispatch := by
  intro s rest hj hidle hmode hm
  have hstart := (step_present_decoded hj hm (decodeOfEncodeIsTheCommand .dispatch)).trans
    (exec_dispatch_nonVectored hidle hmode)
  have hrun := run_add _ _ (run_one hstart) (scanFrom_runs_to_end _ _ (linesFrom_zero _) hj rfl)
  exact hrun.trans (by rw [← hidle]; rfl)

/-! ## What moves a `DISPATCH`, and what it leaves alone (R211, R216, R221) -/

theorem nextAccess_dispatch (j : CommandJob) (s : State) : (nextAccess j s).dispatch = s.dispatch := by
  obtain ⟨-, hdispatch, -⟩ := nextAccess_frame j s
  exact hdispatch

/-- A command that completes inside a service routine leaves the sequencer as it is. -/
theorem exec_dispatch_kept {i : Instr} {s t : State} (hbusy : s.dispBusy = true) (h : exec i s = .next t) :
    t.dispatch = s.dispatch := by
  cases exec_footprint h with
  | dispatch => exact nomatch (exec_dispatch_reentered hbusy).symm.trans h
  | _ => simp

/-- So does the first access of a command. -/
theorem startInstr_dispatch_kept {i : Instr} {s t : State} (hbusy : s.dispBusy = true) (h : startInstr i s = .next t) :
    t.dispatch = s.dispatch := by
  rcases startInstr_next h with ⟨-, hdisp⟩ | ⟨-, u, -, rfl⟩
  · exact exec_dispatch_kept hbusy hdisp
  · exact nextAccess_dispatch _ s

/-- Settles O38: each move of `step_next` but a return. -/
theorem onlyAReturnMovesADispatch : Obligations.OnlyAReturnMovesADispatch := by
  intro s t hbusy h hmove
  rcases step_next h with ⟨-, rfl⟩ | ⟨cw, rest, i, -, -, -, hi⟩ | ⟨cw, rest, i, -, -, -, hi⟩ |
    ⟨rest, j, -, -, rfl⟩ | ⟨v, rest, -, rfl⟩ | ⟨rest, hm, -, -⟩
  · rfl
  · exact exec_dispatch_kept (s := { s with moves := rest }) hbusy hi
  · exact startInstr_dispatch_kept (s := { s with moves := rest }) hbusy hi
  · exact nextAccess_dispatch j { s with moves := rest }
  · rfl
  · exact absurd (by rw [hm]; rfl) hmove

/-- From `s` to `t` the only register written is `VECTADDR`, if any is. -/
def WritesVectAddrAlone (s t : State) : Prop :=
  ∃ es : List Event, t.trace = s.trace ++ es ∧ ∀ r v, Event.regWrite r v ∈ es → r = .vectAddr

/-- A scan calls or responds (R212). -/
theorem scanFrom_writesVectAddrAlone (snap : Word) (start : Nat) (s : State) {e : Event} (he : ∀ r v, e ≠ .regWrite r v) :
    WritesVectAddrAlone s (scanFrom snap start (s.observe e)) := by
  cases h : nextLine snap start with
  | none => exact scanFrom_of_none s e h ▸ ⟨_, rfl, by simp [(he _ _).symm]⟩
  | some i => exact scanFrom_of_some s e h ▸ ⟨_, rfl, by simp [(he _ _).symm]⟩

theorem dispatch_writesVectAddrAlone {s t : State} (h : exec .dispatch s = .next t) : WritesVectAddrAlone s t := by
  rcases dispatch_next h with ⟨-, ⟨-, rfl⟩ | ⟨-, -, rfl⟩⟩
  · exact scanFrom_writesVectAddrAlone _ _ s (by simp)
  · exact ⟨_, rfl, by simp⟩

theorem return_writesVectAddrAlone {s t : State} (h : routineReturn s = .next t) : WritesVectAddrAlone s t := by
  rcases return_next h with ⟨snap, i, -, rfl⟩ | ⟨-, rfl⟩
  · exact scanFrom_writesVectAddrAlone _ _ s (by simp)
  · exact ⟨_, rfl, by simp⟩

/-- Settles O40: the frames of the two, and the one register they write is no clear register. -/
theorem dispatchClearsNothing : Obligations.DispatchClearsNothing := by
  intro s t h
  obtain ⟨es, htr, hwrites⟩ : WritesVectAddrAlone s t := h.elim dispatch_writesVectAddrAlone return_writesVectAddrAlone
  have hclear : ∀ v, Event.regWrite .intEnClear v ∉ es ∧ Event.regWrite .softIntClear v ∉ es := fun v =>
    ⟨fun hmem => (nomatch hwrites _ v hmem), fun hmem => (nomatch hwrites _ v hmem)⟩
  obtain ⟨b, d, tr, v, rfl⟩ : ∃ b d tr v, t = { s with inService := b, dispatch := d, trace := tr, resp := v } :=
    h.elim dispatch_frame fun h => ⟨_, _, _, _, return_frame h⟩
  exact ⟨rfl, rfl, rfl, rfl, rfl, rfl, rfl, rfl, rfl, rfl, rfl, fun _ => rfl, es, htr, hclear⟩

/-! ## The routine of the only pending line (R219 (d), (e)) -/

section
variable {s : State} {l : Line} (hs : s.SlotsSound) (hpending : s.irqStatus = lineBit l)
include hs hpending

/-- With one line pending a matching slot is assigned to it: a free slot is not enabled (10_state R46). -/
theorem slotLine_of_slotMatches {k : Slot} (hk : s.slotMatches k = true) : s.slotLine[k] = some l := by
  obtain ⟨⟨hfree, hbound, -⟩, -⟩ := hs
  obtain ⟨henabled, hline⟩ := Bool.and_eq_true_iff.1 hk
  rw [hpending, lineBit_getLsbD] at hline
  cases hl : s.slotLine[k] with
  | none =>
    rw [(hfree k hl).1] at henabled
    exact absurd henabled (by decide)
  | some m => rw [← (hbound k m hl).1, of_decide_eq_true hline]

/-- With no slot assigned to the one pending line the multiplexer gives the default address. -/
theorem curVect_of_unassigned (hnone : ∀ k : Slot, s.slotLine[k] ≠ some l) : s.curVect = s.defVectAddr :=
  curVect_of_none s fun k => Bool.eq_false_iff.2 fun hk => hnone k (slotLine_of_slotMatches hs hpending hk)

/-- With an enabled slot assigned to the one pending line the multiplexer gives its routine: no other slot holds the line
(10_state R47). -/
theorem curVect_of_assigned {k : Slot} (hk : s.slotLine[k] = some l) (henabled : cntlEnabled s.vectCntl[k] = true) :
    s.curVect = s.vectAddr[k] := by
  have hholds {j : Slot} : s.slotMatches j = true → s.slotLine[j] = some l := slotLine_of_slotMatches hs hpending
  obtain ⟨⟨-, hbound, -⟩, hdistinct⟩ := hs
  have hmatch : s.slotMatches k = true := by
    refine Bool.and_eq_true_iff.2 ⟨henabled, ?_⟩
    rw [(hbound k l hk).1, hpending, lineBit_getLsbD, decide_eq_true rfl]
  refine curVect_of_lowest s k hmatch fun j hj => Bool.eq_false_iff.2 fun hjm => ?_
  exact hj.ne (hdistinct j k l (hholds hjm) hk)

end

/-- A register bound to a line is enabled (R191). -/
theorem cntlEnabled_bound (l : Line) : cntlEnabled (BitVec.ofNat 6 l.val ||| 0x20#6) = true := by revert l; decide

/-- Line `l` is the only pending IRQ line, the slots are as the engine keeps them, and a vectored `DISPATCH` can start. -/
structure OnlyPending (l : Line) (s : State) : Prop where
  sound : s.SlotsSound
  pending : s.irqStatus = lineBit l
  mode : s.mode = .vectored
  idle : s.dispatch = .idle
  inService : s.inService = false

section
variable {s : State} {l : Line} (h : OnlyPending l s)
include h

/-- Then `DISPATCH` reads and calls what the multiplexer gives (R213). -/
theorem OnlyPending.dispatch : ∃ t : State, exec .dispatch s = .next t ∧
    t.trace = s.trace ++ [.regRead .vectAddr s.curVect, .call s.curVect] :=
  ⟨_, exec_dispatch_vectored h.idle h.mode h.inService, rfl⟩

/-- After `UNREGISTER_VEC` of the line the situation is the same, and the multiplexer gives the default address (R193). -/
theorem OnlyPending.unregister {line : Word} (hl : line.toNat = l.val) : ∃ t : State,
    exec (.unregisterVec line) s = .next t ∧ OnlyPending l t ∧ t.curVect = s.defVectAddr := by
  have hexec := exec_unregisterVec s hl
  have hsound := h.sound.releaseLine l
  have hslot := forAssigned_release_slot s l
  obtain ⟨sl, cntl, addr, tr, hrest⟩ := eq_of_offSlots (forAssigned_release_rest s l)
  rw [hrest] at hexec hsound hslot
  refine ⟨_, hexec, ⟨hsound.respond _, h.pending, h.mode, h.idle, h.inService⟩,
    curVect_of_unassigned (hsound.respond _) h.pending fun k hk => ?_⟩
  have hfreed := (slotLine_of_slot (hslot k)).symm.trans hk
  split at hfreed
  · exact nomatch hfreed
  · next hother => exact hother hfreed

/-- With a slot bound to the line the multiplexer gives its routine (R191). -/
theorem OnlyPending.curVect_of_bound {k : Slot} {r : Word}
    (hk : s.slot k = (some l, BitVec.ofNat 6 l.val ||| 0x20#6, r)) : s.curVect = r := by
  obtain ⟨hline, hcntl, haddr⟩ := slot_eq_iff.1 hk
  rw [← haddr]
  exact curVect_of_assigned h.sound h.pending hline (by rw [hcntl, cntlEnabled_bound])

end

/-- A registration that does not fail binds a slot to its line, and the slots stay as the engine keeps them (R191). -/
theorem registerVec_binds {s t : State} {l : Line} {line r : Word} (hs : s.SlotsSound) (hl : line.toNat = l.val)
    (hr : r ≠ 0#32) (h : exec (.registerVec line r) s = .next t) (hresp : t.resp ≠ failWord) :
    t.SlotsSound ∧ ∃ k, t.slot k = (some l, BitVec.ofNat 6 l.val ||| 0x20#6, r) := by
  obtain ⟨l', k, hl', halloc, rfl⟩ := (registerVec_next h).resolve_left hresp
  obtain rfl : l' = l := Fin.ext (hl'.symm.trans hl)
  exact ⟨(hs.bindSlot hr (allocate_holds hs.2 halloc)).respond _, k, bindSlot_self s k l' r⟩

/-- Settles O39: after the two commands a slot is bound to the only pending line; after `UNREGISTER_VEC` none is. -/
theorem registeredLineIsServedByItsRoutine : Obligations.RegisteredLineIsServedByItsRoutine := by
  intro s t1 t2 l line r hcons hdistinct hmode hidle hin hl hr h1 hresp h2 hpending
  obtain ⟨hsound, k, hbound⟩ := registerVec_binds ⟨hcons, hdistinct⟩ hl hr h1 hresp
  obtain ⟨hready, hbound2, hdef⟩ : OnlyPending l t2 ∧ t2.slot k = t1.slot k ∧ t2.defVectAddr = s.defVectAddr := by
    cases exec_footprint h1
    cases exec_footprint h2
    exact ⟨⟨hsound, hpending, hmode, hidle, hin⟩, rfl, rfl⟩
  obtain ⟨t3, h3, htrace3⟩ := hready.dispatch
  obtain ⟨t4, h4, hready4, hdefault⟩ := hready.unregister hl
  obtain ⟨t5, h5, htrace5⟩ := hready4.dispatch
  rw [hready.curVect_of_bound (hbound2.trans hbound)] at htrace3
  rw [hdefault, hdef] at htrace5
  exact ⟨⟨t3, h3, htrace3⟩, t4, t5, h4, h5, htrace5⟩

end Sys2Proof.Machine
end

section
/-!
PROOFS about the addresses a `DISPATCH` invokes (44_dispatch R215): the calls of a step, and that no step puts a null routine
into the non-vectored table.
-/
namespace Sys2Proof.Machine

/-! ## The calls of a step -/

/-- Every call observed from `s` to `t` is of an address that `P` admits. -/
def Calls (P : Word → Prop) (s t : State) : Prop :=
  ∃ es : List Event, t.trace = s.trace ++ es ∧ ∀ a, Event.call a ∈ es → P a

/-- Nothing is called from `s` to `t`. -/
abbrev CallsNothing (s t : State) : Prop := Calls (fun _ => False) s t

theorem Calls.mono {P Q : Word → Prop} {s t : State} (h : Calls P s t) (himp : ∀ a, P a → Q a) : Calls Q s t := by
  obtain ⟨es, htr, hcalls⟩ := h
  exact ⟨es, htr, fun a ha => himp a (hcalls a ha)⟩

theorem CallsNothing.calls {P : Word → Prop} {s t : State} (h : CallsNothing s t) : Calls P s t :=
  h.mono fun _ => False.elim

/-- An observation that is no call, before the calls of the rest. -/
theorem Calls.of_observe {P : Word → Prop} {s t : State} {e : Event} (he : ∀ a, e ≠ .call a)
    (h : Calls P (s.observe e) t) : Calls P s t := by
  obtain ⟨es, htr, hcalls⟩ := h
  refine ⟨e :: es, by simp [htr], fun a ha => ?_⟩
  exact hcalls a ((List.mem_cons.1 ha).resolve_left (he a).symm)

theorem Calls.drop {P : Word → Prop} {s t : State} (h : Calls P s t) {a : Word}
    (ha : Event.call a ∈ t.trace.drop s.trace.length) : P a := by
  obtain ⟨es, htr, hcalls⟩ := h
  exact hcalls a (by simpa [htr] using ha)

theorem ne_call_of_plain {e : Event} (h : e.isPlainAccess = true) (a : Word) : e ≠ .call a := by
  rintro rfl; exact absurd h nofun

theorem ne_call_of_memAccess {e : Event} (h : e.isMemAccess = true) (a : Word) : e ≠ .call a := by
  rintro rfl; exact absurd h nofun

/-- Only a `DISPATCH` calls (44_dispatch R216). -/
theorem exec_callsNothing {i : Instr} {s t : State} (hi : i ≠ .dispatch) (h : exec i s = .next t) :
    CallsNothing s t := by
  rcases instr_cases i with hq | rfl | rfl | ⟨off, rfl⟩ | ⟨off, v, rfl⟩
  · obtain ⟨u, v, hu, rfl⟩ := quiet_next hq h
    obtain ⟨es, htr, hplain, -⟩ := hu.trace
    refine ⟨es ++ [.response v], by simp [htr], fun a ha => ?_⟩
    exact ne_call_of_plain (hplain _ (by simpa using ha)) a rfl
  · obtain ⟨-, -, -, es, htr, hmem, -⟩ := relocate_next h
    refine ⟨es ++ [.response 0#32], by simp [htr], fun a ha => ?_⟩
    exact ne_call_of_memAccess (hmem _ (by simpa using ha)) a rfl
  · exact absurd rfl hi
  · obtain ⟨r, -, -, rfl⟩ := regRead_next h
    exact ⟨[.regRead r (s.readValue r), .response (s.readValue r)], by simp, by simp⟩
  · obtain ⟨r, -, rfl⟩ := regWrite_next h
    exact ⟨[.regWrite r v, .response 0#32], by simp, by simp⟩

/-- A command in progress performs no call (log 4). -/
theorem nextAccess_callsNothing (j : CommandJob) (s : State) : CallsNothing s (nextAccess j s) := by
  unfold nextAccess
  split
  · exact ⟨[], by simp, by simp⟩
  · rename_i e rest htodo
    cases e with
    | regRead r v => exact ⟨[.regRead r (State.readValue { s with job := some { j with todo := rest } } r)],
        by simp [performEvent], by simp⟩
    | regWrite r v => exact ⟨[.regWrite r v], by simp [performEvent], by simp⟩
    | memRead a v => exact ⟨[.memRead a (s.wordAt a.toNat)], rfl, by simp⟩
    | memWrite a v => exact ⟨[.memWrite a v], rfl, by simp⟩
    | response v => exact ⟨[.response v], rfl, by simp⟩
    | call a => exact ⟨[], by simp [performEvent], by simp⟩
    | ret => exact ⟨[], by simp [performEvent], by simp⟩

/-- What a step from `s` to `t` may call: the block is free, and the address is a table entry or, when a vectored `DISPATCH`
is left waiting, the multiplexer's answer (44_dispatch R212, R213). -/
def Invoked (s t : State) (a : Word) : Prop :=
  s.job = none ∧ ((t.dispatch ≠ .vectored ∧ ∃ i : Line, a = s.nvTable[i]) ∨ (t.dispatch = .vectored ∧ a = s.curVect))

/-- A scan calls the table entry of the line it stops at (44_dispatch R212). -/
theorem scanFrom_calls (snap : Word) (start : Nat) (s : State) :
    Calls (fun a => (scanFrom snap start s).dispatch ≠ .vectored ∧ ∃ i : Line, a = s.nvTable[i]) s
      (scanFrom snap start s) := by
  rcases scanFrom_cases snap start s with ⟨i, -, h⟩ | ⟨-, h⟩ <;> rw [h]
  · refine ⟨[.call s.nvTable[i]], rfl, fun a ha => ⟨nofun, i, ?_⟩⟩
    simpa using ha
  · exact ⟨[.response 0#32], rfl, by simp⟩

section
variable {s t : State} (hj : s.job = none)
include hj

theorem dispatch_calls (h : exec .dispatch s = .next t) : Calls (Invoked s t) s t := by
  rcases dispatch_next h with ⟨-, ⟨-, rfl⟩ | ⟨-, -, rfl⟩⟩
  · exact ((scanFrom_calls _ _ _).mono fun a ha => ⟨hj, .inl ha⟩).of_observe (by simp)
  · exact ⟨_, rfl, fun a ha => ⟨hj, .inr ⟨rfl, by simpa using ha⟩⟩⟩

theorem return_calls (h : routineReturn s = .next t) : Calls (Invoked s t) s t := by
  rcases return_next h with ⟨snap, i, -, rfl⟩ | ⟨-, rfl⟩
  · exact ((scanFrom_calls _ _ _).mono fun a ha => ⟨hj, .inl ha⟩).of_observe (by simp)
  · exact ⟨_, rfl, by simp⟩

theorem exec_calls {i : Instr} (h : exec i s = .next t) : Calls (Invoked s t) s t := by
  by_cases hi : i = .dispatch
  · subst hi; exact dispatch_calls hj h
  · exact (exec_callsNothing hi h).calls

theorem startInstr_calls {i : Instr} (h : startInstr i s = .next t) : Calls (Invoked s t) s t := by
  rcases startInstr_next h with ⟨-, hdisp⟩ | ⟨-, u, -, rfl⟩
  · exact dispatch_calls hj hdisp
  · exact (nextAccess_callsNothing _ s).calls

end

theorem step_calls {s t : State} (h : step s = .next t) : Calls (Invoked s t) s t := by
  rcases step_next h with ⟨-, rfl⟩ | ⟨cw, rest, i, -, hj, -, hi⟩ | ⟨cw, rest, i, -, hj, -, hi⟩ |
    ⟨rest, j, -, -, rfl⟩ | ⟨v, rest, -, rfl⟩ | ⟨rest, -, hj, hr⟩
  · exact ⟨[], by simp, by simp⟩
  · exact exec_calls (s := { s with moves := rest }) hj hi
  · exact startInstr_calls (s := { s with moves := rest }) hj hi
  · exact (nextAccess_callsNothing j { s with moves := rest }).calls
  · exact ⟨[], by simp, by simp⟩
  · exact return_calls (s := { s with moves := rest }) hj hr

/-! ## What can be called is not null -/

/-- A slot as the engine keeps it holds a routine that is not null, its own or the dummy one (10_state R46). -/
theorem vectAddr_ne_zero {s : State} (hd : s.params.dummyAddr ≠ 0#32) (hs : s.slotsConsistent) (k : Slot) :
    s.vectAddr[k] ≠ 0#32 := by
  obtain ⟨hfree, hbound, -⟩ := hs
  cases hl : s.slotLine[k] with
  | none => exact (hfree k hl).2 ▸ hd
  | some l => exact (hbound k l hl).2

/-- What the multiplexer answers over such slots (10_state R34). -/
theorem curVect_ne_zero {s : State} (hd : s.params.dummyAddr ≠ 0#32) (hs : s.slotsConsistent) :
    s.curVect ≠ 0#32 ∧ ((∃ k : Slot, s.curVect = s.vectAddr[k]) ∨ s.curVect = s.defVectAddr) := by
  rcases curVect_cases s with ⟨k, -, -, h⟩ | ⟨-, h⟩
  · exact ⟨h ▸ vectAddr_ne_zero hd hs k, .inl ⟨k, h⟩⟩
  · obtain ⟨-, -, hdef⟩ := hs
    exact ⟨h ▸ hdef, .inr h⟩

/-- A command keeps the table free of null routines: `REGISTER_NV` refuses one, `INIT` stores `DUMMY_ADDR` (R171, R163). -/
theorem exec_tableNonNull {i : Instr} {s t : State} (hd : s.params.dummyAddr ≠ 0#32) (hs : s.tableNonNull)
    (h : exec i s = .next t) : t.tableNonNull := by
  cases i with
  | init =>
    cases (exec_init s).symm.trans h
    intro i
    simpa [State.afterInit] using hd
  | registerNv line routine =>
    by_cases hnoOp : 32 ≤ line.toNat ∨ routine = 0#32
    · cases (exec_registerNv_noOp s hnoOp).symm.trans h
      exact hs
    · obtain ⟨hline, hr⟩ := not_or.1 hnoOp
      cases (exec_registerNv (l := ⟨line.toNat, Nat.lt_of_not_le hline⟩) s rfl hr).symm.trans h
      intro i
      simp only [Fin.getElem_fin, Vector.getElem_set]
      split
      · exact hr
      · exact hs i
  | regRead off => cases exec_footprint h; exact fun i => by simpa using hs i
  | regWrite off v => cases exec_footprint h; exact fun i => by simpa using hs i
  | _ => cases exec_footprint h; exact hs

/-- What a step makes of the settled state (log 3): it changes inputs alone, or is what a command or a return leaves. -/
theorem step_settled_cases {s t : State} (h : step s = .next t) : SameButInputs s.settled t.settled ∨
    (s.job = none ∧ ∃ rest, (∃ i, exec i { s with moves := rest } = .next t.settled) ∨
      routineReturn { s with moves := rest } = .next t.settled) := by
  rcases step_next h with ⟨-, rfl⟩ | ⟨cw, rest, i, -, hj, -, hi⟩ | ⟨cw, rest, i, -, hj, -, hi⟩ |
    ⟨rest, j, -, hj, rfl⟩ | ⟨v, rest, -, rfl⟩ | ⟨rest, -, hj, hr⟩
  · exact .inl ⟨_, _, _, rfl⟩
  · rw [settled_free ((exec_job hi).trans hj)]
    exact .inr ⟨hj, rest, .inl ⟨i, hi⟩⟩
  · rcases startInstr_next hi with ⟨rfl, hdisp⟩ | ⟨hne, u, hu, rfl⟩
    · rw [settled_free ((exec_job hdisp).trans hj)]
      exact .inr ⟨hj, rest, .inl ⟨.dispatch, hdisp⟩⟩
    · rw [settled_start hne hu hj]
      exact .inr ⟨hj, rest, .inl ⟨i, hu⟩⟩
  · rw [settled_nextAccess (s := { s with moves := rest }) hj]
    exact .inl (settled_sameButInputs ⟨s.rawsrc, s.trace, rest, rfl⟩)
  · exact .inl (settled_sameButInputs ⟨v, s.trace, rest, rfl⟩)
  · rw [settled_free ((return_job hr).trans hj)]
    exact .inr ⟨hj, rest, .inr hr⟩

/-- A step keeps the table, as the command in progress will leave it, free of null routines. -/
theorem step_tableNonNull {s t : State} (hd : s.params.dummyAddr ≠ 0#32) (hs : s.settled.tableNonNull)
    (h : step s = .next t) : t.settled.tableNonNull := by
  rcases step_settled_cases h with ⟨v, tr, ms, ht⟩ | ⟨hj, rest, ⟨i, hi⟩ | hr⟩
  · rw [ht]; exact hs
  · rw [settled_free hj] at hs
    exact exec_tableNonNull (s := { s with moves := rest }) hd hs hi
  · rw [settled_free hj] at hs
    rw [return_frame hr]; exact hs

/-- Settles O59: `step_tableNonNull`, and every call of a step is of an address that `Invoked` admits. -/
theorem invokedAddressesAreNeverNull : Obligations.InvokedAddressesAreNeverNull := by
  intro s t hd hs h
  refine ⟨step_tableNonNull hd hs h, fun a ha => ?_⟩
  obtain ⟨hj, ⟨hmode, i, rfl⟩ | ⟨hmode, rfl⟩⟩ := (step_calls h).drop ha
  · rw [settled_free hj] at hs
    exact ⟨fun _ => ⟨hs i, i, rfl⟩, fun hv => absurd hv hmode⟩
  · exact ⟨fun hv => absurd hmode hv, fun _ hcons => curVect_ne_zero hd hcons⟩

end Sys2Proof.Machine
end

section
/-!
PROOFS about the register file (45_regfile_access R231 to R233): the answers of `REG_READ` and `REG_WRITE`, and the offsets
that are no register's.
-/
namespace Sys2Proof.Machine

/-! ## The register at an offset -/

theorem mem_allRegs (r : Reg) : r ∈ allRegs := by
  cases r <;> simp [allRegs, mem_allSlots]

theorem registerAt_eq_none_iff (m : RegMap) (off : Word) : registerAt m off = none ↔ ∀ r : Reg, offsetOf m r ≠ off := by
  simp [registerAt, mem_allRegs]

theorem offsetOf_of_registerAt {m : RegMap} {off : Word} {r : Reg} (h : registerAt m off = some r) :
    offsetOf m r = off := by
  simpa using List.find?_some h

/-! ## What `REG_READ` and `REG_WRITE` answer -/

section
variable {off : Word} {r : Reg} (s : State)

theorem exec_regRead_misaligned (h : off.toNat % 4 ≠ 0) : exec (.regRead off) s = .fault .regMisaligned := by
  simp only [exec, execRegRead, (misaligned_iff off).2 h, if_true]

theorem exec_regWrite_misaligned (v : Word) (h : off.toNat % 4 ≠ 0) :
    exec (.regWrite off v) s = .fault .regMisaligned := by
  simp only [exec, execRegWrite, (misaligned_iff off).2 h, if_true]

/-- An offset that is a multiple of 4 passes the first test of an access. -/
theorem not_misaligned (h4 : off.toNat % 4 = 0) : ¬ misaligned off = true := by
  rw [misaligned_iff, not_not]; exact h4

theorem exec_regRead_reserved (h4 : off.toNat % 4 = 0) (h : registerAt s.params.offsets off = none) :
    exec (.regRead off) s = .fault .regReserved := by
  simp only [exec, execRegRead, if_neg (not_misaligned h4), h]

theorem exec_regWrite_reserved (v : Word) (h4 : off.toNat % 4 = 0) (h : registerAt s.params.offsets off = none) :
    exec (.regWrite off v) s = .fault .regReserved := by
  simp only [exec, execRegWrite, if_neg (not_misaligned h4), h]

/-- A second read of `VECTADDR` (10_state R34, R38). -/
theorem exec_regRead_vectAddr_twice (h4 : off.toNat % 4 = 0) (h : registerAt s.params.offsets off = some .vectAddr)
    (hbusy : s.inService = true) : exec (.regRead off) s = .fault .vectaddrReadTwice := by
  simp only [exec, execRegRead, if_neg (not_misaligned h4), h, regRead_vectAddr_twice hbusy]

/-- Any other read of a register (45_regfile_access R231). -/
theorem exec_regRead_mapped (h4 : off.toNat % 4 = 0) (h : registerAt s.params.offsets off = some r)
    (hfree : r = .vectAddr → s.inService = false) :
    exec (.regRead off) s = .next ((s.afterRead r).respond (s.readValue r)) := by
  rcases regRead_cases s r with ⟨hr, hbusy, -⟩ | ⟨-, hread⟩
  · exact absurd (hfree hr) (by simp [hbusy])
  · simp only [exec, execRegRead, if_neg (not_misaligned h4), h, hread]

/-- A write of a register (45_regfile_access R232). -/
theorem exec_regWrite_mapped (v : Word) (h4 : off.toNat % 4 = 0) (h : registerAt s.params.offsets off = some r) :
    exec (.regWrite off v) s = .next ((s.regWrite r v).respond 0#32) := by
  simp only [exec, execRegWrite, if_neg (not_misaligned h4), h]

end

/-- A read changes the response, the handshake, the count of unspecified words and the trace (R231). -/
theorem afterRead_respond (s : State) (r : Reg) (v : Word) : (s.afterRead r).respond v = { s with
    resp := v, inService := s.inService || decide (r = .vectAddr), draws := (s.afterRead r).draws,
    trace := s.trace ++ [.regRead r (s.readValue r), .response v] } := by
  cases r <;> simp [State.afterRead, State.readEffect, observe_respond]

/-- A write changes what its effect says, the response and the trace (R232). -/
theorem regWrite_respond (s : State) (r : Reg) (v w : Word) : (s.regWrite r v).respond w =
    { s.writeEffect r v with resp := w, trace := s.trace ++ [.regWrite r v, .response w] } := by
  cases r <;> exact observe_respond _ _ _

/-! ## The faults of an offset -/

/-- No other command tests an offset (R233). -/
theorem offset_fault_of_access {i : Instr} {s : State}
    (h : exec i s = .fault .regMisaligned ∨ exec i s = .fault .regReserved) :
    (∃ off, i = .regRead off) ∨ ∃ off v, i = .regWrite off v := by
  rcases instr_cases i with hq | rfl | rfl | hread | hwrite
  · obtain ⟨t, v, -, ht⟩ := exec_quiet i s hq
    simp [ht] at h
  · rcases execRelocate_cases s with ⟨-, he⟩ | ⟨-, -, he⟩ | ⟨-, -, -, he⟩ | ⟨-, -, he⟩ | ⟨-, -, -, he⟩ | ⟨-, -, -, he⟩ <;>
      simp [exec, he] at h
  · rcases execDispatch_cases s with ⟨-, he⟩ | ⟨-, -, he⟩ | ⟨-, -, -, he⟩ | ⟨-, -, -, he⟩ <;> simp [exec, he] at h
  · exact .inl hread
  · exact .inr hwrite

/-- The byte ranges that the default offsets of 10_state R24 leave free. -/
def DefaultGap (n : Nat) : Prop :=
  (0x024 ≤ n ∧ n ≤ 0x02C) ∨ (0x038 ≤ n ∧ n ≤ 0x0FC) ∨ (0x140 ≤ n ∧ n ≤ 0x1FC) ∨ 0x240 ≤ n

theorem defaultRegMap_vectAddrN (k : Slot) : (offsetOf defaultRegMap (.vectAddrN k)).toNat = 0x100 + 4 * k.val := by
  simp only [offsetOf, defaultRegMap, Fin.getElem_fin, Vector.getElem_ofFn, BitVec.toNat_ofNat]
  omega

theorem defaultRegMap_vectCntlN (k : Slot) : (offsetOf defaultRegMap (.vectCntlN k)).toNat = 0x200 + 4 * k.val := by
  simp only [offsetOf, defaultRegMap, Fin.getElem_fin, Vector.getElem_ofFn, BitVec.toNat_ofNat]
  omega

theorem defaultRegMap_outside_gap (r : Reg) : ¬ DefaultGap (offsetOf defaultRegMap r).toNat := by
  unfold DefaultGap
  cases r with
  | vectAddrN k => rw [defaultRegMap_vectAddrN]; omega
  | vectCntlN k => rw [defaultRegMap_vectCntlN]; omega
  | _ => decide

/-- The single registers fill what lies below the first slot and outside the gaps. -/
theorem defaultRegMap_singles (n : Fin 14) (h : ¬ (9 ≤ n.val ∧ n.val ≤ 11)) :
    (registerAt defaultRegMap (BitVec.ofNat 32 (4 * n.val))).isSome = true := by
  revert n; decide

/-- Every word outside the gaps is a register's: a single one, or that of the slot its distance to the row names. -/
theorem registerAt_defaultRegMap {off : Word} (h4 : off.toNat % 4 = 0) (hgap : ¬ DefaultGap off.toNat) :
    registerAt defaultRegMap off ≠ none := by
  intro hnone
  have hfree := (registerAt_eq_none_iff _ _).1 hnone
  unfold DefaultGap at hgap
  have hrows : off.toNat < 0x38 ∨ (0x100 ≤ off.toNat ∧ off.toNat < 0x140) ∨ (0x200 ≤ off.toNat ∧ off.toNat < 0x240) := by
    omega
  rcases hrows with hlow | ⟨hlo, hhi⟩ | ⟨hlo, hhi⟩
  · have hoff : BitVec.ofNat 32 (4 * (off.toNat / 4)) = off := by
      apply BitVec.eq_of_toNat_eq; rw [BitVec.toNat_ofNat]; omega
    have hsome := defaultRegMap_singles ⟨off.toNat / 4, by omega⟩ (by simp only; omega)
    simp [hoff, hnone] at hsome
  · refine hfree (.vectAddrN ⟨(off.toNat - 0x100) / 4, by omega⟩) (BitVec.eq_of_toNat_eq ?_)
    rw [defaultRegMap_vectAddrN]; simp only; omega
  · refine hfree (.vectCntlN ⟨(off.toNat - 0x200) / 4, by omega⟩) (BitVec.eq_of_toNat_eq ?_)
    rw [defaultRegMap_vectCntlN]; simp only; omega

theorem registerAt_defaultRegMap_eq_none_iff {off : Word} (h4 : off.toNat % 4 = 0) :
    registerAt defaultRegMap off = none ↔ DefaultGap off.toNat := by
  refine ⟨fun hnone => by_contra fun hgap => registerAt_defaultRegMap h4 hgap hnone, fun hgap => ?_⟩
  refine (registerAt_eq_none_iff _ _).2 fun r hr => defaultRegMap_outside_gap r ?_
  rwa [hr]

/-! ## The statements -/

/-- Settles O41: the equations of `REG_READ`; the answer is the register's own value, `readValue`. -/
theorem regReadReturnsTheRegister : Obligations.RegReadReturnsTheRegister := by
  refine fun off s => ⟨fun b => decode_opcode (i := .regRead off) ⟨fun _ => rfl, nofun⟩, exec_regRead_misaligned s,
    exec_regRead_reserved s, fun r h4 hr => ⟨?_, fun hfree => ?_⟩⟩
  · rintro rfl
    exact exec_regRead_vectAddr_twice s h4 hr
  · have hval {q : Reg} (h : r = q) : s.readValue r = s.readValue q := congrArg _ h
    refine ⟨_, exec_regRead_mapped s h4 hr hfree, hval, hval, hval, hval, hval, hval, hval, hval, hval,
      fun _ => hval, fun _ => hval, afterRead_respond s r _, fun hen hsoft => ?_⟩
    exact (State.afterRead_draws s r).trans (if_neg (not_or.2 ⟨hen, hsoft⟩))

/-- Settles O42: the equations of `REG_WRITE`; what it stores is the register's `writeEffect`. -/
theorem regWriteStoresByAccessKind : Obligations.RegWriteStoresByAccessKind := by
  refine fun off v s => ⟨decode_opcode (i := .regWrite off v) ⟨fun _ => rfl, fun _ => rfl⟩,
    exec_regWrite_misaligned s v, exec_regWrite_reserved s v, fun r u h4 hr hu => ?_⟩
  subst hu
  have hstore {q : Reg} (h : r = q) : exec (.regWrite off v) s = .next { s.writeEffect q v with
      resp := 0#32, trace := s.trace ++ [.regWrite r v, .response 0#32] } := by
    rw [exec_regWrite_mapped s v h4 hr, regWrite_respond, h]
  exact ⟨by rintro (h | h | h) <;> exact hstore h, hstore, hstore, hstore, hstore, hstore, hstore, hstore, hstore,
    fun _ => hstore, fun _ => hstore⟩

/-- Settles O43: an offset that is no register's has none at it, and under the default table those offsets are the gaps. -/
theorem offsetsThatAreNotRegistersFault : Obligations.OffsetsThatAreNotRegistersFault := by
  intro off v s
  have hreserved (h4 : off.toNat % 4 = 0) (hnone : registerAt s.params.offsets off = none) :
      exec (.regRead off) s = .fault .regReserved ∧ exec (.regWrite off v) s = .fault .regReserved :=
    ⟨exec_regRead_reserved s h4 hnone, exec_regWrite_reserved s v h4 hnone⟩
  refine ⟨fun h => ⟨exec_regRead_misaligned s h, exec_regWrite_misaligned s v h⟩,
    fun h4 hoff => hreserved h4 ((registerAt_eq_none_iff _ _).2 hoff), fun _ => offset_fault_of_access,
    fun hdefault h4 => ?_⟩
  have hgap := hdefault ▸ registerAt_defaultRegMap_eq_none_iff h4
  refine ⟨fun h => hreserved h4 (hgap.2 h), fun h => ?_⟩
  obtain ⟨r, hr⟩ := Option.ne_none_iff_exists'.1 (mt hgap.1 h)
  exact ⟨r, hr, offsetOf_of_registerAt hr⟩

end Sys2Proof.Machine
end

section
/-!
PROOFS about rejected operands (60_exceptions R241): the no-op of each command whose operand is refused, and the commands
that refuse nothing.
-/
namespace Sys2Proof.Machine

/-! ## A line without a slot (43_vector_slots R193 to R197) -/

/-- A loop over the slots assigned to a line takes no turn when there are none. -/
theorem forAssigned_of_none {s : State} {l : Line} (h : ∀ k : Slot, s.slotLine[k] ≠ some l) (f : State → Slot → State) :
    s.forAssigned l f = s :=
  List.foldl_fixed' (fun k => if_neg (h k)) allSlots

/-- A line operand is out of range or names a line. -/
theorem line_operand_cases (a : Word) : 32 ≤ a.toNat ∨ ∃ l : Line, a.toNat = l.val :=
  (le_or_gt 32 a.toNat).imp_right fun h => ⟨⟨a.toNat, h⟩, rfl⟩

/-- No slot is assigned to the line a line operand names; an operand that names none satisfies it in every state. -/
def State.NoSlotFor (s : State) (line : Word) : Prop :=
  ∀ (k : Slot) (m : Line), s.slotLine[k] = some m → m.val ≠ line.toNat

section
variable {s : State} {line : Word} (h : s.NoSlotFor line)
include h

theorem State.NoSlotFor.slotLine_ne {l : Line} (hl : line.toNat = l.val) (k : Slot) : s.slotLine[k] ≠ some l :=
  fun hk => h k l hk hl.symm

theorem exec_unregisterVec_noSlot : exec (.unregisterVec line) s = .next (s.respond 0#32) := by
  rcases line_operand_cases line with hrange | ⟨l, hl⟩
  · exact exec_unregisterVec_noLine s hrange
  · rw [exec_unregisterVec s hl, forAssigned_of_none (h.slotLine_ne hl)]

theorem exec_disableVec_noSlot : exec (.disableVec line) s = .next (s.respond 0#32) := by
  rcases line_operand_cases line with hrange | ⟨l, hl⟩
  · exact exec_disableVec_noLine s hrange
  · rw [exec_disableVec s hl, forAssigned_of_none (h.slotLine_ne hl)]

theorem exec_enableVec_noSlot : exec (.enableVec line) s = .next (s.respond failWord) := by
  rcases line_operand_cases line with hrange | ⟨l, hl⟩
  · exact exec_enableVec_noLine s hrange
  · rw [exec_enableVec s hl, forAssigned_of_none (h.slotLine_ne hl), enableResponse_of_none (h.slotLine_ne hl)]

end

/-! ## The other rejections and completions -/

/-- With every slot assigned to another line there is nothing to allocate (43_vector_slots R191). -/
theorem exec_registerVec_exhausted {s : State} {line : Word} (routine : Word)
    (h : ∀ j : Slot, ∃ m : Line, s.slotLine[j] = some m ∧ m.val ≠ line.toNat) :
    exec (.registerVec line routine) s = .next (s.respond failWord) := by
  refine exec_registerVec_fail s (.inr (.inr fun l hl => (allocate_eq_none_iff s l).2 fun j => ?_))
  obtain ⟨m, hj, hm⟩ := h j
  rw [hj]
  exact ⟨fun heq => hm (by rw [hl, Option.some.inj heq]), Option.some_ne_none m⟩

theorem exec_setDefaultVec_null (s : State) : exec (.setDefaultVec 0#32) s = .next (s.respond 0#32) := rfl

/-- Outside a routine a `DISPATCH` completes or calls, unless its read of `VECTADDR` is a second one (44_dispatch R211). -/
theorem dispatch_completes {s : State} (hidle : s.dispatch = .idle) (h : s.mode = .nonVectored ∨ s.inService = false) :
    ∃ t : State, exec .dispatch s = .next t := by
  cases hmode : s.mode with
  | nonVectored => exact ⟨_, exec_dispatch_nonVectored hidle hmode⟩
  | vectored => exact ⟨_, exec_dispatch_vectored hidle hmode (h.resolve_left (by simp [hmode]))⟩

theorem quiet_completes {i : Instr} (s : State) (h : quietCommand i = true) : ∃ t : State, exec i s = .next t := by
  obtain ⟨u, v, -, hexec⟩ := exec_quiet i s h
  exact ⟨_, hexec⟩

/-- Settles O56: row by row of R241, `zero` and `fail` are `respond 0` and `respond FAIL`. -/
theorem rejectedOperandsDoNothing : Obligations.RejectedOperandsDoNothing := by
  rintro l x s zero fail rfl rfl
  refine ⟨fun hx => exec_setMode_of_none (modeOf_eq_none hx) s, exec_registerNv_noOp s,
    fun hl => ⟨exec_enable_noOp s hl, exec_disable_noOp s hl, exec_isEnabled_noOp s hl, exec_getType_noOp s hl⟩,
    exec_setType_noOp s, fun h => exec_registerVec_fail s (h.imp_right .inl), exec_registerVec_exhausted x,
    fun h => ⟨exec_unregisterVec_noSlot h, exec_disableVec_noSlot h, exec_enableVec_noSlot h⟩, ?_,
    fun i hi => quiet_completes s ?_, dispatch_completes, fun hr hv => relocate_completes hr (.inr hv), relocate_noOp⟩
  · rintro rfl
    exact exec_setDefaultVec_null s
  · rcases hi with rfl | rfl | rfl | rfl | rfl | rfl <;> rfl

end Sys2Proof.Machine
end

section
/-!
PROOFS about access kinds (70_reset_and_hazards R282): only a `REG_READ` reads a write-only register, and only a `REG_WRITE`
writes a read-only one.
-/
namespace Sys2Proof.Machine

/-- Neither a read of a write-only register nor a write of a read-only one (10_state R23). -/
def Event.RespectsAccessKind (e : Event) : Prop := e.readsWriteOnly = false ∧ e.writesReadOnly = false

/-- Observations are only appended from `s` to `t`, and each of them respects its register's access kind. -/
def RespectsAccessKinds (s t : State) : Prop :=
  ∃ es : List Event, t.trace = s.trace ++ es ∧ ∀ e ∈ es, e.RespectsAccessKind

@[simp] theorem respectsAccessKind_response (v : Word) : (Event.response v).RespectsAccessKind := ⟨rfl, rfl⟩

@[simp] theorem respectsAccessKind_call (a : Word) : (Event.call a).RespectsAccessKind := ⟨rfl, rfl⟩

/-- A plain access reads a stored register, or writes one that is not read-only. -/
theorem respectsAccessKind_plain {e : Event} (h : e.isPlainAccess = true) : e.RespectsAccessKind := by
  cases e with
  | regRead r v =>
    cases r with
    | intEnClear | softIntClear => exact absurd h nofun
    | _ => exact ⟨rfl, rfl⟩
  | regWrite r v =>
    cases r with
    | irqStatus | fiqStatus | rawIntr => exact absurd h nofun
    | _ => exact ⟨rfl, rfl⟩
  | _ => exact ⟨rfl, rfl⟩

/-- An access of the memory port is no register access. -/
theorem respectsAccessKind_memAccess {e : Event} (h : e.isMemAccess = true) : e.RespectsAccessKind := by
  cases e with
  | regRead r v | regWrite r v => exact absurd h nofun
  | _ => exact ⟨rfl, rfl⟩

/-- After an observation that respects its kind, a scan calls or responds (44_dispatch R212). -/
theorem scanFrom_respectsAccessKinds (snap : Word) (start : Nat) (s : State) {e : Event} (he : e.RespectsAccessKind) :
    RespectsAccessKinds s (scanFrom snap start (s.observe e)) := by
  cases h : nextLine snap start with
  | none =>
    rw [scanFrom_of_none s e h]
    exact ⟨_, rfl, by simp [he]⟩
  | some i =>
    rw [scanFrom_of_some s e h]
    exact ⟨_, rfl, by simp [he]⟩

/-- `DISPATCH` reads `IRQSTATUS` or `VECTADDR`, and neither is write-only (44_dispatch R212, R213). -/
theorem dispatch_respectsAccessKinds {s t : State} (h : exec .dispatch s = .next t) : RespectsAccessKinds s t := by
  rcases dispatch_next h with ⟨-, ⟨-, rfl⟩ | ⟨-, -, rfl⟩⟩
  · exact scanFrom_respectsAccessKinds _ _ s ⟨rfl, rfl⟩
  · have hread : (Event.regRead .vectAddr s.curVect).RespectsAccessKind := ⟨rfl, rfl⟩
    exact ⟨_, rfl, by simp [hread]⟩

/-- A return writes at most `VECTADDR`, which is not read-only (44_dispatch R212, R213). -/
theorem return_respectsAccessKinds {s t : State} (h : routineReturn s = .next t) : RespectsAccessKinds s t := by
  rcases return_next h with ⟨snap, i, -, rfl⟩ | ⟨-, rfl⟩
  · exact scanFrom_respectsAccessKinds _ _ s ⟨rfl, rfl⟩
  · have hret : Event.ret.RespectsAccessKind := ⟨rfl, rfl⟩
    have hwrite : (Event.regWrite .vectAddr s.params.eoiSentinel).RespectsAccessKind := ⟨rfl, rfl⟩
    exact ⟨_, rfl, by simp [hret, hwrite]⟩

/-- Every command but the two raw accesses respects the access kinds of the registers (70_reset_and_hazards R282). -/
theorem exec_respectsAccessKinds {i : Instr} {s t : State} (hread : ∀ off, i ≠ .regRead off)
    (hwrite : ∀ off v, i ≠ .regWrite off v) (h : exec i s = .next t) : RespectsAccessKinds s t := by
  rcases instr_cases i with hq | rfl | rfl | ⟨off, rfl⟩ | ⟨off, v, rfl⟩
  · obtain ⟨u, v, hu, rfl⟩ := quiet_next hq h
    obtain ⟨es, htr, hplain, -⟩ := hu.trace
    refine ⟨es ++ [.response v], by simp [htr], List.forall_mem_append.2 ⟨fun e he => ?_, by simp⟩⟩
    exact respectsAccessKind_plain (hplain e he)
  · obtain ⟨-, -, -, es, htr, hmem, -⟩ := relocate_next h
    refine ⟨es ++ [.response 0#32], by simp [htr], List.forall_mem_append.2 ⟨fun e he => ?_, by simp⟩⟩
    exact respectsAccessKind_memAccess (hmem e he)
  · exact dispatch_respectsAccessKinds h
  · exact absurd rfl (hread off)
  · exact absurd rfl (hwrite off v)

/-- Settles O53: a raw access performs one access, of the kind it is exempt for; any other command, and a return, by the
lemmas above. -/
theorem accessKindsAreRespected : Obligations.AccessKindsAreRespected := by
  refine ⟨fun i s t h => ?_, fun s t => return_respectsAccessKinds⟩
  by_cases hread : ∃ off, i = .regRead off
  · obtain ⟨off, rfl⟩ := hread
    obtain ⟨r, -, -, rfl⟩ := regRead_next h
    exact ⟨[.regRead r (s.readValue r), .response (s.readValue r)], by simp, fun hne => absurd rfl (hne off),
      fun _ => by simp [Event.writesReadOnly]⟩
  by_cases hwrite : ∃ off v, i = .regWrite off v
  · obtain ⟨off, v, rfl⟩ := hwrite
    obtain ⟨r, -, rfl⟩ := regWrite_next h
    exact ⟨[.regWrite r v, .response 0#32], by simp, fun _ => by simp [Event.readsWriteOnly],
      fun hne => absurd rfl (hne off v)⟩
  obtain ⟨es, htr, hes⟩ := exec_respectsAccessKinds (not_exists.1 hread) (fun off v he => hwrite ⟨off, v, he⟩) h
  exact ⟨es, htr, fun _ e he => (hes e he).1, fun _ e he => (hes e he).2⟩

end Sys2Proof.Machine
end
